-- ==== Sys2Proof/Word.lean ====
section
/-! DEFINITION. The value domains of 00_scope.md R5, R6 and R10: bytes, 32-bit words, symbols, codes and tree nodes. -/

namespace Sys2Proof

/-- A byte (20_memory.md R61). -/
abbrev Byte := BitVec 8

/-- A 32-bit word: the `v` field, a code register, a length or cursor register (R4, R80). -/
abbrev Word := BitVec 32

/-- A symbol field: 32 bits (R4 `SYM_W`), in which a Unicode scalar value is held. -/
abbrev Sym := BitVec 32

/-- A (code, length) pair, "value right-justified" (R10 `Code`). -/
structure Code where
  code : Word
  length : Nat
  deriving DecidableEq, Repr, Inhabited

/-- R10 `Node`, 10_state.md R30: "a tagged variant — Leaf{symbol, weight} or Internal{weight, left, right}".
A weight is an unsigned count; the width `WEIGHT_W` is checked where a weight is made (R156, R176). -/
inductive Node where
  | leaf (symbol : Sym) (weight : Nat)
  | internal (weight : Nat) (left right : Node)
  deriving DecidableEq, Repr, Inhabited

end Sys2Proof
end

