-- ==== Sys2Proof/Machine/Bits.lean ====
section
/-! DEFINITION. Bit order and byte order: MSB-first bits (20_memory.md R63), big-endian bytes (R64), zero padding in the low bits of the last byte (R67). -/

namespace Sys2Proof.Machine

open Sys2Proof

/-- The `n` low bits of `v`, most significant of those first (20_memory.md R63, 40_bitstream.md R123). -/
def msbBits {w : Nat} (v : BitVec w) : Nat → List Bool
  | 0 => []
  | n + 1 => v.getLsbD n :: msbBits v n

/-- The bit sequence of one byte: stream bit j is bit 7 - j (00_scope.md R7). -/
def bitsOfByte (b : Byte) : List Bool := msbBits b 8

/-- The MSB-first bit sequence of a byte buffer (00_scope.md R7). -/
def bitsOfBytes (bs : List Byte) : List Bool := bs.flatMap bitsOfByte

/-- `((acc << 1) | b)[7:0]`: a bit enters an 8-bit accumulator from below (40_bitstream.md R122, R133). -/
def shiftIn (acc : Byte) (b : Bool) : Byte := (acc <<< 1) ||| (BitVec.ofBool b).setWidth 8

/-- `((acc << 1) | b)` in a 32-bit code register (43_prefix_table.md R192, 45_data_codec.md R241). -/
def shiftInWord (c : Word) (b : Bool) : Word := (c <<< 1) ||| (BitVec.ofBool b).setWidth 32

/-- A last byte with `c` pending bits: they move to the top, zeros fill the rest (20_memory.md R67). -/
def padByte (acc : Byte) (c : Nat) : Byte := acc <<< (8 - c)

/-- Pack bits MSB-first into bytes, from an accumulator holding `c` bits (40_bitstream.md R133). -/
def packFrom : List Bool → Byte → Nat → List Byte
  | [], acc, c => if c = 0 then [] else [padByte acc c]
  | b :: bs, acc, c =>
    if c = 7 then shiftIn acc b :: packFrom bs 0 0 else packFrom bs (shiftIn acc b) (c + 1)

/-- Pack bits MSB-first into whole bytes, zero-filling the last one (40_bitstream.md R133). -/
def packBits (bs : List Bool) : List Byte := packFrom bs 0 0

/-- `be32(n)` (00_scope.md R8). -/
def be32 (v : Word) : List Byte :=
  [v.extractLsb' 24 8, v.extractLsb' 16 8, v.extractLsb' 8 8, v.extractLsb' 0 8]

/-- The 32-bit word of four bytes, most significant first (00_scope.md R8). -/
def word32 (a b c d : Byte) : Word := a ++ b ++ c ++ d

/-- `unbe32(B)`, defined for four bytes (00_scope.md R8). -/
def unbe32 : List Byte → Word
  | [a, b, c, d] => word32 a b c d
  | _ => 0

/-- The `k` bytes of a number, most significant first (`be64` for k = 8, 00_scope.md R8). -/
def beBytes : Nat → Nat → List Byte
  | 0, _ => []
  | k + 1, n => BitVec.ofNat 8 (n / 256 ^ k) :: beBytes k n

/-- `ceil(n/8)`. -/
def byteCount (n : Nat) : Nat := (n + 7) / 8

end Sys2Proof.Machine
end

