-- ==== Sys2Proof/Machine/Units.lean ====
section
/-! DEFINITION. The state of each unit of HUFFCORE, in the groups of 10_state.md R20, the fault causes of 60_exceptions.md R287 and the response record of 30_encoding.md R88. Plain data. -/

namespace Sys2Proof.Machine

open Sys2Proof

/-- BitWriter (10_state.md R22, R36): `bw_acc`, `bw_cnt`, `WBUF`. -/
structure BW where
  acc : Byte
  cnt : Fin 8
  buf : List Byte
  deriving DecidableEq, Repr, Inhabited

/-- BitReader (10_state.md R23, R37): `RBUF`, `br_len`, `br_byte`, `br_bit`. -/
structure BR where
  buf : List Byte
  len : Word
  byte : Word
  bit : Fin 8
  deriving DecidableEq, Repr, Inhabited

/-- FrequencyTable (R28, R29, R25): `ft`, `ft_inc`, `FT_DONE`. The map is a list in rising order of the symbol. -/
structure FT where
  table : List (Sym × Nat)
  inc : List Byte
  done : Bool
  deriving DecidableEq, Repr, Inhabited

/-- The order key of a merge-queue node (42_tree_builder.md R172): weight, then kind, then tie. -/
structure Key where
  weight : Nat
  kind : Nat
  tie : Nat
  deriving DecidableEq, Repr, Inhabited

/-- One entry of MQ (R171): a node with its order key. -/
structure Entry where
  node : Node
  key : Key
  deriving DecidableEq, Repr, Inhabited

/-- Tree Builder (R30, R31, R25): `tree`, `TREE_V`, `MQ`, `mq_seq`. -/
structure TB where
  tree : Option Node
  treeV : Bool
  mq : List Entry
  mqSeq : Word
  deriving DecidableEq, Repr, Inhabited

/-- PrefixTable Generator (R32, R33, R25): `pt`, `PT_V`, `ipt`, `IPT_V`. -/
structure PG where
  pt : List (Sym × Code)
  ptV : Bool
  ipt : List (Code × Sym)
  iptV : Bool
  deriving DecidableEq, Repr, Inhabited

/-- DataCodec (R34, R35, R25): `dc_inc`, `ENC_ACT`, `dacc_code`, `dacc_len`. -/
structure DC where
  inc : List Byte
  encAct : Bool
  daccCode : Word
  daccLen : Fin 33
  deriving DecidableEq, Repr, Inhabited

/-- FLT, the fault register (R27): a 4-bit kind and an 8-bit cause, both 0 when no fault has been taken. -/
structure FLT where
  kind : BitVec 4
  cause : BitVec 8
  deriving DecidableEq, Repr, Inhabited

/-- The fault causes of 60_exceptions.md R287, in the table's order. `containerTruncated` and `hostIo` are
reported by the host only and never stand in `FLT`. -/
inductive Cause where
  | headerTruncated
  | invalidScalar
  | payloadTooShort
  | exhaustedMidSymbol
  | duplicateCode
  | containerTruncated
  | badControl
  | noMatch
  | duplicateSymbol
  | readPastEnd
  | incompleteTail
  | invalidUtf8
  | hostIo
  | illegalOpcode
  | reservedField
  | badBit
  | badCount
  | sequenceError
  | emptyAlphabet
  | codeTooLong
  | symbolNotInTable
  | weightOverflow
  | sizeOverflow
  | capacityExceeded
  deriving DecidableEq, Repr, Inhabited

/-- The response record (30_encoding.md R88). -/
structure Response where
  status : Byte
  value : Word
  data : List Byte
  deriving DecidableEq, Repr, Inhabited

/-- What a host-level macro reports to its caller (46_system_and_macros.md R265 to R267, R271). -/
inductive HostResult where
  /-- FT.COUNT ended without a fault. -/
  | counted
  /-- A container the host has packed (R106). -/
  | container (bytes : List Byte)
  /-- The text CX.DECODE returns. -/
  | text (bytes : List Byte)
  /-- A fault, in the block's numbering (R287). -/
  | failed (flt : FLT)
  deriving DecidableEq, Repr, Inhabited

end Sys2Proof.Machine
end

