-- ==== Sys2Proof/Machine/Container.lean ====
section
/-! DEFINITION. The container layout, 30_encoding.md R106 to R109: host-level pure functions (46_system_and_macros.md R268). -/

namespace Sys2Proof.Machine

open Sys2Proof

/-- `Pack(H, P) = be32(len(H)) ++ H ++ be32(len(P)) ++ P` (30_encoding.md R106). -/
def pack (h p : List Byte) : List Byte :=
  be32 (BitVec.ofNat 32 h.length) ++ h ++ (be32 (BitVec.ofNat 32 p.length) ++ p)

/-- A size field: the four bytes at offset `i`, as a byte count (30_encoding.md R107, R108). -/
def sizeField (c : List Byte) (i : Nat) : Nat := (unbe32 ((c.drop i).take 4)).toNat

/-- `Unpack(C)` (30_encoding.md R109): the segments in order; any short read is ContainerTruncated; bytes after the
payload are ignored. -/
def unpack (c : List Byte) : Except Cause (List Byte × List Byte) :=
  if c.length < 4 then .error .containerTruncated
  else
    let hs := sizeField c 0
    if c.length < 4 + hs then .error .containerTruncated
    else if c.length < 8 + hs then .error .containerTruncated
    else
      let ds := sizeField c (4 + hs)
      if c.length < 8 + hs + ds then .error .containerTruncated
      else .ok ((c.drop 4).take hs, (c.drop (8 + hs)).take ds)

end Sys2Proof.Machine
end

