-- ==== Sys2Proof/Syntax.lean ====
section
/-! DEFINITION. One constructor per row of spec/opcode_table.json: the 26 commands (30_encoding.md R84), the six
data formats and the three host-level pseudo-instructions (R92). DESIGN CHOICE (log 1, log 2): the last nine rows
are no commands; they are constructors because the table lists them. -/

namespace Sys2Proof

/-- The rows of the opcode table. A command's attached data block `D` is an operand, `v = len(D)` (R83). A field the
table marks "must be 0" is no operand: a word with a non-zero reserved field decodes to no instruction (R85). -/
inductive Instr where
  | sysReset
  | sysStat
  | bwClr
  | bwWbit (v : Word)
  | bwWbits (n : Byte) (v : Word)
  | bwFlush
  | bwPos
  | bwRdbuf
  | brLoad (d : List Byte)
  | brNext
  | brRbits (n : Byte)
  | brPos
  | ftClr
  | ftUpd (d : List Byte)
  | ftEnd
  | ftRd (v : Word)
  | tbBuild
  | pgGen
  | pgInv
  | pgRd (v : Word)
  | hcSer
  | hcDes (d : List Byte)
  | dcEbeg
  | dcEupd (d : List Byte)
  | dcEend
  | dcDec (d : List Byte)
  /-- Header token `NODE` (R94). -/
  | node
  /-- Header token `LEAF(s)` (R95). -/
  | leaf (s : Sym)
  /-- A codeword: the `length` low bits of `code` (R99). -/
  | codeword (code : Word) (length : Byte)
  /-- The control byte (R102). -/
  | ctrl (k : Byte)
  /-- The container of a header and a payload (R106). -/
  | container (header payload : List Byte)
  /-- A response record (R88). -/
  | response (status : Byte) (value : Word) (data : List Byte)
  /-- Pseudo-instruction FT.COUNT (46_system_and_macros.md R265). -/
  | ftCount (t : List Byte)
  /-- Pseudo-instruction CX.ENCODE (46_system_and_macros.md R266). -/
  | cxEncode (t : List Byte)
  /-- Pseudo-instruction CX.DECODE (46_system_and_macros.md R267). -/
  | cxDecode (c : List Byte)
  deriving DecidableEq, Repr, Inhabited

end Sys2Proof
end

