-- ==== Sys2Proof/Config.lean ====
section
/-! DEFINITION. The implementation parameters of 00_scope.md R4 and the free values of the model.
DESIGN CHOICE (log 7): the machine takes the spec's defaults. DESIGN CHOICE (log 4): one free value per unit. -/

namespace Sys2Proof.Config

open Sys2Proof.Machine

/-- The parameters R4 leaves to the implementation. The shared operations take them as an argument. -/
structure Params where
  /-- `WEIGHT_W`: width in bits of a count and of a node weight. -/
  weightW : Nat
  /-- `MAX_SYMS`: greatest number of distinct symbols. -/
  maxSyms : Nat
  /-- `MAX_NODES`: greatest number of tree nodes; `none` is unbounded. -/
  maxNodes : Option Nat
  /-- `MAX_BUF`: greatest length of any byte buffer, attached or returned data block. -/
  maxBuf : Nat
  /-- `CHUNK`: chunk size of the host-level macros. -/
  chunk : Nat
  deriving DecidableEq, Repr

/-- The values R4 gives, with which the machine runs: `WEIGHT_W` = 64, `MAX_SYMS` = 1,112,064, `MAX_NODES`
unbounded, `MAX_BUF` = 2^32 - 1, `CHUNK` = 1024 (log 7). -/
def params : Params :=
  { weightW := 64, maxSyms := 1112064, maxNodes := none, maxBuf := 4294967295, chunk := 1024 }

/-- What a fault leaves in the BitWriter (10_state.md R40): the fault's number selects the value (log 4). -/
opaque freeBW : Nat → BW

/-- What a fault leaves in the BitReader (10_state.md R40, log 4). -/
opaque freeBR : Nat → BR

/-- What a fault leaves in the FrequencyTable unit (10_state.md R40, log 4). -/
opaque freeFT : Nat → FT

/-- What a fault leaves in the Tree Builder (10_state.md R40, log 4). -/
opaque freeTB : Nat → TB

/-- What a fault leaves in the PrefixTable Generator (10_state.md R40, log 4). -/
opaque freePG : Nat → PG

/-- What a fault leaves in the DataCodec (10_state.md R40, log 4). -/
opaque freeDC : Nat → DC

end Sys2Proof.Config
end

