-- ==== Sys2Proof/Machine/Utf8.lean ====
section
/-! DEFINITION. UTF-8 and the symbol assembler: 30_encoding.md R110 to R112, 41_frequency.md R150 to R153. The tables are passages the spec supplies from general knowledge (93_implementation_defined.md G1 to G5; log 12). -/

namespace Sys2Proof.Machine

open Sys2Proof

/-- A Unicode scalar value: at most 0x10FFFF and no surrogate (00_scope.md R10, 30_encoding.md R96). -/
def isScalar (x : Sym) : Bool :=
  decide (x.toNat ≤ 0x10FFFF) && !(decide (0xD800 ≤ x.toNat) && decide (x.toNat ≤ 0xDFFF))

/-- One row of the table of well-formed sequences (R110): the range of byte 0 and those of the bytes after it. -/
structure Utf8Row where
  lo : Nat
  hi : Nat
  conts : List (Nat × Nat)
  deriving DecidableEq, Repr

/-- The nine rows of 30_encoding.md R110. -/
def utf8Rows : List Utf8Row :=
  [ ⟨0x00, 0x7F, []⟩,
    ⟨0xC2, 0xDF, [(0x80, 0xBF)]⟩,
    ⟨0xE0, 0xE0, [(0xA0, 0xBF), (0x80, 0xBF)]⟩,
    ⟨0xE1, 0xEC, [(0x80, 0xBF), (0x80, 0xBF)]⟩,
    ⟨0xED, 0xED, [(0x80, 0x9F), (0x80, 0xBF)]⟩,
    ⟨0xEE, 0xEF, [(0x80, 0xBF), (0x80, 0xBF)]⟩,
    ⟨0xF0, 0xF0, [(0x90, 0xBF), (0x80, 0xBF), (0x80, 0xBF)]⟩,
    ⟨0xF1, 0xF3, [(0x80, 0xBF), (0x80, 0xBF), (0x80, 0xBF)]⟩,
    ⟨0xF4, 0xF4, [(0x80, 0x8F), (0x80, 0xBF), (0x80, 0xBF)]⟩ ]

/-- The scalar of a well-formed sequence (30_encoding.md R111). -/
def scalarOf : List Byte → Sym
  | [b0] => b0.setWidth 32
  | [b0, b1] => (b0.extractLsb' 0 5 ++ b1.extractLsb' 0 6).setWidth 32
  | [b0, b1, b2] => (b0.extractLsb' 0 4 ++ b1.extractLsb' 0 6 ++ b2.extractLsb' 0 6).setWidth 32
  | [b0, b1, b2, b3] =>
    (b0.extractLsb' 0 3 ++ b1.extractLsb' 0 6 ++ b2.extractLsb' 0 6 ++ b3.extractLsb' 0 6).setWidth 32
  | _ => 0

/-- A continuation byte: `0x80 | s[lo+5:lo]` (30_encoding.md R112). -/
def contByte (s : Sym) (lo : Nat) : Byte := 0x80#8 ||| (s.extractLsb' lo 6).setWidth 8

/-- `Utf8Enc(s)`, the UTF-8 form of a scalar (30_encoding.md R112). -/
def utf8Enc (s : Sym) : List Byte :=
  if s.toNat ≤ 0x7F then [s.setWidth 8]
  else if s.toNat ≤ 0x7FF then [0xC0#8 ||| (s.extractLsb' 6 5).setWidth 8, contByte s 0]
  else if s.toNat ≤ 0xFFFF then [0xE0#8 ||| (s.extractLsb' 12 4).setWidth 8, contByte s 6, contByte s 0]
  else [0xF0#8 ||| (s.extractLsb' 18 3).setWidth 8, contByte s 12, contByte s 6, contByte s 0]

/-- What a byte sequence begins with (41_frequency.md R151). -/
inductive Head where
  | complete (s : Sym) (k : Nat)
  | incomplete
  | invalid
  deriving DecidableEq, Repr

/-- Match the bytes after byte 0 against a row's ranges (R151): `some true` all match, `some false` the bytes end
first, `none` a byte is out of range. -/
def matchTail : List (Nat × Nat) → List Byte → Option Bool
  | [], _ => some true
  | _ :: _, [] => some false
  | (lo, hi) :: rs, b :: bs => if lo ≤ b.toNat ∧ b.toNat ≤ hi then matchTail rs bs else none

/-- The row of the table whose "byte 0" range contains `b` (R151). -/
def utf8Row (b : Byte) : Option Utf8Row :=
  utf8Rows.find? fun r => decide (r.lo ≤ b.toNat) && decide (b.toNat ≤ r.hi)

/-- `Head(X)` (41_frequency.md R151). The empty sequence, for which the spec does not define it, is incomplete. -/
def head : List Byte → Head
  | [] => .incomplete
  | b :: bs =>
    match utf8Row b with
    | none => .invalid
    | some r =>
      match matchTail r.conts bs with
      | none => .invalid
      | some false => .incomplete
      | some true => .complete (scalarOf (b :: bs.take r.conts.length)) (r.conts.length + 1)

/-- Run the symbol assembler over bytes, handing each scalar to `f` as it is completed, left to right
(60_exceptions.md R292): the result and the incomplete remainder, or the first fault in text order. DEDUCED (log 9).
The first argument is fuel: each round takes at least one byte (70_reset_and_hazards.md R338). -/
def feed {σ : Type} (f : σ → Sym → Except Cause σ) : Nat → List Byte → σ → Except Cause (σ × List Byte)
  | 0, bs, st => .ok (st, bs)
  | _ + 1, [], st => .ok (st, [])
  | fuel + 1, b :: bs, st =>
    match head (b :: bs) with
    | .complete s k =>
      match f st s with
      | .ok st' => feed f fuel ((b :: bs).drop k) st'
      | .error c => .error c
    | .incomplete => .ok (st, b :: bs)
    | .invalid => .error .invalidUtf8

/-- `Utf8Split(B)` (41_frequency.md R152): the scalars of the longest well-formed prefix and the remainder. -/
def utf8Split (bs : List Byte) : Except Cause (List Sym × List Byte) :=
  feed (fun out s => .ok (out ++ [s])) bs.length bs []

end Sys2Proof.Machine
end

