-- ==== Sys2Proof/WellFormed.lean ====
section
/-! DEFINITION. Which instructions the encodings admit: attached data within the `v` field (30_encoding.md R81, R83), formats within their legal values (R96, R99, R102, R106, R89). -/

namespace Sys2Proof

open Sys2Proof.Machine

/-- A data block that a 32-bit length field can announce (20_memory.md R61). -/
def fitsLength (d : List Byte) : Bool := decide (d.length ≤ Config.params.maxBuf)

/-- A response the block can produce: a status of R89, and no data beside EOS, ABSENT and FAULT. -/
def responseWf (status : Byte) (data : List Byte) : Bool :=
  (decide (status = 0x00#8) && fitsLength data) ||
    (decide (status ∈ [0x01#8, 0x02#8, 0xFF#8]) && data.isEmpty)

/-- Well-formed instructions: those the encodings of 30_encoding.md can spell. Operands the spec checks when the
command runs (a bit above 1, a write count above 32) are well-formed and fault in their meaning (R113). -/
def Instr.wf : Instr → Bool
  | .sysReset | .sysStat | .bwClr | .bwWbit _ | .bwWbits _ _ | .bwFlush | .bwPos | .bwRdbuf => true
  | .brLoad d => fitsLength d
  | .brNext | .brRbits _ | .brPos | .ftClr => true
  | .ftUpd d => fitsLength d
  | .ftEnd | .ftRd _ | .tbBuild | .pgGen | .pgInv | .pgRd _ | .hcSer => true
  | .hcDes d => fitsLength d
  | .dcEbeg => true
  | .dcEupd d => fitsLength d
  | .dcEend => true
  | .dcDec d => fitsLength d
  | .node => true
  | .leaf s => isScalar s
  | .codeword c l => decide (1 ≤ l.toNat) && decide (l.toNat ≤ 32) && decide (c.toNat < 2 ^ l.toNat)
  | .ctrl k => decide (1 ≤ k.toNat) && decide (k.toNat ≤ 8)
  | .container h p => fitsLength h && fitsLength p
  | .response st _ d => responseWf st d
  | .ftCount _ | .cxEncode _ | .cxDecode _ => true

end Sys2Proof
end

