-- ==== Sys2Proof/Decode.lean ====
section
/-! DEFINITION. The decoder and the encoder of 30_encoding.md. Total on any bytes, rejecting by name; the encoder is
written from the same opcode map. -/

namespace Sys2Proof

open Sys2Proof.Machine

/-- The 26 operations of the opcode map (30_encoding.md R84). -/
inductive Op where
  | sysReset | sysStat
  | bwClr | bwWbit | bwWbits | bwFlush | bwPos | bwRdbuf
  | brLoad | brNext | brRbits | brPos
  | ftClr | ftUpd | ftEnd | ftRd
  | tbBuild
  | pgGen | pgInv | pgRd
  | hcSer | hcDes
  | dcEbeg | dcEupd | dcEend | dcDec
  deriving DecidableEq, Repr

/-- Why bytes, or bits, decode to nothing. -/
inductive DecodeError where
  /-- The bytes of the command have not all arrived (R273). -/
  | incomplete
  /-- `op` is not in the opcode map (R86). -/
  | illegalOpcode (op : Byte)
  /-- A must-be-zero field of the command is not zero (R85). -/
  | reservedField (op : Byte)
  /-- The bits end inside a header token (R219). -/
  | headerTruncated
  /-- A `LEAF` field that is no scalar (R96). -/
  | invalidScalar (s : Sym)
  /-- A codeword longer than the bits at hand, or of no legal length (R99). -/
  | badCodeword
  /-- A control byte 9..255 (R103). -/
  | badControl (k : Byte)
  /-- A container shorter than its size fields say (R109). -/
  | containerTruncated
  /-- A response status the block never produces (R89). -/
  | badStatus (st : Byte)
  deriving DecidableEq, Repr

/-- The opcode of an operation (30_encoding.md R84): the high nibble names the unit. -/
def Op.code : Op → Byte
  | .sysReset => 0x01#8
  | .sysStat => 0x02#8
  | .bwClr => 0x10#8
  | .bwWbit => 0x11#8
  | .bwWbits => 0x12#8
  | .bwFlush => 0x13#8
  | .bwPos => 0x14#8
  | .bwRdbuf => 0x15#8
  | .brLoad => 0x20#8
  | .brNext => 0x21#8
  | .brRbits => 0x22#8
  | .brPos => 0x23#8
  | .ftClr => 0x30#8
  | .ftUpd => 0x31#8
  | .ftEnd => 0x32#8
  | .ftRd => 0x33#8
  | .tbBuild => 0x40#8
  | .pgGen => 0x50#8
  | .pgInv => 0x51#8
  | .pgRd => 0x52#8
  | .hcSer => 0x60#8
  | .hcDes => 0x61#8
  | .dcEbeg => 0x70#8
  | .dcEupd => 0x71#8
  | .dcEend => 0x72#8
  | .dcDec => 0x73#8

/-- The rows of the opcode map. -/
def Op.all : List Op :=
  [.sysReset, .sysStat, .bwClr, .bwWbit, .bwWbits, .bwFlush, .bwPos, .bwRdbuf, .brLoad, .brNext, .brRbits, .brPos,
    .ftClr, .ftUpd, .ftEnd, .ftRd, .tbBuild, .pgGen, .pgInv, .pgRd, .hcSer, .hcDes, .dcEbeg, .dcEupd, .dcEend, .dcDec]

/-- The operation of an opcode; every other value is illegal (R86). -/
def Op.ofByte (b : Byte) : Option Op := Op.all.find? fun o => decide (o.code = b)

/-- The five data-carrying operations (30_encoding.md R83). -/
def Op.carriesData : Op → Bool
  | .brLoad | .ftUpd | .hcDes | .dcEupd | .dcDec => true
  | .sysReset | .sysStat | .bwClr | .bwWbit | .bwWbits | .bwFlush | .bwPos | .bwRdbuf | .brNext | .brRbits | .brPos
  | .ftClr | .ftEnd | .ftRd | .tbBuild | .pgGen | .pgInv | .pgRd | .hcSer | .dcEbeg | .dcEend => false

/-- A command word: `op = CW[47:40]`, `n = CW[39:32]`, `v = CW[31:0]` (30_encoding.md R80). -/
structure CmdWord where
  op : Byte
  n : Byte
  v : Word
  deriving DecidableEq, Repr

/-- The six bytes of a command word in transmission order (30_encoding.md R82). -/
def CmdWord.bytes (w : CmdWord) : List Byte := w.op :: w.n :: be32 w.v

/-- How many attached bytes follow the word: `v` for the five data opcodes, none for any other `op`, illegal ones
included (30_encoding.md R83). -/
def CmdWord.dataLength (w : CmdWord) : Nat :=
  match Op.ofByte w.op with
  | some o => if o.carriesData then w.v.toNat else 0
  | none => 0

/-- The first six bytes as a command word (30_encoding.md R82). -/
def takeWord : List Byte → Option (CmdWord × List Byte)
  | op :: n :: a :: b :: c :: d :: rest => some (⟨op, n, word32 a b c d⟩, rest)
  | _ => none

/-- One whole command from the command stream: its word, its attached data and what follows. `none` while its bytes
have not all arrived (46_system_and_macros.md R273). -/
def takeCommand (bs : List Byte) : Option (CmdWord × List Byte × List Byte) :=
  match takeWord bs with
  | none => none
  | some (w, r) =>
    if r.length < w.dataLength then none else some (w, r.take w.dataLength, r.drop w.dataLength)

/-- The bytes a command occupies on the command stream: its word, then its attached data (30_encoding.md R83). -/
def commandBytes (w : CmdWord) (d : List Byte) : List Byte := w.bytes ++ d

/-- The whole commands at the front of the bytes, without the bytes of a partly received one behind them
(70_reset_and_hazards.md R320). Fuel: a command has at least six bytes. -/
def wholeCommands : Nat → List Byte → List Byte
  | 0, _ => []
  | fuel + 1, bs =>
    match takeCommand bs with
    | none => []
    | some (w, d, rest) => commandBytes w d ++ wholeCommands fuel rest

/-- What asserting the reset input leaves on the command stream (70_reset_and_hazards.md R320, 46_system_and_macros.md R272): the
command in progress, which is the first whole one (R273, 20_memory.md R72), is abandoned; the bytes of a partly
received one are discarded. DESIGN CHOICE (log 6): whole commands behind the first, not yet started, wait on. `bs` is what
stands on the stream at the moment the input is asserted. -/
def streamAfterReset (bs : List Byte) : List Byte :=
  match takeCommand bs with
  | none => []
  | some (_, _, rest) => wholeCommands rest.length rest

/-- A command whose `n` and `v` must both be 0 (30_encoding.md R81, R85). -/
def noOperand (w : CmdWord) (i : Instr) : Except DecodeError Instr :=
  if w.n = 0 ∧ w.v = 0 then .ok i else .error (.reservedField w.op)

/-- A command whose `n` must be 0 (30_encoding.md R81, R85). -/
def valueOperand (w : CmdWord) (i : Instr) : Except DecodeError Instr :=
  if w.n = 0 then .ok i else .error (.reservedField w.op)

/-- A command whose `v` must be 0 (30_encoding.md R81, R85). -/
def countOnly (w : CmdWord) (i : Instr) : Except DecodeError Instr :=
  if w.v = 0 then .ok i else .error (.reservedField w.op)

/-- The instruction of a command word and its attached data (30_encoding.md R81, R84 to R86). -/
def decodeWord (w : CmdWord) (d : List Byte) : Except DecodeError Instr :=
  match Op.ofByte w.op with
  | none => .error (.illegalOpcode w.op)
  | some o =>
    match o with
    | .sysReset => noOperand w .sysReset
    | .sysStat => noOperand w .sysStat
    | .bwClr => noOperand w .bwClr
    | .bwWbit => valueOperand w (.bwWbit w.v)
    | .bwWbits => .ok (.bwWbits w.n w.v)
    | .bwFlush => noOperand w .bwFlush
    | .bwPos => noOperand w .bwPos
    | .bwRdbuf => noOperand w .bwRdbuf
    | .brLoad => valueOperand w (.brLoad d)
    | .brNext => noOperand w .brNext
    | .brRbits => countOnly w (.brRbits w.n)
    | .brPos => noOperand w .brPos
    | .ftClr => noOperand w .ftClr
    | .ftUpd => valueOperand w (.ftUpd d)
    | .ftEnd => noOperand w .ftEnd
    | .ftRd => valueOperand w (.ftRd w.v)
    | .tbBuild => noOperand w .tbBuild
    | .pgGen => noOperand w .pgGen
    | .pgInv => noOperand w .pgInv
    | .pgRd => valueOperand w (.pgRd w.v)
    | .hcSer => noOperand w .hcSer
    | .hcDes => valueOperand w (.hcDes d)
    | .dcEbeg => noOperand w .dcEbeg
    | .dcEupd => valueOperand w (.dcEupd d)
    | .dcEend => noOperand w .dcEend
    | .dcDec => valueOperand w (.dcDec d)

/-- The decoder of the command stream: the first command and the bytes after it. -/
def decode (bs : List Byte) : Except DecodeError (Instr × List Byte) :=
  match takeCommand bs with
  | none => .error .incomplete
  | some (w, d, rest) =>
    match decodeWord w d with
    | .ok i => .ok (i, rest)
    | .error e => .error e

/-- The decoder of header tokens (30_encoding.md R94 to R96): NODE or LEAF and the bits after it. -/
def decodeToken : List Bool → Except DecodeError (Instr × List Bool)
  | [] => .error .headerTruncated
  | false :: bits => .ok (.node, bits)
  | true :: bits =>
    if bits.length < 32 then .error .headerTruncated
    else
      let s := unbe32 (packBits (bits.take 32))
      if isScalar s then .ok (.leaf s, bits.drop 32) else .error (.invalidScalar s)

/-- Shift bits, first bit most significant, into a code register (45_data_codec.md R241). -/
def shiftBits (c : Word) (bits : List Bool) : Word := bits.foldl shiftInWord c

/-- A codeword of known length, the table's, from the bits (30_encoding.md R99, R100). -/
def decodeCodeword (length : Byte) (bits : List Bool) : Except DecodeError (Instr × List Bool) :=
  if length.toNat = 0 ∨ 32 < length.toNat ∨ bits.length < length.toNat then .error .badCodeword
  else .ok (.codeword (shiftBits 0 (bits.take length.toNat)) length, bits.drop length.toNat)

/-- A control byte (30_encoding.md R103): 0 is read as 8. -/
def decodeCtrl (k : Byte) : Except DecodeError Instr :=
  if k = 0 then .ok (.ctrl 8) else if 8 < k.toNat then .error (.badControl k) else .ok (.ctrl k)

/-- A container (30_encoding.md R109). -/
def decodeContainer (c : List Byte) : Except DecodeError Instr :=
  match unpack c with
  | .ok (h, p) => .ok (.container h p)
  | .error _ => .error .containerTruncated

/-- A response on the response stream (30_encoding.md R88, R89) and the bytes after it. -/
def decodeResponse : List Byte → Except DecodeError (Instr × List Byte)
  | st :: a :: b :: c :: d :: e :: f :: g :: h :: rest =>
    let len := (word32 e f g h).toNat
    if rest.length < len then .error .incomplete
    else if responseWf st (rest.take len) then .ok (.response st (word32 a b c d) (rest.take len), rest.drop len)
    else .error (.badStatus st)
  | _ => .error .incomplete

/-- A command with `n` and `v` (30_encoding.md R82). -/
def encodeOp (o : Op) (n : Byte) (v : Word) : List Byte := CmdWord.bytes ⟨o.code, n, v⟩

/-- A data-carrying command: `v = len(D)`, then the bytes of D (30_encoding.md R83). -/
def encodeData (o : Op) (d : List Byte) : List Byte := encodeOp o 0 (BitVec.ofNat 32 d.length) ++ d

/-- The bytes of a response (30_encoding.md R88). -/
def responseBytes (status : Byte) (value : Word) (data : List Byte) : List Byte :=
  status :: (be32 value ++ (be32 (BitVec.ofNat 32 data.length) ++ data))

/-- The bits of an item of a bit stream: a header token (R94, R95) or a codeword (R99); no bits for any other row. -/
def itemBits : Instr → List Bool
  | .node => [false]
  | .leaf s => true :: msbBits s 32
  | .codeword c l => msbBits c l.toNat
  | .sysReset | .sysStat | .bwClr | .bwWbit _ | .bwWbits _ _ | .bwFlush | .bwPos | .bwRdbuf | .brLoad _ | .brNext
  | .brRbits _ | .brPos | .ftClr | .ftUpd _ | .ftEnd | .ftRd _ | .tbBuild | .pgGen | .pgInv | .pgRd _ | .hcSer
  | .hcDes _ | .dcEbeg | .dcEupd _ | .dcEend | .dcDec _ | .ctrl _ | .container _ _ | .response _ _ _ | .ftCount _
  | .cxEncode _ | .cxDecode _ => []

/-- The bytes of an instruction. A lone bit-stream item is padded to whole bytes (20_memory.md R67); a
pseudo-instruction has no encoding of its own (30_encoding.md R92). -/
def encode : Instr → List Byte
  | .sysReset => encodeOp .sysReset 0 0
  | .sysStat => encodeOp .sysStat 0 0
  | .bwClr => encodeOp .bwClr 0 0
  | .bwWbit v => encodeOp .bwWbit 0 v
  | .bwWbits n v => encodeOp .bwWbits n v
  | .bwFlush => encodeOp .bwFlush 0 0
  | .bwPos => encodeOp .bwPos 0 0
  | .bwRdbuf => encodeOp .bwRdbuf 0 0
  | .brLoad d => encodeData .brLoad d
  | .brNext => encodeOp .brNext 0 0
  | .brRbits n => encodeOp .brRbits n 0
  | .brPos => encodeOp .brPos 0 0
  | .ftClr => encodeOp .ftClr 0 0
  | .ftUpd d => encodeData .ftUpd d
  | .ftEnd => encodeOp .ftEnd 0 0
  | .ftRd v => encodeOp .ftRd 0 v
  | .tbBuild => encodeOp .tbBuild 0 0
  | .pgGen => encodeOp .pgGen 0 0
  | .pgInv => encodeOp .pgInv 0 0
  | .pgRd v => encodeOp .pgRd 0 v
  | .hcSer => encodeOp .hcSer 0 0
  | .hcDes d => encodeData .hcDes d
  | .dcEbeg => encodeOp .dcEbeg 0 0
  | .dcEupd d => encodeData .dcEupd d
  | .dcEend => encodeOp .dcEend 0 0
  | .dcDec d => encodeData .dcDec d
  | .node => packBits (itemBits .node)
  | .leaf s => packBits (itemBits (.leaf s))
  | .codeword c l => packBits (itemBits (.codeword c l))
  | .ctrl k => [k]
  | .container h p => pack h p
  | .response st v d => responseBytes st v d
  | .ftCount _ => []
  | .cxEncode _ => []
  | .cxDecode _ => []

/-- The command word whose 48 bits, numbered as the opcode table numbers them, are `w` (30_encoding.md R80). -/
def cmdWordOfNat (w : Nat) : CmdWord :=
  ⟨BitVec.ofNat 8 (w / 2 ^ 40), BitVec.ofNat 8 (w / 2 ^ 32), BitVec.ofNat 32 w⟩

/-- The instruction the decoders read from a row's bits (log 15): a 48-bit command word with attached zeros, a LEAF token in 33 bits
(or 40, whole bytes), a NODE token or a control byte in 8 bits or fewer (the zero byte is the NODE token). -/
def decodeTableWord (nbits w : Nat) : Option Instr :=
  if nbits = 48 then
    let cw := cmdWordOfNat w
    match decodeWord cw (List.replicate cw.dataLength 0) with
    | .ok i => some i
    | .error _ => none
  else if nbits = 33 ∨ nbits = 40 then
    match decodeToken (msbBits (BitVec.ofNat 33 w) 33) with
    | .ok (i, _) => some i
    | .error _ => none
  else if nbits = 1 ∨ nbits = 8 then
    if w = 0 then some .node
    else
      match decodeCtrl (BitVec.ofNat 8 w) with
      | .ok i => some i
      | .error _ => none
  else none

end Sys2Proof
end

