-- ==== Sys2Proof/Machine/BitStream.lean ====
section
/-! DEFINITION. The internal functions of the BitWriter and the BitReader (40_bitstream.md R120 to R135). Every other unit produces or consumes bits through these only. -/

namespace Sys2Proof.Machine

open Sys2Proof Sys2Proof.Config

/-- A clear writer (40_bitstream.md R121). -/
def BW.clear : BW := ⟨0, 0, []⟩

/-- `append(WBUF, byte)` (40_bitstream.md R124). -/
def BW.append (p : Params) (w : BW) (b : Byte) : Except Cause BW :=
  if p.maxBuf ≤ w.buf.length then .error .sizeOverflow else .ok { w with buf := w.buf ++ [b] }

/-- `WriteBit(b)` (40_bitstream.md R122). It keeps `bw_acc < 2^bw_cnt`, `bw_cnt <= 7` (R128 (d)). -/
def BW.writeBit (p : Params) (w : BW) (b : Bool) : Except Cause BW :=
  if h : w.cnt.val < 7 then .ok { w with acc := shiftIn w.acc b, cnt := ⟨w.cnt.val + 1, by omega⟩ }
  else BW.append p { w with acc := 0, cnt := 0 } (shiftIn w.acc b)

/-- Write bits, first one first. After `m` bits written to a clear writer `len(WBUF) = m div 8` and `bw_cnt = m mod 8`
(40_bitstream.md R128 (a)). -/
def BW.writeAll (p : Params) : BW → List Bool → Except Cause BW
  | w, [] => .ok w
  | w, b :: bs =>
    match w.writeBit p b with
    | .ok w' => BW.writeAll p w' bs
    | .error c => .error c

/-- `WriteBits(value, n)` (40_bitstream.md R123): `value[n-1]` down to `value[0]`. A group may be split
anywhere (R128 (c)). -/
def BW.writeBits (p : Params) (w : BW) (v : Word) (n : Nat) : Except Cause BW := w.writeAll p (msbBits v n)

/-- `Flush()` (40_bitstream.md R125); a second Flush changes nothing (R128 (b)). -/
def BW.flush (p : Params) (w : BW) : Except Cause BW :=
  if w.cnt.val = 0 then .ok w else BW.append p { w with acc := 0, cnt := 0 } (padByte w.acc w.cnt.val)

/-- The logical content of a writer: `bits(WBUF) ++ pending` (40_bitstream.md R120). -/
def BW.content (w : BW) : List Bool := bitsOfBytes w.buf ++ msbBits w.acc w.cnt.val

/-- `Load(D)` (40_bitstream.md R130). -/
def BR.load (d : List Byte) : BR := ⟨d, BitVec.ofNat 32 d.length, 0, 0⟩

/-- `Remaining()` (40_bitstream.md R129). -/
def BR.remaining (r : BR) : Nat := 8 * (r.len.toNat - r.byte.toNat) - r.bit.val

/-- The cursor one bit on (40_bitstream.md R131). -/
def BR.advance (r : BR) : BR :=
  if h : r.bit.val < 7 then { r with bit := ⟨r.bit.val + 1, by omega⟩ } else { r with bit := 0, byte := r.byte + 1 }

/-- `NextBit()`: the bit under the cursor and the advanced reader, `none` for EOS, the cursor not moved
(40_bitstream.md R131). A cursor below `br_len` but outside RBUF, which no run reaches, is EOS too (log 10). -/
def BR.nextBit (r : BR) : Option (Bool × BR) :=
  if r.len.toNat ≤ r.byte.toNat then none
  else
    match r.buf[r.byte.toNat]? with
    | none => none
    | some b => some (b.getLsbD (7 - r.bit.val), r.advance)

/-- `n` calls of NextBit. -/
def BR.nextBits : Nat → BR → Option (List Bool × BR)
  | 0, r => some ([], r)
  | n + 1, r =>
    match r.nextBit with
    | none => none
    | some (b, r') =>
      match BR.nextBits n r' with
      | none => none
      | some (bs, r'') => some (b :: bs, r'')

/-- `ReadBits(n)` (40_bitstream.md R133): checked first, then `n` bits packed MSB-first, the last byte zero-filled. -/
def BR.readBits (r : BR) (n : Nat) : Except Cause (List Byte × BR) :=
  if r.remaining < n then .error .readPastEnd
  else
    match BR.nextBits n r with
    | none => .error .readPastEnd
    | some (bs, r') => .ok (packBits bs, r')

/-- The bits not yet read: stream bits `8*br_byte + br_bit` on (40_bitstream.md R129, R135). -/
def BR.unread (r : BR) : List Bool := (bitsOfBytes r.buf).drop (8 * r.byte.toNat + r.bit.val)

/-- `nodes in use < MAX_NODES`: there is room for one more node (42_tree_builder.md R175). -/
def roomForNode (p : Params) (used : Nat) : Bool :=
  match p.maxNodes with
  | none => true
  | some m => decide (used < m)

end Sys2Proof.Machine
end

