-- ==== Sys2Proof/Machine/State.lean ====
section
/-! DEFINITION. The state of HUFFCORE (10_state.md R20), the reasons a step could stop, and the state after reset (R39). -/

namespace Sys2Proof.Machine

open Sys2Proof

/-- The whole state, grouped by unit as in 10_state.md R20, and below it the interface the model holds beside it
(DESIGN CHOICE, log 3). -/
structure State where
  /-- BitWriter. -/
  bw : BW
  /-- BitReader. -/
  br : BR
  /-- FrequencyTable. -/
  ft : FT
  /-- Tree Builder. -/
  tb : TB
  /-- PrefixTable Generator. -/
  pg : PG
  /-- DataCodec. -/
  dc : DC
  /-- The fault register. -/
  flt : FLT
  /-- Bytes on the command stream, not yet taken (20_memory.md R62). -/
  cmdIn : List Byte
  /-- Responses on the response stream, oldest first (20_memory.md R62, 30_encoding.md R88). -/
  resps : List Response
  /-- The hardware reset input is asserted (70_reset_and_hazards.md R320). -/
  resetIn : Bool
  /-- What the host-level macros have reported, oldest first (log 2). -/
  hostOut : List HostResult
  /-- The model's own: the number of the next fault, which selects its free values (log 4). -/
  freeCtr : Nat
  deriving DecidableEq, Repr

/-- The machine never stops with a fault: "There is no stuck state inside the block and no hang" (00_scope.md R15).
A fault of the block (60_exceptions.md R287) is a next state with `FLT` written. No constructor, so nothing raises
one: safe. -/
inductive Fault where
  deriving DecidableEq, Repr

/-- Why exec has no meaning for an instruction. -/
inductive Refusal where
  /-- The instruction has no meaning yet; raised by exec's arms only. Safe. No arm raises it today. -/
  | notModelled (mnemonic : String)
  deriving DecidableEq, Repr

/-- The state after reset (10_state.md R39, 70_reset_and_hazards.md R320): registers 0, buffers and tables empty,
tree none, flags 0, FLT = (0, 0). The interface fields and the model's counter: DESIGN CHOICE (log 3, log 4). -/
def State.reset : State where
  bw := { acc := 0, cnt := 0, buf := [] }
  br := { buf := [], len := 0, byte := 0, bit := 0 }
  ft := { table := [], inc := [], done := false }
  tb := { tree := none, treeV := false, mq := [], mqSeq := 0 }
  pg := { pt := [], ptV := false, ipt := [], iptV := false }
  dc := { inc := [], encAct := false, daccCode := 0, daccLen := 0 }
  flt := { kind := 0, cause := 0 }
  cmdIn := []
  resps := []
  resetIn := false
  hostOut := []
  freeCtr := 0

end Sys2Proof.Machine
end

