-- ==== Sys2Proof/Machine/Flags.lean ====
section
/-! DEFINITION. The fault register's codes (60_exceptions.md R287), the STATUS register (10_state.md R26) and the sequencing preconditions (60_exceptions.md R288). -/

namespace Sys2Proof.Machine

open Sys2Proof

/-- The kind of a cause (60_exceptions.md R283 to R287): FormatError 1, EncodingError 2, IOError 3, UsageError 4. -/
def Cause.kind : Cause → BitVec 4
  | .headerTruncated | .invalidScalar | .payloadTooShort | .exhaustedMidSymbol | .duplicateCode | .containerTruncated
  | .badControl | .noMatch | .duplicateSymbol | .readPastEnd => 1#4
  | .incompleteTail | .invalidUtf8 => 2#4
  | .hostIo => 3#4
  | .illegalOpcode | .reservedField | .badBit | .badCount | .sequenceError | .emptyAlphabet | .codeTooLong
  | .symbolNotInTable | .weightOverflow | .sizeOverflow | .capacityExceeded => 4#4

/-- The cause code (60_exceptions.md R287). -/
def Cause.code : Cause → BitVec 8
  | .headerTruncated => 0x10#8
  | .invalidScalar => 0x11#8
  | .payloadTooShort => 0x12#8
  | .exhaustedMidSymbol => 0x13#8
  | .duplicateCode => 0x14#8
  | .containerTruncated => 0x15#8
  | .badControl => 0x16#8
  | .noMatch => 0x17#8
  | .duplicateSymbol => 0x18#8
  | .readPastEnd => 0x19#8
  | .incompleteTail => 0x20#8
  | .invalidUtf8 => 0x21#8
  | .hostIo => 0x30#8
  | .illegalOpcode => 0x40#8
  | .reservedField => 0x41#8
  | .badBit => 0x42#8
  | .badCount => 0x43#8
  | .sequenceError => 0x44#8
  | .emptyAlphabet => 0x45#8
  | .codeTooLong => 0x46#8
  | .symbolNotInTable => 0x47#8
  | .weightOverflow => 0x48#8
  | .sizeOverflow => 0x49#8
  | .capacityExceeded => 0x4A#8

/-- What a fault of this cause leaves in `FLT` (60_exceptions.md R296). -/
def Cause.flt (c : Cause) : FLT := ⟨c.kind, c.code⟩

/-- `(FLT.kind << 8) | FLT.cause`, zero-extended to 32 bits (30_encoding.md R89). -/
def FLT.value (f : FLT) : Word := 0#20 ++ f.kind ++ f.cause

/-- `FAULTED`: a fault is recorded, `FLT.kind != 0` (10_state.md R26). -/
def State.faulted (s : State) : Bool := decide (s.flt.kind ≠ 0)

/-- STATUS (10_state.md R26): `KIND` 19:16, `CAUSE` 15:8, `FAULTED` 5, then the five sequencing flags; bits 31:20
and 7:6 read as 0. -/
def statusWord (s : State) : Word :=
  0#12 ++ s.flt.kind ++ s.flt.cause ++ 0#2 ++ BitVec.ofBool s.faulted ++ BitVec.ofBool s.dc.encAct ++
    BitVec.ofBool s.pg.iptV ++ BitVec.ofBool s.pg.ptV ++ BitVec.ofBool s.tb.treeV ++ BitVec.ofBool s.ft.done

/-- No encode pass is open: what BW.CLR, BW.WBIT, BW.WBITS, BW.FLUSH and HC.DES require (60_exceptions.md R288). -/
def State.writerFree (s : State) : Bool := !s.dc.encAct

/-- The frequency pass is open: FT.UPD, FT.END (R288). -/
def State.countOpen (s : State) : Bool := !s.ft.done

/-- TB.BUILD (R288). -/
def State.mayBuild (s : State) : Bool := s.ft.done && !s.dc.encAct

/-- PG.GEN and HC.SER (R288). -/
def State.mayWalk (s : State) : Bool := s.tb.treeV && !s.dc.encAct

/-- PG.INV and PG.RD (R288). -/
def State.tableReady (s : State) : Bool := s.pg.ptV

/-- DC.EBEG (R288). -/
def State.mayBeginEncode (s : State) : Bool := s.pg.ptV && !s.dc.encAct

/-- DC.EUPD and DC.EEND (R288). -/
def State.encoding (s : State) : Bool := s.dc.encAct

/-- DC.DEC (R288). -/
def State.inverseReady (s : State) : Bool := s.pg.iptV

end Sys2Proof.Machine
end

