-- ==== Sys2Proof/Machine/Ops.lean ====
section
/-! DEFINITION. What every command shares: responding, taking a fault, refusing, the check order, reset. -/

namespace Sys2Proof.Machine

open Sys2Proof Sys2Proof.Config

/-- The outcome type of exec and step. -/
abbrev Result := Host.Outcome State Fault Refusal

/-- `respond(status, value, data)` (00_scope.md R9, 30_encoding.md R88). -/
def respond (status : Byte) (value : Word) (data : List Byte) (s : State) : State :=
  { s with resps := s.resps ++ [⟨status, value, data⟩] }

/-- A response with status OK (30_encoding.md R89, R90). -/
def answer (value : Word) (data : List Byte) (s : State) : State := respond 0x00#8 value data s

/-- Fault entry, `raise c` (60_exceptions.md R296): FLT takes kind and cause, every other element of state is
unspecified (free values, log 4), the response is FAULT with `(kind << 8) | cause` and no data. -/
def raise (c : Cause) (s : State) : State :=
  respond 0xFF#8 c.flt.value []
    { s with
      bw := freeBW s.freeCtr
      br := freeBR s.freeCtr
      ft := freeFT s.freeCtr
      tb := freeTB s.freeCtr
      pg := freePG s.freeCtr
      dc := freeDC s.freeCtr
      flt := c.flt
      freeCtr := s.freeCtr + 1 }

/-- Refusal (60_exceptions.md R298): the recorded fault is answered, no state changes. -/
def refuse (s : State) : State := respond 0xFF#8 s.flt.value [] s

/-- Every element of state takes its reset value (10_state.md R39); the interface streams and the model's counter
are no state of the block and stay (log 3, log 4). The only way out of the faulted condition (60_exceptions.md R299). -/
def resetBlock (s : State) : State :=
  { State.reset with
    cmdIn := s.cmdIn
    resps := s.resps
    resetIn := s.resetIn
    hostOut := s.hostOut
    freeCtr := s.freeCtr }

/-- The hardware reset input is asserted (70_reset_and_hazards.md R320, 46_system_and_macros.md R272): at once every
element of state has its reset value, the command in progress is abandoned without a response and the bytes of a partly
received one are discarded. The input stays asserted until it is released. DESIGN CHOICE (log 6): what arrives while the
input is asserted is open in the spec and waits on cmdIn, so asserting an input that is asserted takes nothing from it. -/
def hardReset (s : State) : State :=
  { resetBlock s with
    cmdIn := if s.resetIn then s.cmdIn else streamAfterReset s.cmdIn
    resetIn := true }

/-- While the reset input is asserted every element of state has its reset value and nothing runs
(70_reset_and_hazards.md R320). `step` starts no command then; the rows that no step reaches (log 1, log 2) look at the
input here, and that they wait, with nothing answered and nothing reported, is a DESIGN CHOICE (log 6). -/
def unlessReset (r : Result) (s : State) : Result := if s.resetIn then .next (resetBlock s) else r

/-- Settle a command's own part: its next state, or the fault it raises. -/
def settle (s : State) : Except Cause State → State
  | .ok t => t
  | .error c => raise c s

/-- The checks every command but the two system commands shares, in the order of 60_exceptions.md R291: recorded
fault, then sequencing, then the command's own part (operand range, data). -/
def command (pre : Bool) (own : Except Cause State) (s : State) : State :=
  if s.faulted then refuse s
  else if pre then settle s own
  else raise .sequenceError s

/-- Emission of a data item inside a composite command (log 1): none while a fault is recorded (60_exceptions.md
R298), otherwise the item's own part or its fault. -/
def emit (own : Except Cause State) (s : State) : State :=
  if s.faulted then s else settle s own

/-- What the block does with a command word it has taken (60_exceptions.md R291, checks 1 to 3). -/
inductive Admission where
  | run (i : Instr)
  | refuse
  | fault (c : Cause)
  deriving DecidableEq, Repr

/-- Checks 1 to 3 of 60_exceptions.md R291. With a fault recorded, SYS.RESET and SYS.STAT run whatever their fields
and every other word is refused; otherwise the opcode, then the reserved fields are checked. -/
def admission (s : State) (w : CmdWord) (d : List Byte) : Admission :=
  if s.faulted then
    match Op.ofByte w.op with
    | some .sysReset => .run .sysReset
    | some .sysStat => .run .sysStat
    | _ => .refuse
  else
    match decodeWord w d with
    | .ok i => .run i
    | .error (.illegalOpcode _) => .fault .illegalOpcode
    | .error _ => .fault .reservedField

/-- The response most recently produced. -/
def lastResponse (s : State) : Response := s.resps.getLast?.getD default

/-- A macro reports to its caller (log 2). -/
def report (r : HostResult) (s : State) : State := { s with hostOut := s.hostOut ++ [r] }

end Sys2Proof.Machine
end

