-- ==== Sys2Proof/Machine/BitReader.lean ====
section
/-! DEFINITION. The BitReader commands (40_bitstream.md R130 to R134). -/

namespace Sys2Proof.Machine

open Sys2Proof Sys2Proof.Config

/-- BR.LOAD (R130). -/
def execBrLoad (d : List Byte) (s : State) : Result :=
  .next (command true (.ok (answer 0 [] { s with br := BR.load d })) s)

/-- BR.NEXT's own part (R131): the next bit, or the status EOS, which is not a fault (60_exceptions.md R281). -/
def brNext (s : State) : State :=
  match s.br.nextBit with
  | none => respond 0x01#8 0 [] s
  | some (b, r) => answer ((BitVec.ofBool b).setWidth 32) [] { s with br := r }

/-- BR.NEXT (R131). -/
def execBrNext (s : State) : Result := .next (command true (.ok (brNext s)) s)

/-- BR.RBITS's own part (R133). -/
def brRbits (n : Nat) (s : State) : Except Cause State :=
  match s.br.readBits n with
  | .ok (bytes, r) => .ok (answer 0 bytes { s with br := r })
  | .error c => .error c

/-- BR.RBITS (R133). -/
def execBrRbits (n : Byte) (s : State) : Result := .next (command true (brRbits n.toNat s) s)

/-- BR.POS (R134): the cursor. -/
def execBrPos (s : State) : Result :=
  .next (command true (.ok (answer s.br.byte [BitVec.ofNat 8 s.br.bit.val] s)) s)

end Sys2Proof.Machine
end

