-- ==== Sys2Proof/Machine/Operands.lean ====
section
/-! DEFINITION. The operand checks a command makes when it runs: 60_exceptions.md R291 check 5, and the value checks of the data formats. -/

namespace Sys2Proof.Machine

open Sys2Proof

/-- The operand of BW.WBIT: 0 or 1, else BadBit (40_bitstream.md R122). -/
def bitOperand (v : Word) : Except Cause Bool :=
  if 1 < v.toNat then .error .badBit else .ok (v.getLsbD 0)

/-- The count of BW.WBITS: 0..32, else BadCount (40_bitstream.md R123). -/
def countOperand (n : Byte) : Except Cause Nat :=
  if 32 < n.toNat then .error .badCount else .ok n.toNat

/-- The symbol field of a LEAF token: a scalar, else InvalidScalar (44_tree_header.md R220). -/
def scalarOperand (x : Sym) : Except Cause Sym :=
  if isScalar x then .ok x else .error .invalidScalar

/-- A control byte as a count of meaningful bits: 0 is 8, above 8 is BadControl (30_encoding.md R103). -/
def ctrlOperand (k : Byte) : Except Cause Nat :=
  if k = 0 then .ok 8 else if 8 < k.toNat then .error .badControl else .ok k.toNat

/-- The control value for `c` pending bits: 0 is remapped to 8 (45_data_codec.md R237, R238). -/
def controlValue (c : Nat) : Nat := if c = 0 then 8 else c

/-- The number of meaningful bits of a payload of `len` bytes with control value `k` (45_data_codec.md R243). -/
def meaningfulBits (len k : Nat) : Nat := if len ≤ 1 then 0 else 8 * (len - 2) + k

end Sys2Proof.Machine
end

