-- ==== Sys2Proof/Machine/BitWriter.lean ====
section
/-! DEFINITION. The BitWriter commands (40_bitstream.md R121 to R127). -/

namespace Sys2Proof.Machine

open Sys2Proof Sys2Proof.Config

/-- A command whose effect is a new writer; it answers OK 0 when the writer has not overflowed. -/
def withWriter (s : State) : Except Cause BW → Except Cause State
  | .ok w => .ok (answer 0 [] { s with bw := w })
  | .error c => .error c

/-- BW.CLR (R121). -/
def execBwClr (s : State) : Result := .next (command s.writerFree (withWriter s (.ok BW.clear)) s)

/-- BW.WBIT (R122). -/
def execBwWbit (v : Word) (s : State) : Result :=
  .next (command s.writerFree (withWriter s ((bitOperand v).bind (s.bw.writeBit params))) s)

/-- BW.WBITS (R123). -/
def execBwWbits (n : Byte) (v : Word) (s : State) : Result :=
  .next (command s.writerFree (withWriter s ((countOperand n).bind (s.bw.writeBits params v))) s)

/-- BW.FLUSH (R125). -/
def execBwFlush (s : State) : Result := .next (command s.writerFree (withWriter s (s.bw.flush params)) s)

/-- BW.POS (R126): the number of pending bits. -/
def execBwPos (s : State) : Result :=
  .next (command true (.ok (answer (BitVec.ofNat 32 s.bw.cnt.val) [] s)) s)

/-- BW.RDBUF (R127): the completed bytes. -/
def execBwRdbuf (s : State) : Result :=
  .next (command true (.ok (answer (BitVec.ofNat 32 s.bw.buf.length) s.bw.buf s)) s)

end Sys2Proof.Machine
end

