-- ==== Sys2Proof/Machine/Tables.lean ====
section
/-! DEFINITION. Finite maps as lists in rising order of a key's rank (10_state.md R28, R32, R33), and the merge queue as a list in rising order of key (42_tree_builder.md R171, R172). -/

namespace Sys2Proof.Machine

open Sys2Proof

/-- `x[k]`, `none` when absent (00_scope.md R9). -/
def mapGet {κ ν : Type} [DecidableEq κ] (k : κ) : List (κ × ν) → Option ν
  | [] => none
  | (k', v) :: m => if k = k' then some v else mapGet k m

/-- `x[k] <- v` (00_scope.md R9), keeping the list in rising order of rank. -/
def mapPut {κ ν : Type} [DecidableEq κ] (rank : κ → Nat) (k : κ) (v : ν) : List (κ × ν) → List (κ × ν)
  | [] => [(k, v)]
  | (k', v') :: m =>
    if k = k' then (k, v) :: m
    else if rank k < rank k' then (k, v) :: (k', v') :: m
    else (k', v') :: mapPut rank k v m

/-- The rank of a symbol: ascending scalar order. -/
def symRank (s : Sym) : Nat := s.toNat

/-- The rank of a (code, length) pair: by length, then by code. The pair is the key (10_state.md R33). -/
def codeRank (c : Code) : Nat := c.length * 4294967296 + c.code.toNat

/-- Ranks strictly rising: the canonical form of a map. -/
def mapSorted {κ ν : Type} (rank : κ → Nat) : List (κ × ν) → Bool
  | [] => true
  | [_] => true
  | (k, _) :: (k', v') :: m => decide (rank k < rank k') && mapSorted rank ((k', v') :: m)

/-- A node's weight (R10). -/
def nodeWeight : Node → Nat
  | .leaf _ w => w
  | .internal w _ _ => w

/-- The key order of 42_tree_builder.md R172: weight, then kind, then tie, each ascending. -/
def Key.lt (a b : Key) : Bool :=
  decide (a.weight < b.weight) ||
    (decide (a.weight = b.weight) &&
      (decide (a.kind < b.kind) || (decide (a.kind = b.kind) && decide (a.tie < b.tie))))

/-- The key of a Leaf: (weight, 0, symbol) (R172). -/
def leafKey (s : Sym) (w : Nat) : Key := ⟨w, 0, s.toNat⟩

/-- The key of an Internal node: (weight, 1, creation number) (R172). -/
def internalKey (w seq : Nat) : Key := ⟨w, 1, seq⟩

/-- `Insert(node, key)` (R171). -/
def mqInsert (e : Entry) : List Entry → List Entry
  | [] => [e]
  | x :: q => if e.key.lt x.key then e :: x :: q else x :: mqInsert e q

/-- `ExtractMin()` (R171): the queue is in key order, so the least entry is the first. -/
def mqExtract : List Entry → Option (Entry × List Entry)
  | [] => none
  | e :: q => some (e, q)

end Sys2Proof.Machine
end

