-- ==== Sys2Proof/Machine/DataCodec.lean ====
section
/-! DEFINITION. The DataCodec (45_data_codec.md R230 to R246). -/

namespace Sys2Proof.Machine

open Sys2Proof Sys2Proof.Config

/-- DC.EBEG's own part (R232). -/
def dcEbeg (s : State) : State :=
  answer 0 [] { s with bw := BW.clear, dc := { s.dc with inc := [], encAct := true } }

/-- DC.EBEG (R232). -/
def execDcEbeg (s : State) : Result := .next (command s.mayBeginEncode (.ok (dcEbeg s)) s)

/-- Write a codeword: its `length` low bits, most significant first (30_encoding.md R99). -/
def writeCode (p : Params) (w : BW) (c : Code) : Except Cause BW := w.writeBits p c.code c.length

/-- `EncodeSym(s)` (R233). -/
def encodeSym (p : Params) (pt : List (Sym × Code)) (w : BW) (s : Sym) : Except Cause BW :=
  match mapGet s pt with
  | none => .error .symbolNotInTable
  | some c => writeCode p w c

/-- DC.EUPD's own part (R234). -/
def dcEupd (p : Params) (d : List Byte) (s : State) : Except Cause State :=
  match feed (encodeSym p s.pg.pt) (s.dc.inc ++ d).length (s.dc.inc ++ d) s.bw with
  | .ok (w, rest) =>
    .ok (answer (BitVec.ofNat 32 rest.length) [] { s with bw := w, dc := { s.dc with inc := rest } })
  | .error c => .error c

/-- DC.EUPD (R234). -/
def execDcEupd (d : List Byte) (s : State) : Result := .next (command s.encoding (dcEupd params d s) s)

/-- Append the control byte as a whole byte (R237, R238). -/
def writeCtrl (p : Params) (w : BW) (k : Nat) : Except Cause BW := w.append p (BitVec.ofNat 8 k)

/-- Close a payload: flush, then the control byte for the bits that were pending (R237, R238). -/
def closePayload (p : Params) (w : BW) : Except Cause BW :=
  (w.flush p).bind fun w' => writeCtrl p w' (controlValue w.cnt.val)

/-- DC.EEND's own part (R237). -/
def dcEend (p : Params) (s : State) : Except Cause State :=
  if s.dc.inc = [] then
    match closePayload p s.bw with
    | .ok w =>
      .ok (answer (BitVec.ofNat 32 w.buf.length) w.buf { s with bw := w, dc := { s.dc with encAct := false } })
    | .error c => .error c
  else .error .incompleteTail

/-- DC.EEND (R237). -/
def execDcEend (s : State) : Result := .next (command s.encoding (dcEend params s) s)

/-- The matching loop (R241, R244, R245) over `n` bits: the reader, the accumulator and the output so far. An EOS,
which no run meets, is the exhausted stream of R246 (log 10). -/
def decodeBits (p : Params) (ipt : List (Code × Sym)) :
    Nat → BR → Code → List Byte → Except Cause (BR × Code × List Byte)
  | 0, r, acc, out => .ok (r, acc, out)
  | n + 1, r, acc, out =>
    match r.nextBit with
    | none => .error .exhaustedMidSymbol
    | some (b, r') =>
      let acc' : Code := ⟨shiftInWord acc.code b, acc.length + 1⟩
      match mapGet acc' ipt with
      | some s =>
        if p.maxBuf < out.length + (utf8Enc s).length then .error .sizeOverflow
        else decodeBits p ipt n r' ⟨0, 0⟩ (out ++ utf8Enc s)
      | none => if 32 ≤ acc'.length then .error .noMatch else decodeBits p ipt n r' acc' out

/-- Decode a payload with an inverse table (R241): the text and the reader afterwards. -/
def decodePayload (p : Params) (ipt : List (Code × Sym)) (d : List Byte) : Except Cause (List Byte × BR) :=
  match d.getLast? with
  | none => .error .payloadTooShort
  | some kb =>
    match ctrlOperand kb with
    | .error c => .error c
    | .ok k =>
      match decodeBits p ipt (meaningfulBits d.length k) (BR.load d.dropLast) ⟨0, 0⟩ [] with
      | .error c => .error c
      | .ok (r, acc, out) => if acc.length = 0 then .ok (out, r) else .error .exhaustedMidSymbol

/-- DC.DEC's own part (R241); the accumulator is empty at the end of a successful decode (R246). -/
def dcDec (p : Params) (d : List Byte) (s : State) : Except Cause State :=
  match decodePayload p s.pg.ipt d with
  | .ok (out, r) => .ok (answer 0 out { s with br := r, dc := { s.dc with daccCode := 0, daccLen := 0 } })
  | .error c => .error c

/-- DC.DEC (R241). -/
def execDcDec (d : List Byte) (s : State) : Result := .next (command s.inverseReady (dcDec params d s) s)

end Sys2Proof.Machine
end

