-- ==== Sys2Proof/Machine/TreeHeader.lean ====
section
/-! DEFINITION. The TreeHeaderCodec (44_tree_header.md R210 to R223). -/

namespace Sys2Proof.Machine

open Sys2Proof Sys2Proof.Config

/-- Write the token NODE (30_encoding.md R94, R213). -/
def writeNode (p : Params) (w : BW) : Except Cause BW := w.writeBit p false

/-- Write the token LEAF(s) (30_encoding.md R95, R213). -/
def writeLeaf (p : Params) (w : BW) (s : Sym) : Except Cause BW :=
  (w.writeBit p true).bind fun w' => w'.writeBits p s 32

/-- `Ser(node)` (R213): pre-order; weights are not written. -/
def ser (p : Params) : Node → BW → Except Cause BW
  | .leaf s _, w => writeLeaf p w s
  | .internal _ l r, w =>
    match writeNode p w with
    | .error c => .error c
    | .ok w1 =>
      match ser p l w1 with
      | .error c => .error c
      | .ok w2 => ser p r w2

/-- HC.SER's own part (R212): clear, serialise, flush once (R214), return the header. Without a tree: log 10. -/
def hcSer (p : Params) (s : State) : Except Cause State :=
  match s.tb.tree with
  | none => .error .sequenceError
  | some t =>
    match (ser p t BW.clear).bind (BW.flush p) with
    | .ok w => .ok (answer (BitVec.ofNat 32 w.buf.length) w.buf { s with bw := w })
    | .error c => .error c

/-- HC.SER (R212). -/
def execHcSer (s : State) : Result := .next (command s.mayWalk (hcSer params s) s)

/-- A LEAF token's symbol after its tag (R218, R219, R220): 32 bits, a scalar. -/
def desLeaf (r : BR) : Except Cause (Sym × BR) :=
  if r.remaining < 32 then .error .headerTruncated
  else
    match r.readBits 32 with
    | .error c => .error c
    | .ok (bytes, r') =>
      match scalarOperand (unbe32 bytes) with
      | .error c => .error c
      | .ok x => .ok (x, r')

/-- `Des()` (R218) with `nodes in use` threaded: the node, the new count, the advanced reader. Fuel bounds the depth;
each call takes at least one bit (R223). All weights are 0 (R221). -/
def des (p : Params) : Nat → Nat → BR → Except Cause (Node × Nat × BR)
  | 0, _, _ => .error .headerTruncated
  | fuel + 1, used, r =>
    match r.nextBit with
    | none => .error .headerTruncated
    | some (true, r1) =>
      match desLeaf r1 with
      | .error c => .error c
      | .ok (x, r2) => if roomForNode p used then .ok (.leaf x 0, used + 1, r2) else .error .capacityExceeded
    | some (false, r1) =>
      if roomForNode p used then
        match des p fuel (used + 1) r1 with
        | .error c => .error c
        | .ok (l, used2, r2) =>
          match des p fuel used2 r2 with
          | .error c => .error c
          | .ok (rt, used3, r3) => .ok (.internal 0 l rt, used3, r3)
      else .error .capacityExceeded

/-- Rebuild a tree from header bytes: the tree and where the cursor stops (R217). -/
def desHeader (p : Params) (d : List Byte) : Except Cause (Node × BR) :=
  match des p (8 * d.length + 1) 0 (BR.load d) with
  | .ok (t, _, r) => .ok (t, r)
  | .error c => .error c

/-- HC.DES's own part (R217); what follows the tree is not read (R222). -/
def hcDes (p : Params) (d : List Byte) (s : State) : Except Cause State :=
  match desHeader p d with
  | .ok (t, r) =>
    .ok (answer 0 []
      { s with
        br := r
        tb := { s.tb with tree := some t, treeV := true }
        pg := { s.pg with ptV := false, iptV := false } })
  | .error c => .error c

/-- HC.DES (R217). -/
def execHcDes (d : List Byte) (s : State) : Result := .next (command s.writerFree (hcDes params d s) s)

end Sys2Proof.Machine
end

