-- ==== Sys2Proof/Machine/Formats.lean ====
section
/-! DEFINITION. The data-format rows of the opcode table. DESIGN CHOICE (log 1): such a row's meaning is the effect with which the rules produce the item; the commands that produce and consume it call the same functions. -/

namespace Sys2Proof.Machine

open Sys2Proof Sys2Proof.Config

/-- An item's effect on the writer; a data item answers nothing. -/
def onWriter (s : State) : Except Cause BW → Except Cause State
  | .ok w => .ok { s with bw := w }
  | .error c => .error c

/-- An item emitted into the writer on its own; not while the reset input is asserted (log 1, log 6). DESIGN CHOICE (log 1):
the sequencing flags are not checked, `ENC_ACT` = 1 included. 45_data_codec.md R231 locks the writer against commands
only and leaves a lone item open; the model lets it write the open pass's writer, as the items inside DC.EUPD do. -/
def emitItem (own : Except Cause BW) (s : State) : Result := unlessReset (.next (emit (onWriter s own) s)) s

/-- Token NODE: `WriteBit(0)` (30_encoding.md R94, 44_tree_header.md R213). -/
def execNode (s : State) : Result := emitItem (writeNode params s.bw) s

/-- Token LEAF(s): `WriteBit(1); WriteBits(s, 32)`; a field that is no scalar is InvalidScalar (30_encoding.md R95,
R96). -/
def execLeaf (x : Sym) (s : State) : Result :=
  emitItem ((scalarOperand x).bind (writeLeaf params s.bw)) s

/-- A codeword: `WriteBits(code, length)` (30_encoding.md R99). DESIGN CHOICE (log 17): what the row
does with no legal codeword (30_encoding.md R99, 00_scope.md R10) is open in the spec: a length above 32 is the BadCount
of a write count; length 0 writes no bits, and of a code that does not fit its length the low `length` bits are written,
as WriteBits does, and neither is a fault. -/
def execCodeword (code : Word) (len : Byte) (s : State) : Result :=
  emitItem ((countOperand len).bind fun n => writeCode params s.bw ⟨code, n⟩) s

/-- The control byte, appended as a whole byte: 0 is written as 8, above 8 is BadControl (30_encoding.md R102, R103;
45_data_codec.md R238). DESIGN CHOICE (log 1): a lone control byte does not look at the pending bits, which DC.EEND has
flushed before it writes its own; they stay pending. -/
def execCtrl (k : Byte) (s : State) : Result :=
  emitItem ((ctrlOperand k).bind (writeCtrl params s.bw)) s

/-- The container, packed by the host (30_encoding.md R106, 46_system_and_macros.md R268). A segment longer than its
size field can say is reported as SizeOverflow (20_memory.md R61, log 17). The block is not involved. -/
def execContainer (h p : List Byte) (s : State) : Result :=
  .next (report
    (if params.maxBuf < h.length ∨ params.maxBuf < p.length then .failed Cause.sizeOverflow.flt
      else .container (pack h p)) s)

/-- A response put on the response stream (30_encoding.md R88). DESIGN CHOICE (log 17): a record no command produces (a
status outside R89, data or a value beside EOS or ABSENT, data beside FAULT) is put there unchanged and is no fault. No response is
produced while the reset input is asserted (log 6). -/
def execResponse (status : Byte) (value : Word) (data : List Byte) (s : State) : Result :=
  unlessReset (.next (respond status value data s)) s

end Sys2Proof.Machine
end

