-- ==== Sys2Proof/Machine/Frequency.lean ====
section
/-! DEFINITION. The FrequencyTable commands (41_frequency.md R154 to R159). -/

namespace Sys2Proof.Machine

open Sys2Proof Sys2Proof.Config

/-- `Count(s)` (R156). -/
def countSym (p : Params) (t : List (Sym × Nat)) (s : Sym) : Except Cause (List (Sym × Nat)) :=
  match mapGet s t with
  | none => if p.maxSyms ≤ t.length then .error .capacityExceeded else .ok (mapPut symRank s 1 t)
  | some c => if 2 ^ p.weightW ≤ c + 1 then .error .weightOverflow else .ok (mapPut symRank s (c + 1) t)

/-- FT.CLR (R154): empties the table and reopens the pass. -/
def execFtClr (s : State) : Result :=
  .next (command true (.ok (answer 0 [] { s with ft := { table := [], inc := [], done := false } })) s)

/-- FT.UPD's own part (R155): the kept bytes come before the chunk; the remainder is kept. -/
def ftUpd (p : Params) (d : List Byte) (s : State) : Except Cause State :=
  match feed (countSym p) (s.ft.inc ++ d).length (s.ft.inc ++ d) s.ft.table with
  | .ok (t, rest) =>
    .ok (answer (BitVec.ofNat 32 rest.length) [] { s with ft := { s.ft with table := t, inc := rest } })
  | .error c => .error c

/-- FT.UPD (R155). -/
def execFtUpd (d : List Byte) (s : State) : Result := .next (command s.countOpen (ftUpd params d s) s)

/-- FT.END's own part (R157). -/
def ftEnd (s : State) : Except Cause State :=
  if s.ft.inc = [] then .ok (answer 0 [] { s with ft := { s.ft with done := true } }) else .error .incompleteTail

/-- FT.END (R157). -/
def execFtEnd (s : State) : Result := .next (command s.countOpen (ftEnd s) s)

/-- FT.RD (R159): the count in `ceil(WEIGHT_W/8)` bytes, big-endian; 0 for an absent key. -/
def execFtRd (v : Word) (s : State) : Result :=
  .next (command true (.ok (answer 0 (beBytes (byteCount params.weightW) ((mapGet v s.ft.table).getD 0)) s)) s)

end Sys2Proof.Machine
end

