-- ==== Sys2Proof/Machine/PrefixGen.lean ====
section
/-! DEFINITION. The PrefixTable Generator (43_prefix_table.md R191 to R197). -/

namespace Sys2Proof.Machine

open Sys2Proof

/-- `Walk(node, code, length)` (R192): pre-order, left 0, right 1; the left subtree first. -/
def walk : Node → Word → Nat → List (Sym × Code) → Except Cause (List (Sym × Code))
  | .leaf s _, code, len, m =>
    match mapGet s m with
    | some _ => .error .duplicateSymbol
    | none => .ok (mapPut symRank s ⟨code, len⟩ m)
  | .internal _ l r, code, len, m =>
    if 32 ≤ len then .error .codeTooLong
    else
      match walk l (shiftInWord code false) (len + 1) m with
      | .ok m' => walk r (shiftInWord code true) (len + 1) m'
      | .error c => .error c

/-- The table of a tree (R191): a root that is a Leaf has length 1, not 0 (R193). -/
def genTable : Node → Except Cause (List (Sym × Code))
  | .leaf s _ => .ok [(s, ⟨0, 1⟩)]
  | .internal w l r => walk (.internal w l r) 0 0 []

/-- PG.GEN's own part (R191). Without a tree, which no run reaches with `TREE_V` = 1, it is the SequenceError of a
missing tree (log 10). -/
def pgGen (s : State) : Except Cause State :=
  match s.tb.tree with
  | none => .error .sequenceError
  | some t =>
    match genTable t with
    | .ok m =>
      .ok (answer (BitVec.ofNat 32 m.length) [] { s with pg := { s.pg with pt := m, ptV := true, iptV := false } })
    | .error c => .error c

/-- PG.GEN (R191). -/
def execPgGen (s : State) : Result := .next (command s.mayWalk (pgGen s) s)

/-- Inverting the table, entry by entry in ascending scalar order; a second symbol with the same pair is
DuplicateCode (R195). -/
def invertTable : List (Sym × Code) → List (Code × Sym) → Except Cause (List (Code × Sym))
  | [], inv => .ok inv
  | (s, c) :: t, inv =>
    match mapGet c inv with
    | some _ => .error .duplicateCode
    | none => invertTable t (mapPut codeRank c s inv)

/-- PG.INV's own part (R195). -/
def pgInv (s : State) : Except Cause State :=
  match invertTable s.pg.pt [] with
  | .ok inv => .ok (answer 0 [] { s with pg := { s.pg with ipt := inv, iptV := true } })
  | .error c => .error c

/-- PG.INV (R195). -/
def execPgInv (s : State) : Result := .next (command s.tableReady (pgInv s) s)

/-- PG.RD's own part (R197): the code and one byte of length, or the status ABSENT, which is not a fault. -/
def pgRd (v : Word) (s : State) : State :=
  match mapGet v s.pg.pt with
  | none => respond 0x02#8 0 [] s
  | some c => answer c.code [BitVec.ofNat 8 c.length] s

/-- PG.RD (R197). -/
def execPgRd (v : Word) (s : State) : Result := .next (command s.tableReady (.ok (pgRd v s)) s)

end Sys2Proof.Machine
end

