-- ==== Sys2Proof/Machine/System.lean ====
section
/-! DEFINITION. SYS.RESET and SYS.STAT (46_system_and_macros.md R260, R261). -/

namespace Sys2Proof.Machine

open Sys2Proof

/-- SYS.RESET (R260): executes whether or not a fault is recorded. -/
def execSysReset (s : State) : Result := .next (answer 0 [] (resetBlock s))

/-- SYS.STAT (R261): executes whether or not a fault is recorded; no state changes. -/
def execSysStat (s : State) : Result := .next (answer (statusWord s) [] s)

end Sys2Proof.Machine
end

