-- ==== Sys2Proof/Machine/TreeBuilder.lean ====
section
/-! DEFINITION. The Tree Builder: the greedy merge queue and TB.BUILD (42_tree_builder.md R170 to R179). -/

namespace Sys2Proof.Machine

open Sys2Proof Sys2Proof.Config

/-- The working state of a build: `MQ`, `mq_seq`, and `nodes in use` (R175). -/
structure Build where
  mq : List Entry
  seq : Word
  used : Nat
  deriving DecidableEq, Repr

/-- Loading (R175): one Leaf per key, its weight the count, its key (count, 0, symbol). -/
def loadLeaves (p : Params) : List (Sym × Nat) → Build → Except Cause Build
  | [], b => .ok b
  | (s, w) :: t, b =>
    if roomForNode p b.used then
      loadLeaves p t { b with mq := mqInsert ⟨.leaf s w, leafKey s w⟩ b.mq, used := b.used + 1 }
    else .error .capacityExceeded

/-- `MergeStep()` (R176); the first node extracted is the left child (R179). Only called with two entries or more. -/
def mergeStep (p : Params) (b : Build) : Except Cause Build :=
  match mqExtract b.mq with
  | none => .ok b
  | some (x, q) =>
    match mqExtract q with
    | none => .ok b
    | some (y, q') =>
      let w := nodeWeight x.node + nodeWeight y.node
      if 2 ^ p.weightW ≤ w then .error .weightOverflow
      else if roomForNode p b.used then
        .ok
          { mq := mqInsert ⟨.internal w x.node y.node, internalKey w b.seq.toNat⟩ q'
            seq := b.seq + 1
            used := b.used + 1 }
      else .error .capacityExceeded

/-- `while size(MQ) > 1: MergeStep()` (R174). Fuel: each step lowers the size by one (R178). -/
def mergeAll (p : Params) : Nat → Build → Except Cause Build
  | 0, b => .ok b
  | fuel + 1, b =>
    if b.mq.length ≤ 1 then .ok b
    else
      match mergeStep p b with
      | .ok b' => mergeAll p fuel b'
      | .error c => .error c

/-- The whole build from a frequency table (R174): load, then merge until one node remains. -/
def buildTree (p : Params) (t : List (Sym × Nat)) : Except Cause Build :=
  match loadLeaves p t ⟨[], 0, 0⟩ with
  | .ok b => mergeAll p b.mq.length b
  | .error c => .error c

/-- TB.BUILD's own part (R174): the root is extracted, MQ is empty afterwards, tables of an older tree are no longer
valid. -/
def tbBuild (p : Params) (s : State) : Except Cause State :=
  if s.ft.table = [] then .error .emptyAlphabet
  else
    match buildTree p s.ft.table with
    | .error c => .error c
    | .ok b =>
      match mqExtract b.mq with
      | none => .error .emptyAlphabet
      | some (root, q) =>
        .ok (answer (BitVec.ofNat 32 s.ft.table.length) []
          { s with
            tb := { tree := some root.node, treeV := true, mq := q, mqSeq := b.seq }
            pg := { s.pg with ptV := false, iptV := false } })

/-- TB.BUILD (R174). -/
def execTbBuild (s : State) : Result := .next (command s.mayBuild (tbBuild params s) s)

end Sys2Proof.Machine
end

