-- ==== Sys2Proof/Machine/Macros.lean ====
section
/-! DEFINITION. The host-level pseudo-instructions (46_system_and_macros.md R265 to R267): command sequences run one
after another through the commands' own meanings, stopping at the first FAULT. DESIGN CHOICE (log 2). A macro waits while the reset input is asserted (log 6). -/

namespace Sys2Proof.Machine

open Sys2Proof Sys2Proof.Config

/-- Cut data into chunks of `n` bytes, the last one shorter; none for no data (R265). Fuel: one chunk a round. -/
def chunksOf (n : Nat) : Nat → List Byte → List (List Byte)
  | 0, _ => []
  | _ + 1, [] => []
  | fuel + 1, b :: bs => ((b :: bs).take n) :: chunksOf n fuel ((b :: bs).drop n)

/-- Run commands in order; "if any command answers FAULT the macro stops there" (R265). DESIGN CHOICE (log 2): the
commands run ahead of whatever still waits on the command stream, which is left as it is, and all their responses stay
on the response stream, the ones the host has used included. -/
def runCommands : List (State → Result) → State → Result
  | [], s => .next s
  | f :: fs, s =>
    match f s with
    | .next t => if t.faulted then .next t else runCommands fs t
    | .fault r => .fault r
    | .refused r => .refused r

/-- Go on after a command sequence, or report its fault (R265 to R267). -/
def thenHost (o : Result) (k : State → Result) : Result :=
  match o with
  | .next t => if t.faulted then .next (report (.failed t.flt) t) else k t
  | .fault r => .fault r
  | .refused r => .refused r

/-- The commands of FT.COUNT (R265). -/
def countCommands (p : Params) (t : List Byte) : List (State → Result) :=
  execFtClr :: ((chunksOf p.chunk t.length t).map execFtUpd ++ [execFtEnd])

/-- The commands of CX.ENCODE up to the header (R266). -/
def headerCommands (p : Params) (t : List Byte) : List (State → Result) :=
  execSysReset :: (countCommands p t ++ [execTbBuild, execPgGen, execHcSer])

/-- The commands of CX.ENCODE's second pass (R266). -/
def payloadCommands (p : Params) (t : List Byte) : List (State → Result) :=
  execDcEbeg :: ((chunksOf p.chunk t.length t).map execDcEupd ++ [execDcEend])

/-- A segment of the container as the host builds it: `be32` of the response value, then the data (R266). -/
def segment (r : Response) : List Byte := be32 r.value ++ r.data

/-- FT.COUNT data (R265). -/
def execFtCount (t : List Byte) (s : State) : Result :=
  unlessReset (thenHost (runCommands (countCommands params t) s) fun s1 => .next (report .counted s1)) s

/-- CX.ENCODE data (R266). -/
def execCxEncode (t : List Byte) (s : State) : Result :=
  unlessReset
    (thenHost (runCommands (headerCommands params t) s) fun s1 =>
      thenHost (runCommands (payloadCommands params t) s1) fun s2 =>
        .next (report (.container (segment (lastResponse s1) ++ segment (lastResponse s2))) s2)) s

/-- CX.DECODE data (R267): on a short container the host reports ContainerTruncated and sends nothing. -/
def execCxDecode (c : List Byte) (s : State) : Result :=
  match unpack c with
  | .error e => .next (report (.failed e.flt) s)
  | .ok (h, p) =>
    unlessReset
      (thenHost (runCommands [execSysReset, execHcDes h, execPgGen, execPgInv, execDcDec p] s) fun s1 =>
        .next (report (.text (lastResponse s1).data) s1)) s

end Sys2Proof.Machine
end

