-- ==== Sys2Proof/Machine/Dispatch.lean ====
section
/-! DEFINITION. One arm per instruction. -/

namespace Sys2Proof.Machine

/-- The meaning of every instruction. -/
def exec (i : Instr) (s : State) : Host.Outcome State Fault Refusal :=
  match i with
  | .sysReset => Sys2Proof.Machine.execSysReset s
  | .sysStat => Sys2Proof.Machine.execSysStat s
  | .bwClr => Sys2Proof.Machine.execBwClr s
  | .bwWbit v => Sys2Proof.Machine.execBwWbit v s
  | .bwWbits n v => Sys2Proof.Machine.execBwWbits n v s
  | .bwFlush => Sys2Proof.Machine.execBwFlush s
  | .bwPos => Sys2Proof.Machine.execBwPos s
  | .bwRdbuf => Sys2Proof.Machine.execBwRdbuf s
  | .brLoad d => Sys2Proof.Machine.execBrLoad d s
  | .brNext => Sys2Proof.Machine.execBrNext s
  | .brRbits n => Sys2Proof.Machine.execBrRbits n s
  | .brPos => Sys2Proof.Machine.execBrPos s
  | .ftClr => Sys2Proof.Machine.execFtClr s
  | .ftUpd d => Sys2Proof.Machine.execFtUpd d s
  | .ftEnd => Sys2Proof.Machine.execFtEnd s
  | .ftRd v => Sys2Proof.Machine.execFtRd v s
  | .tbBuild => Sys2Proof.Machine.execTbBuild s
  | .pgGen => Sys2Proof.Machine.execPgGen s
  | .pgInv => Sys2Proof.Machine.execPgInv s
  | .pgRd v => Sys2Proof.Machine.execPgRd v s
  | .hcSer => Sys2Proof.Machine.execHcSer s
  | .hcDes d => Sys2Proof.Machine.execHcDes d s
  | .dcEbeg => Sys2Proof.Machine.execDcEbeg s
  | .dcEupd d => Sys2Proof.Machine.execDcEupd d s
  | .dcEend => Sys2Proof.Machine.execDcEend s
  | .dcDec d => Sys2Proof.Machine.execDcDec d s
  | .node => Sys2Proof.Machine.execNode s
  | .leaf x => Sys2Proof.Machine.execLeaf x s
  | .codeword c l => Sys2Proof.Machine.execCodeword c l s
  | .ctrl k => Sys2Proof.Machine.execCtrl k s
  | .container h p => Sys2Proof.Machine.execContainer h p s
  | .response st v d => Sys2Proof.Machine.execResponse st v d s
  | .ftCount t => Sys2Proof.Machine.execFtCount t s
  | .cxEncode t => Sys2Proof.Machine.execCxEncode t s
  | .cxDecode c => Sys2Proof.Machine.execCxDecode c s

end Sys2Proof.Machine
end

