-- ==== Sys2Proof/Machine/Step.lean ====
section
/-! DEFINITION. One step: held in reset, or the next command of the command stream (20_memory.md R72, 46_system_and_macros.md R272, R273). -/

namespace Sys2Proof.Machine

open Sys2Proof

/-- Act on an admitted, refused or faulting command word (60_exceptions.md R291). -/
def perform (s : State) : Admission → Host.Outcome State Fault Refusal
  | .run i => exec i s
  | .refuse => .next (refuse s)
  | .fault c => .next (raise c s)

/-- One step. While the reset input is asserted the block stays at its reset values and takes nothing from the command
stream (70_reset_and_hazards.md R320). While the bytes of the next command have not all arrived the block waits and no state changes (R273). -/
def step (s : State) : Host.Outcome State Fault Refusal :=
  if s.resetIn then .next (resetBlock s)
  else
    match takeCommand s.cmdIn with
    | none => .next s
    | some (w, d, rest) =>
      let s1 := { s with cmdIn := rest }
      perform s1 (admission s1 w d)

/-- The bytes of a row's bits as they would travel on the command stream: a command word with its attached data of
zeros, or the bits in whole bytes (log 14, log 15). -/
def tableBytes (nbits w : Nat) : List Byte :=
  if nbits = 48 then (cmdWordOfNat w).bytes ++ List.replicate (cmdWordOfNat w).dataLength 0
  else beBytes (byteCount nbits) w

/-- The host has put that instruction at the head of the command stream (log 14). -/
def State.withFetchWord (s : State) (nbits w : Nat) : State :=
  { s with cmdIn := tableBytes nbits w ++ s.cmdIn, resetIn := false }

end Sys2Proof.Machine
end

