-- ==== Sys2Proof/Machine/HostPort.lean ====
section
/-! DEFINITION. What the host can do to the block, and nothing else (46_system_and_macros.md R271, R272): inputs between steps, no steps of the block. -/

namespace Sys2Proof.Machine

open Sys2Proof

/-- The host puts bytes on the command stream (R272). DESIGN CHOICE (log 6): bytes sent while the reset input is asserted
wait there, and the first of them is byte 0 of a command word once the input is released. -/
def State.send (s : State) (bytes : List Byte) : State := { s with cmdIn := s.cmdIn ++ bytes }

/-- The host asserts the hardware reset input (R272): the block is at its reset values from that moment
(70_reset_and_hazards.md R320). -/
def State.assertReset (s : State) : State := hardReset s

/-- The host releases the reset input; at that moment too every element of state has its reset value (R320). -/
def State.releaseReset (s : State) : State := { resetBlock s with resetIn := false }

/-- The host takes the oldest response; no state of the block changes (R272). -/
def State.takeResponse (s : State) : Option (Response × State) :=
  match s.resps with
  | [] => none
  | r :: rs => some (r, { s with resps := rs })

/-- A response as it travels on the response stream (30_encoding.md R88). -/
def Response.bytes (r : Response) : List Byte := responseBytes r.status r.value r.data

/-- The host's own stream failed: it abandons the macro and reports IOError / HostIo; the block is left as it stands
(R271, 60_exceptions.md R286). -/
def State.hostIoFailure (s : State) : State := report (.failed Cause.hostIo.flt) s

end Sys2Proof.Machine
end

