-- ==== Sys2Proof/Machine/Memory.lean ====
section
/-! DEFINITION. The canonical form of the machine's buffers and tables. There is no addressable memory (20_memory.md R60, R70; log 8). -/

namespace Sys2Proof.Machine

open Sys2Proof Sys2Proof.Config

/-- The buffers are within `MAX_BUF`, `br_len` is the length of RBUF (10_state.md R23, R36, R37), and every table lists
each key once in rising order, so that equal contents are equal data. -/
def Memory.wf (s : State) : Bool :=
  decide (s.bw.buf.length ≤ params.maxBuf) && decide (s.br.buf.length ≤ params.maxBuf) &&
    decide (s.br.len.toNat = s.br.buf.length) && mapSorted symRank s.ft.table && mapSorted symRank s.pg.pt &&
    mapSorted codeRank s.pg.ipt

end Sys2Proof.Machine
end

