-- ==== Sys2Proof/Safety.lean ====
section
/-! DEFINITION. What a good state is, and the vocabulary in which statements about the machine are written. -/

namespace Sys2Proof.Safety

open Sys2Proof Sys2Proof.Machine Sys2Proof.Config

/-- The 26 commands: the rows a command word can spell (30_encoding.md R84). -/
def isCommand : Instr → Bool
  | .sysReset | .sysStat | .bwClr | .bwWbit _ | .bwWbits _ _ | .bwFlush | .bwPos | .bwRdbuf | .brLoad _ | .brNext
  | .brRbits _ | .brPos | .ftClr | .ftUpd _ | .ftEnd | .ftRd _ | .tbBuild | .pgGen | .pgInv | .pgRd _ | .hcSer
  | .hcDes _ | .dcEbeg | .dcEupd _ | .dcEend | .dcDec _ => true
  | .node | .leaf _ | .codeword _ _ | .ctrl _ | .container _ _ | .response _ _ _ | .ftCount _ | .cxEncode _
  | .cxDecode _ => false

/-- The causes the block itself raises: those of 60_exceptions.md R287 but the two that are the host's. -/
def blockCauses : List Cause :=
  [.headerTruncated, .invalidScalar, .payloadTooShort, .exhaustedMidSymbol, .duplicateCode, .badControl, .noMatch,
    .duplicateSymbol, .readPastEnd, .incompleteTail, .invalidUtf8, .illegalOpcode, .reservedField, .badBit, .badCount,
    .sequenceError, .emptyAlphabet, .codeTooLong, .symbolNotInTable, .weightOverflow, .sizeOverflow, .capacityExceeded]

/-- `FLT` is (0, 0) or a row of R287 that the block raises (10_state.md R27). -/
def fltLegal (f : FLT) : Bool :=
  decide (f = ⟨0, 0⟩) || blockCauses.any fun c => decide (f = c.flt)

/-- The writer's invariant: `bw_acc < 2^bw_cnt` (`bw_cnt <= 7` by its type), WBUF within MAX_BUF (10_state.md R22, R36). -/
def bwOk (w : BW) : Bool := decide (w.acc.toNat < 2 ^ w.cnt.val) && decide (w.buf.length ≤ params.maxBuf)

/-- The reader's invariant: `br_len = len(RBUF)`, `br_byte <= br_len`, and the offset is 0 at the end (10_state.md R23, R37). -/
def brOk (r : BR) : Bool :=
  decide (r.len.toNat = r.buf.length) && decide (r.byte.toNat ≤ r.len.toNat) &&
    (decide (r.byte.toNat < r.len.toNat) || decide (r.bit = 0))

/-- An incomplete-sequence buffer: empty or a strict prefix of a well-formed sequence (10_state.md R29). -/
def incOk (bs : List Byte) : Bool := decide (head bs = .incomplete)

/-- The frequency table: each key a scalar, listed once, its count at least 1 and within WEIGHT_W (10_state.md R28). -/
def tableOk (t : List (Sym × Nat)) : Bool :=
  mapSorted symRank t && decide (t.length ≤ params.maxSyms) &&
    t.all fun e => isScalar e.1 && decide (1 ≤ e.2) && decide (e.2 < 2 ^ params.weightW)

/-- The frequency unit (10_state.md R25, R28, R29): a closed pass has an empty incomplete buffer. -/
def ftOk (f : FT) : Bool := tableOk f.table && incOk f.inc && (!f.done || decide (f.inc = []))

/-- Every leaf's symbol is a scalar (30_encoding.md R96). -/
def scalarLeaves : Node → Bool
  | .leaf s _ => isScalar s
  | .internal _ l r => scalarLeaves l && scalarLeaves r

/-- The tree unit: `TREE_V` says there is a tree, MQ is empty between commands (10_state.md R25, R30, R31). -/
def tbOk (t : TB) : Bool :=
  decide (t.treeV = t.tree.isSome) && decide (t.mq = []) && (t.tree.all scalarLeaves)

/-- The prefix tables belong to the tree: `PT_V` says `pt` was generated from the current tree, `IPT_V` that `ipt` is
the inverse of the current `pt` (10_state.md R25, R32, R33). -/
def pgOk (t : TB) (g : PG) : Prop :=
  (g.ptV = true → ∃ n, t.tree = some n ∧ genTable n = .ok g.pt) ∧
    (g.iptV = true → g.ptV = true ∧ invertTable g.pt [] = .ok g.ipt)

/-- The codec unit: an open pass has a prefix table, a closed one no kept bytes, and the decode accumulator is empty
between commands (10_state.md R25, R34, R35; 70_reset_and_hazards.md R324). -/
def dcOk (g : PG) (d : DC) : Bool :=
  incOk d.inc && (!d.encAct || g.ptV) && (d.encAct || decide (d.inc = [])) && decide (d.daccCode = 0) &&
    decide (d.daccLen = 0)

/-- Every element of state has the reset value of the table in 10_state.md R39. -/
def atReset (s : State) : Prop :=
  s.bw.acc = 0 ∧ s.bw.cnt = 0 ∧ s.bw.buf = [] ∧ s.br.buf = [] ∧ s.br.len = 0 ∧ s.br.byte = 0 ∧ s.br.bit = 0 ∧
    s.ft.table = [] ∧ s.ft.inc = [] ∧ s.ft.done = false ∧ s.tb.tree = none ∧ s.tb.treeV = false ∧ s.tb.mq = [] ∧
    s.tb.mqSeq = 0 ∧ s.pg.pt = [] ∧ s.pg.ptV = false ∧ s.pg.ipt = [] ∧ s.pg.iptV = false ∧ s.dc.inc = [] ∧
    s.dc.encAct = false ∧ s.dc.daccCode = 0 ∧ s.dc.daccLen = 0 ∧ s.flt.kind = 0 ∧ s.flt.cause = 0 ∧ statusWord s = 0

/-- The state invariant. `FLT` is legal; and unless a fault is recorded, when everything else is unspecified
(10_state.md R40), every unit meets the invariants the spec gives it. While the reset input is asserted every element of
state has its reset value (70_reset_and_hazards.md R320). -/
structure Inv (s : State) : Prop where
  flt : fltLegal s.flt = true
  held : s.resetIn = true → atReset s
  mem : s.faulted = false → Memory.wf s = true
  bw : s.faulted = false → bwOk s.bw = true
  br : s.faulted = false → brOk s.br = true
  ft : s.faulted = false → ftOk s.ft = true
  tb : s.faulted = false → tbOk s.tb = true
  pg : s.faulted = false → pgOk s.tb s.pg
  dc : s.faulted = false → dcOk s.pg s.dc = true

/-- The leaves of a tree, left to right. -/
def leaves : Node → List (Sym × Nat)
  | .leaf s w => [(s, w)]
  | .internal _ l r => leaves l ++ leaves r

/-- The symbols of a tree, left to right. -/
def symbols (t : Node) : List Sym := (leaves t).map Prod.fst

/-- The greatest number of branches from the root to a leaf. -/
def depth : Node → Nat
  | .leaf _ _ => 0
  | .internal _ l r => max (depth l) (depth r) + 1

/-- "for every Internal node in a built tree, weight == left.weight + right.weight" (42_tree_builder.md R180 (a)). -/
def weightsAdd : Node → Bool
  | .leaf _ _ => true
  | .internal w l r => decide (w = nodeWeight l + nodeWeight r) && weightsAdd l && weightsAdd r

/-- In every Internal node the left child is not the heavier (42_tree_builder.md R180 (d)). -/
def lighterLeft : Node → Bool
  | .leaf _ _ => true
  | .internal _ l r => decide (nodeWeight l ≤ nodeWeight r) && lighterLeft l && lighterLeft r

/-- A queue in key order, no two keys equal (42_tree_builder.md R171). -/
def mqSorted (q : List Entry) : Prop := q.Pairwise fun a b => a.key.lt b.key = true

/-- The entries TB.BUILD loads: one Leaf per key, its weight the count, its key (count, 0, symbol)
(42_tree_builder.md R172, R175). -/
def leafQueue (t : List (Sym × Nat)) : List Entry := t.map fun e => ⟨.leaf e.1 e.2, ⟨e.2, 0, e.1.toNat⟩⟩

/-- `MergeStep()` repeated (42_tree_builder.md R174, R176). -/
def mergeSteps (p : Params) : Nat → Build → Except Cause Build
  | 0, b => .ok b
  | n + 1, b => (mergeStep p b).bind (mergeSteps p n)

/-- A node that `Walk` visits: an Internal node at its depth, or a leaf's symbol (43_prefix_table.md R192). -/
inductive Visit where
  | node (depth : Nat)
  | leaf (s : Sym)
  deriving DecidableEq, Repr

/-- The nodes of a tree in pre-order, left before right, from depth `k` (43_prefix_table.md R192). -/
def visits : Node → Nat → List Visit
  | .leaf s _, _ => [.leaf s]
  | .internal _ l r, k => .node k :: (visits l (k + 1) ++ visits r (k + 1))

/-- The symbol of a visited leaf. -/
def Visit.symbol : Visit → Option Sym
  | .node _ => none
  | .leaf s => some s

/-- Visits at which the walk does not fault: no Internal node at depth 32 or more, no symbol twice
(43_prefix_table.md R194). -/
def visitsClean (vs : List Visit) : Prop := (∀ k, .node k ∈ vs → k < 32) ∧ (vs.filterMap Visit.symbol).Nodup

/-- The same shape and symbols with every weight 0 (44_tree_header.md R221, R224). -/
def forgetWeights : Node → Node
  | .leaf s _ => .leaf s 0
  | .internal _ l r => .internal 0 (forgetWeights l) (forgetWeights r)

/-- The pre-order token bits of a tree (30_encoding.md R93 to R95). -/
def tokens : Node → List Bool
  | .leaf s _ => itemBits (.leaf s)
  | .internal _ l r => itemBits .node ++ (tokens l ++ tokens r)

/-- The pre-order tokens of a tree as instructions (30_encoding.md R93 to R95). -/
def tokenList : Node → List Instr
  | .leaf s _ => [.leaf s]
  | .internal _ l r => .node :: (tokenList l ++ tokenList r)

/-- Every LEAF token among these carries a scalar (30_encoding.md R96). -/
def scalarTokens (ts : List Instr) : Prop := ∀ x, .leaf x ∈ ts → isScalar x = true

/-- Every leaf's root-to-leaf path, left = 0, right = 1 (43_prefix_table.md R192). -/
def paths : Node → List (Sym × List Bool)
  | .leaf s _ => [(s, [])]
  | .internal _ l r =>
    (paths l).map (fun e => (e.1, false :: e.2)) ++ (paths r).map (fun e => (e.1, true :: e.2))

/-- The codewords of a tree: its paths, but one 0 bit for a root that is a leaf (43_prefix_table.md R192, R193). -/
def codewords : Node → List (Sym × List Bool)
  | .leaf s _ => [(s, [false])]
  | .internal w l r => paths (.internal w l r)

/-- A path read as a binary number, first branch most significant, with its length (10_state.md R32). -/
def codeOf (path : List Bool) : Code := ⟨shiftBits 0 path, path.length⟩

/-- The bits of a table entry as a codeword (30_encoding.md R99). -/
def codeBits (c : Code) : List Bool := msbBits c.code c.length

/-- A text: the UTF-8 form of its scalars (30_encoding.md R112). -/
def textBytes (t : List Sym) : List Byte := t.flatMap utf8Enc

/-- The zero bits that bring `n` bits to whole bytes (20_memory.md R67). -/
def padding (n : Nat) : List Bool := List.replicate ((8 - n % 8) % 8) false

/-- The codeword bits of a text under a table; a symbol without an entry adds none (45_data_codec.md R233). -/
def encodedBits (pt : List (Sym × Code)) (t : List Sym) : List Bool :=
  t.flatMap fun s => ((mapGet s pt).map codeBits).getD []

/-- How often a symbol has been counted (41_frequency.md R156, R159). -/
def countIn (t : List (Sym × Nat)) (s : Sym) : Nat := (mapGet s t).getD 0

/-- The sum of the weights of a frequency table: the number of scalars counted (41_frequency.md R160). -/
def totalCount (t : List (Sym × Nat)) : Nat := (t.map Prod.snd).sum

/-- What the sequencing flags must be for a command to run: the table of 60_exceptions.md R288. -/
def precondition (s : State) : Instr → Bool
  | .bwClr | .bwWbit _ | .bwWbits _ _ | .bwFlush | .hcDes _ => !s.dc.encAct
  | .ftUpd _ | .ftEnd => !s.ft.done
  | .tbBuild => s.ft.done && !s.dc.encAct
  | .pgGen | .hcSer => s.tb.treeV && !s.dc.encAct
  | .pgInv | .pgRd _ => s.pg.ptV
  | .dcEbeg => s.pg.ptV && !s.dc.encAct
  | .dcEupd _ | .dcEend => s.dc.encAct
  | .dcDec _ => s.pg.iptV
  | .sysReset | .sysStat | .bwPos | .bwRdbuf | .brLoad _ | .brNext | .brRbits _ | .brPos | .ftClr | .ftRd _ => true
  | .node | .leaf _ | .codeword _ _ | .ctrl _ | .container _ _ | .response _ _ _ | .ftCount _ | .cxEncode _
  | .cxDecode _ => true

/-- The must-be-zero fields of a command word are zero: the table of 30_encoding.md R81. -/
def reservedClear (w : CmdWord) : Op → Bool
  | .bwWbits => true
  | .bwWbit | .ftRd | .pgRd | .brLoad | .ftUpd | .hcDes | .dcEupd | .dcDec => decide (w.n = 0)
  | .brRbits => decide (w.v = 0)
  | .sysReset | .sysStat | .bwClr | .bwFlush | .bwPos | .bwRdbuf | .brNext | .brPos | .ftClr | .ftEnd | .tbBuild
  | .pgGen | .pgInv | .hcSer | .dcEbeg | .dcEend => decide (w.n = 0) && decide (w.v = 0)

/-- A write to a BitWriter: a single bit or a group (20_memory.md R75). -/
inductive Write where
  | bit (b : Bool)
  | group (v : Word) (n : Nat)
  deriving DecidableEq, Repr

/-- The bits of a write, in stream order (40_bitstream.md R122, R123). -/
def Write.bits : Write → List Bool
  | .bit b => [b]
  | .group v n => msbBits v n

/-- A mix of writes, first one first (20_memory.md R75). -/
def writeMix (p : Params) : BW → List Write → Except Cause BW
  | w, [] => .ok w
  | w, .bit b :: ws => (w.writeBit p b).bind fun w' => writeMix p w' ws
  | w, .group v n :: ws => (w.writeBits p v n).bind fun w' => writeMix p w' ws

/-- Bytes read as a number, most significant first (00_scope.md R8). -/
def bigEndian (bs : List Byte) : Nat := bs.foldl (fun a b => a * 256 + b.toNat) 0

/-- The tree of a text: its scalars counted, the counts built into a tree (46_system_and_macros.md R266). -/
def textTree (t : List Sym) : Option Node :=
  match t.foldlM (countSym params) [] with
  | .error _ => none
  | .ok table =>
    match buildTree params table with
    | .error _ => none
    | .ok b => b.mq.head?.map Entry.node

/-- The commands run in order from `s` to `t`, none of them answering FAULT (46_system_and_macros.md R265). -/
def runsTo : List Instr → State → State → Prop
  | [], s, t => t = s
  | i :: is, s, t => ∃ u, exec i s = .next u ∧ u.faulted = false ∧ runsTo is u t

/-- The data of a text pass, cut into CHUNK bytes (46_system_and_macros.md R265). -/
def passChunks (d : List Byte) : List (List Byte) := chunksOf params.chunk d.length d

/-- The expansion of FT.COUNT (46_system_and_macros.md R265). -/
def countExpansion (d : List Byte) : List Instr := .ftClr :: ((passChunks d).map .ftUpd ++ [.ftEnd])

/-- The expansion of CX.ENCODE (46_system_and_macros.md R266). -/
def encodeExpansion (d : List Byte) : List Instr :=
  (.sysReset :: (countExpansion d ++ [.tbBuild, .pgGen, .hcSer])) ++
    (.dcEbeg :: ((passChunks d).map .dcEupd ++ [.dcEend]))

/-- The expansion of CX.DECODE, the container unpacked (46_system_and_macros.md R267). -/
def decodeExpansion (h p : List Byte) : List Instr := [.sysReset, .hcDes h, .pgGen, .pgInv, .dcDec p]

/-- "If any command answers FAULT the macro stops there and reports that fault" (46_system_and_macros.md R265 to R267):
the macro always answers a next state; where a command of its expansion is the first to answer FAULT, the state is the
one that command leaves, and the host is given that fault and nothing else. -/
def stopsAtFault (m : Instr) (expansion : List Instr) (s : State) : Prop :=
  (∃ u, exec m s = .next u ∧ (u.faulted = true → u.hostOut = s.hostOut ++ [.failed u.flt])) ∧
  ∀ before i after mid v, expansion = before ++ i :: after → runsTo before s mid → exec i mid = .next v →
    v.faulted = true → exec m s = .next { v with hostOut := s.hostOut ++ [.failed v.flt] }

/-- The data bytes and the control byte of a payload that carries `bits` (45_data_codec.md R238). -/
def isPayload (bits : List Bool) (payload : List Byte) : Prop :=
  ∃ body, payload = body ++ [BitVec.ofNat 8 (controlValue (bits.length % 8))] ∧
    bitsOfBytes body = bits ++ padding bits.length

/-- A codec state whose tables are those of the tree `n` (43_prefix_table.md R191, R195). -/
def tablesOf (n : Node) (g : PG) : Prop := genTable n = .ok g.pt ∧ invertTable g.pt [] = .ok g.ipt

/-- The bits DC.DEC decodes of a payload `body ++ [k]` (45_data_codec.md R243). -/
def decodedBits (body : List Byte) (k : Byte) : List Bool :=
  (bitsOfBytes body).take (meaningfulBits (body.length + 1) (if k = 0 then 8 else k.toNat))

end Sys2Proof.Safety
end

