-- ==== Sys2Proof/Certificates/Slice0/Obligations.lean ====
section
/-! DEFINITION. The statements about the machine. Each docstring names the rule of spec/ it formalises. -/

open Sys2Proof Sys2Proof.Machine Sys2Proof.Config Sys2Proof.Safety

/-! ### Reset and the step -/

/-- 10_state.md R39: at reset, after SYS.RESET, and while the reset input is asserted and at its release, every element
of state has its reset value. SYS.RESET answers OK 0 (46_system_and_macros.md R260), the input answers nothing
(70_reset_and_hazards.md R320). -/
def Obligations.ResetValues : Prop :=
  atReset State.reset ∧
  (∀ s : State, ∃ t, exec .sysReset s = .next t ∧ atReset t ∧ t.resps = s.resps ++ [⟨0x00#8, 0, []⟩]) ∧
  (∀ s : State, atReset s.assertReset ∧ s.assertReset.resetIn = true ∧ s.assertReset.resps = s.resps) ∧
  (∀ s : State, s.resetIn = true → ∃ t, step s = .next t ∧ atReset t ∧ t.resetIn = true ∧ t.resps = s.resps) ∧
  (∀ s : State, atReset s.releaseReset ∧ s.releaseReset.resetIn = false ∧ s.releaseReset.resps = s.resps)

/-- The invariant holds at reset (10_state.md R39), and whatever the host does between steps keeps it
(46_system_and_macros.md R272). -/
def Obligations.ResetMeetsInv : Prop :=
  Inv State.reset ∧
  ∀ s : State, Inv s → Inv s.assertReset ∧ Inv s.releaseReset ∧ (∀ bytes, Inv (s.send bytes)) ∧
    ∀ r t, s.takeResponse = some (r, t) → Inv t

/-- Every step keeps the invariant: the units' invariants of 10_state.md R22, R23, R25, R28, R29, R32 to R34 and the
flag combinations of 70_reset_and_hazards.md R324, and R320: while the reset input is asserted the state is the reset
state. -/
def Obligations.StepKeepsInv : Prop := ∀ s t : State, Inv s → step s = .next t → Inv t

/-- A step runs the decoded command on the state with the command's bytes taken (20_memory.md R72); while the bytes
have not all arrived the block waits and no state changes (46_system_and_macros.md R273). When the reset input is asserted
the command in progress is abandoned: no response, none of its effects (R272, 70_reset_and_hazards.md R320); the bytes of
a partly received command are discarded; commands behind the first wait on. While it is asserted no command runs, and
what waits or arrives on the command stream stays there until after its release (the model's choices, log 6). -/
def Obligations.StepRunsDecodedCommand : Prop :=
  (∀ (s : State) (i : Instr) (rest : List Byte), s.resetIn = false → decode s.cmdIn = .ok (i, rest) →
    step s = exec i { s with cmdIn := rest }) ∧
  (∀ s : State, s.resetIn = false → decode s.cmdIn = .error .incomplete → step s = .next s) ∧
  (∀ (s : State) (cs : List (CmdWord × List Byte)) (part : List Byte), s.resetIn = false →
    (∀ c ∈ cs, c.2.length = c.1.dataLength) → takeCommand part = none →
    s.cmdIn = cs.flatMap (fun c => commandBytes c.1 c.2) ++ part →
    atReset s.assertReset ∧ s.assertReset.resps = s.resps ∧ s.assertReset.hostOut = s.hostOut ∧
      s.assertReset.cmdIn = (cs.drop 1).flatMap fun c => commandBytes c.1 c.2) ∧
  (∀ s : State, s.resetIn = true →
    s.assertReset.cmdIn = s.cmdIn ∧ s.releaseReset.cmdIn = s.cmdIn ∧
    ∃ t, step s = .next t ∧ atReset t ∧ t.resps = s.resps ∧ t.hostOut = s.hostOut ∧ t.resetIn = true ∧
      t.cmdIn = s.cmdIn)

/-- 30_encoding.md R86: 230 opcodes are illegal; such a word consumes six bytes and raises IllegalOpcode, value 0x0440. -/
def Obligations.IllegalOpcode : Prop :=
  (∀ (s : State) (op n a b c d : Byte) (rest : List Byte), s.resetIn = false → s.faulted = false →
    s.cmdIn = op :: n :: a :: b :: c :: d :: rest → Op.ofByte op = none →
    step s = .next (raise .illegalOpcode { s with cmdIn := rest }) ∧ Cause.illegalOpcode.flt = ⟨4, 0x40⟩ ∧
      Cause.illegalOpcode.flt.value = 0x440#32) ∧
  ((List.range 256).filter fun k => decide (Op.ofByte (BitVec.ofNat 8 k) = none)).length = 230

/-- 30_encoding.md R85: a non-zero must-be-zero field raises ReservedField and does nothing else; otherwise the word
runs a command; the unused high bits of `v` of BW.WBITS are ignored. -/
def Obligations.ReservedField : Prop :=
  (∀ (s : State) (w : CmdWord) (d rest : List Byte) (o : Op), s.resetIn = false → s.faulted = false →
    takeCommand s.cmdIn = some (w, d, rest) → Op.ofByte w.op = some o →
    (reservedClear w o = false →
      step s = .next (raise .reservedField { s with cmdIn := rest }) ∧ Cause.reservedField.flt = ⟨4, 0x41⟩ ∧
        Cause.reservedField.flt.value = 0x441#32) ∧
    (reservedClear w o = true → ∃ i, isCommand i = true ∧ step s = exec i { s with cmdIn := rest })) ∧
  (∀ (s : State) (n : Byte) (v v' : Word), msbBits v n.toNat = msbBits v' n.toNat →
    exec (.bwWbits n v) s = exec (.bwWbits n v') s)

/-! ### Faults -/

/-- 60_exceptions.md R288: a command whose precondition fails raises SequenceError; one whose precondition holds never
does (a tree is there when TREE_V says so, which the invariant gives). -/
def Obligations.SequencingPreconditions : Prop :=
  ∀ (i : Instr) (s : State), isCommand i = true → s.faulted = false →
    (precondition s i = false → exec i s = .next (raise .sequenceError s)) ∧
    (precondition s i = true → tbOk s.tb = true → ∀ t, exec i s = .next t → t.flt ≠ Cause.sequenceError.flt)

/-- 40_bitstream.md R122 to R125: BadBit, BadCount and the writer's SizeOverflow, after the sequencing check;
a BW.WBITS may fill WBUF on its way and overflow it. -/
def Obligations.WriterFaults : Prop :=
  ∀ s : State, s.faulted = false → s.dc.encAct = false →
    (∀ v : Word, 1 < v.toNat → exec (.bwWbit v) s = .next (raise .badBit s)) ∧
    (∀ (n : Byte) (v : Word), 32 < n.toNat → exec (.bwWbits n v) s = .next (raise .badCount s)) ∧
    (s.bw.buf.length ≤ params.maxBuf → ∀ (n : Byte) (v : Word), n.toNat ≤ 32 →
      params.maxBuf < (s.bw.content.length + n.toNat) / 8 → exec (.bwWbits n v) s = .next (raise .sizeOverflow s)) ∧
    (s.bw.buf.length = params.maxBuf →
      (∀ v : Word, v.toNat ≤ 1 → s.bw.cnt.val = 7 → exec (.bwWbit v) s = .next (raise .sizeOverflow s)) ∧
      (s.bw.cnt.val ≠ 0 → exec .bwFlush s = .next (raise .sizeOverflow s)))

/-- 60_exceptions.md R296: a command that faults records kind and cause of a row of R287 and answers FAULT with
`(K << 8) | c` and no data; the command stream is not touched. Everything else is unspecified (free values, log 4). -/
def Obligations.FaultEntry : Prop :=
  ∀ (i : Instr) (s t : State), isCommand i = true → s.faulted = false → exec i s = .next t → t.faulted = true →
    ∃ c ∈ blockCauses, t.flt.kind = c.kind ∧ t.flt.cause = c.code ∧
      t.resps = s.resps ++ [⟨0xFF#8, t.flt.value, []⟩] ∧
      t.flt.value.toNat = c.kind.toNat * 256 + c.code.toNat ∧
      t.cmdIn = s.cmdIn ∧ t.resetIn = s.resetIn ∧ t.hostOut = s.hostOut

/-- 60_exceptions.md R298: while a fault is recorded every word but SYS.RESET and SYS.STAT is answered with the recorded
fault, its bytes and data consumed, and no state changes. -/
def Obligations.RefusalWhileFaulted : Prop :=
  ∀ (s : State) (w : CmdWord) (d rest : List Byte), s.resetIn = false → s.faulted = true →
    takeCommand s.cmdIn = some (w, d, rest) → w.op ≠ 0x01#8 → w.op ≠ 0x02#8 →
    step s = .next { s with cmdIn := rest, resps := s.resps ++ [⟨0xFF#8, s.flt.value, []⟩] }

/-- 60_exceptions.md R299: only SYS.RESET or the reset input leave the faulted condition, and both clear all state.
SYS.RESET runs then whatever `n` and `v` are (46_system_and_macros.md R260, 60_exceptions.md R291). -/
def Obligations.OnlyResetClearsFault : Prop :=
  (∀ s t : State, s.faulted = true → step s = .next t →
    t.flt = s.flt ∨
    ((s.resetIn = true ∨ ∃ n a b c d rest, s.cmdIn = 0x01#8 :: n :: a :: b :: c :: d :: rest) ∧ atReset t)) ∧
  (∀ (s : State) (n a b c d : Byte) (rest : List Byte), s.resetIn = false → s.faulted = true →
    s.cmdIn = 0x01#8 :: n :: a :: b :: c :: d :: rest →
    step s = exec .sysReset { s with cmdIn := rest } ∧
    ∃ t, step s = .next t ∧ atReset t ∧ t.cmdIn = rest ∧ t.resps = s.resps ++ [⟨0x00#8, 0, []⟩]) ∧
  (∀ s : State, s.faulted = true → atReset s.assertReset)

/-- 10_state.md R26, 46_system_and_macros.md R261: SYS.STAT answers STATUS, field by field, and changes nothing; bits 4:0
mirror the flags unless a fault is recorded. With a fault recorded it runs whatever `n` and `v` are. -/
def Obligations.StatusRegister : Prop :=
  (∀ s : State, exec .sysStat s = .next { s with resps := s.resps ++ [⟨0x00#8, statusWord s, []⟩] }) ∧
  (∀ s : State,
    (s.faulted = false →
      (statusWord s).getLsbD 0 = s.ft.done ∧ (statusWord s).getLsbD 1 = s.tb.treeV ∧
      (statusWord s).getLsbD 2 = s.pg.ptV ∧ (statusWord s).getLsbD 3 = s.pg.iptV ∧
      (statusWord s).getLsbD 4 = s.dc.encAct) ∧
    (statusWord s).getLsbD 5 = decide (s.flt.kind ≠ 0) ∧ (statusWord s).extractLsb' 6 2 = 0 ∧
    (statusWord s).extractLsb' 8 8 = s.flt.cause ∧ (statusWord s).extractLsb' 16 4 = s.flt.kind ∧
    (statusWord s).extractLsb' 20 12 = 0) ∧
  statusWord State.reset = 0 ∧
  (∀ (s : State) (n a b c d : Byte) (rest : List Byte), s.resetIn = false → s.faulted = true →
    s.cmdIn = 0x02#8 :: n :: a :: b :: c :: d :: rest → step s = exec .sysStat { s with cmdIn := rest })

/-- 30_encoding.md R88, R89: every command answers once; EOS is BR.NEXT's only, ABSENT is PG.RD's only, FAULT carries the
recorded fault and no data, and no other status is produced. -/
def Obligations.OneResponsePerCommand : Prop :=
  ∀ (i : Instr) (s t : State), isCommand i = true → exec i s = .next t →
    ∃ r, t.resps = s.resps ++ [r] ∧
      ((r.status = 0x00#8 ∧ (t.faulted = false ∨ i = .sysStat)) ∨
       (r.status = 0x01#8 ∧ i = .brNext ∧ r.value = 0 ∧ r.data = []) ∨
       (r.status = 0x02#8 ∧ (∃ v, i = .pgRd v) ∧ r.value = 0 ∧ r.data = []) ∨
       (r.status = 0xFF#8 ∧ t.faulted = true ∧ r.value = t.flt.value ∧ r.data = []))

/-- 10_state.md R25: which command sets and which clears each sequencing flag, when it completes; no other command
changes it. -/
def Obligations.FlagTable : Prop :=
  ∀ (i : Instr) (s t : State), isCommand i = true → s.faulted = false → exec i s = .next t → t.faulted = false →
    (t.ft.done = match i with | .ftEnd => true | .ftClr | .sysReset => false | _ => s.ft.done) ∧
    (t.tb.treeV = match i with | .tbBuild | .hcDes _ => true | .sysReset => false | _ => s.tb.treeV) ∧
    (t.pg.ptV = match i with | .pgGen => true | .tbBuild | .hcDes _ | .sysReset => false | _ => s.pg.ptV) ∧
    (t.pg.iptV =
      match i with | .pgInv => true | .tbBuild | .hcDes _ | .pgGen | .sysReset => false | _ => s.pg.iptV) ∧
    (t.dc.encAct = match i with | .dcEbeg => true | .dcEend | .sysReset => false | _ => s.dc.encAct)

/-! ### Frames (10_state.md R42) -/

/-- SYS.STAT, BW.POS, BW.RDBUF, BR.POS, FT.RD and PG.RD write nothing: only a response is added. -/
def Obligations.FrameReadOnly : Prop :=
  ∀ (s t : State) (v : Word) (i : Instr), i ∈ [.sysStat, .bwPos, .bwRdbuf, .brPos, .ftRd v, .pgRd v] →
    exec i s = .next t → t.faulted = s.faulted → t = { s with resps := t.resps }

/-- BW.CLR, BW.WBIT, BW.WBITS and BW.FLUSH write the writer only, and the last three only append to WBUF
(10_state.md R36, R42). -/
def Obligations.FrameWriter : Prop :=
  ∀ (s t : State) (n : Byte) (v : Word) (i : Instr), i ∈ [.bwClr, .bwWbit v, .bwWbits n v, .bwFlush] →
    exec i s = .next t → t.faulted = false →
    t = { s with bw := t.bw, resps := t.resps } ∧ (i ≠ .bwClr → s.bw.buf <+: t.bw.buf)

/-- BR.LOAD, BR.NEXT and BR.RBITS write the reader only, and the last two only the cursor (10_state.md R37, R42). -/
def Obligations.FrameReader : Prop :=
  ∀ (s t : State) (n : Byte) (d : List Byte) (i : Instr), i ∈ [.brLoad d, .brNext, .brRbits n] →
    exec i s = .next t → t.faulted = false →
    t = { s with br := t.br, resps := t.resps } ∧
      (i ≠ .brLoad d → t.br.buf = s.br.buf ∧ t.br.len = s.br.len)

/-- FT.CLR, FT.UPD and FT.END write the frequency unit only; FT.UPD leaves the flag, FT.END the table and the buffer. -/
def Obligations.FrameFrequency : Prop :=
  ∀ (s t : State) (d : List Byte) (i : Instr), i ∈ [.ftClr, .ftUpd d, .ftEnd] →
    exec i s = .next t → t.faulted = false →
    t = { s with ft := t.ft, resps := t.resps } ∧
      (i = .ftUpd d → t.ft.done = s.ft.done) ∧ (i = .ftEnd → t.ft.table = s.ft.table ∧ t.ft.inc = s.ft.inc)

/-- TB.BUILD writes the tree unit and clears two flags; PG.GEN writes `pt`, `PT_V` and clears `IPT_V`; PG.INV writes
`ipt` and `IPT_V` (10_state.md R42). -/
def Obligations.FrameTree : Prop :=
  ∀ s t : State, t.faulted = false →
    (exec .tbBuild s = .next t →
      t = { s with tb := t.tb, pg := { s.pg with ptV := false, iptV := false }, resps := t.resps }) ∧
    (exec .pgGen s = .next t →
      t = { s with pg := { s.pg with pt := t.pg.pt, ptV := true, iptV := false }, resps := t.resps }) ∧
    (exec .pgInv s = .next t →
      t = { s with pg := { s.pg with ipt := t.pg.ipt, iptV := true }, resps := t.resps })

/-- HC.SER writes the writer; HC.DES the reader, the tree and its flag and clears two flags; DC.EBEG the writer and the
codec's buffer and flag; DC.EUPD the writer and the buffer; DC.EEND the writer and the flag; DC.DEC the reader and the
accumulator (10_state.md R42). -/
def Obligations.FrameCodecs : Prop :=
  ∀ (s t : State) (d : List Byte), t.faulted = false →
    (exec .hcSer s = .next t → t = { s with bw := t.bw, resps := t.resps }) ∧
    (exec (.hcDes d) s = .next t →
      t = { s with
        br := t.br, tb := { s.tb with tree := t.tb.tree, treeV := true }
        pg := { s.pg with ptV := false, iptV := false }, resps := t.resps }) ∧
    (exec .dcEbeg s = .next t →
      t = { s with bw := t.bw, dc := { s.dc with inc := [], encAct := true }, resps := t.resps }) ∧
    (exec (.dcEupd d) s = .next t →
      t = { s with bw := t.bw, dc := { s.dc with inc := t.dc.inc }, resps := t.resps } ∧ s.bw.buf <+: t.bw.buf) ∧
    (exec .dcEend s = .next t →
      t = { s with bw := t.bw, dc := { s.dc with encAct := false }, resps := t.resps } ∧ s.bw.buf <+: t.bw.buf) ∧
    (exec (.dcDec d) s = .next t →
      t = { s with br := t.br, dc := { s.dc with daccCode := 0, daccLen := 0 }, resps := t.resps })

/-! ### BitWriter and BitReader -/

/-- BW.CLR (40_bitstream.md R121), BR.LOAD (R130), FT.CLR (41_frequency.md R154) and DC.EBEG (45_data_codec.md R232). -/
def Obligations.ClearAndLoad : Prop :=
  ∀ s : State, s.faulted = false →
    (s.dc.encAct = false → exec .bwClr s = .next (answer 0 [] { s with bw := ⟨0, 0, []⟩ })) ∧
    (∀ d : List Byte, exec (.brLoad d) s = .next (answer 0 [] { s with br := ⟨d, BitVec.ofNat 32 d.length, 0, 0⟩ })) ∧
    (exec .ftClr s = .next (answer 0 [] { s with ft := ⟨[], [], false⟩ })) ∧
    (s.pg.ptV = true → s.dc.encAct = false →
      exec .dcEbeg s =
        .next (answer 0 [] { s with bw := ⟨0, 0, []⟩, dc := { s.dc with inc := [], encAct := true } }))

/-- BW.WBIT (40_bitstream.md R122): the bit joins the writer's content at its end. -/
def Obligations.WriteBit : Prop :=
  ∀ (s : State) (v : Word), s.faulted = false → s.dc.encAct = false → v.toNat ≤ 1 →
    (s.bw.content.length + 1) / 8 ≤ params.maxBuf →
    ∃ w, exec (.bwWbit v) s = .next (answer 0 [] { s with bw := w }) ∧
      w.content = s.bw.content ++ [decide (v = 1)] ∧ w.cnt.val = (s.bw.cnt.val + 1) % 8

/-- BW.WBITS (40_bitstream.md R123): the `n` low bits of the value join the content, most significant first; a group may
be split anywhere (R128 (c)); after `m` bits written to a clear writer WBUF has `m div 8` bytes and `bw_cnt` is `m mod 8`
(R128 (a)). -/
def Obligations.WriteBits : Prop :=
  (∀ (s : State) (n : Byte) (v : Word), s.faulted = false → s.dc.encAct = false → n.toNat ≤ 32 →
    (s.bw.content.length + n.toNat) / 8 ≤ params.maxBuf →
    ∃ w, exec (.bwWbits n v) s = .next (answer 0 [] { s with bw := w }) ∧
      w.content = s.bw.content ++ (List.range n.toNat).map (fun j => v.getLsbD (n.toNat - 1 - j)) ∧
      w.cnt.val = (s.bw.cnt.val + n.toNat) % 8) ∧
  (∀ (w : BW) (v : Word) (n j : Nat), j ≤ n →
    w.writeBits params v n = (w.writeBits params (v >>> j) (n - j)).bind fun w' => w'.writeBits params v j) ∧
  (∀ (ws : List Write) (w : BW), writeMix params BW.clear ws = .ok w →
    w.buf.length = (ws.flatMap Write.bits).length / 8 ∧ w.cnt.val = (ws.flatMap Write.bits).length % 8)

/-- BW.FLUSH (40_bitstream.md R125, R128 (b)): zeros bring the content to whole bytes; with no pending bits nothing
changes; a second flush changes nothing. -/
def Obligations.Flush : Prop :=
  ∀ s : State, s.faulted = false → s.dc.encAct = false → (s.bw.cnt.val = 0 ∨ s.bw.buf.length < params.maxBuf) →
    ∃ w, exec .bwFlush s = .next (answer 0 [] { s with bw := w }) ∧
      bitsOfBytes w.buf = s.bw.content ++ List.replicate ((8 - s.bw.cnt.val) % 8) false ∧ w.cnt = 0 ∧
      (s.bw.cnt.val = 0 → w = s.bw) ∧
      ∀ t, t.bw = w → t.faulted = false → t.dc.encAct = false → exec .bwFlush t = .next (answer 0 [] t)

/-- BW.POS (40_bitstream.md R126), BW.RDBUF (R127) and BR.POS (R134) answer the registers and change nothing. -/
def Obligations.ReadBacks : Prop :=
  ∀ s : State, s.faulted = false →
    exec .bwPos s = .next (answer (BitVec.ofNat 32 s.bw.cnt.val) [] s) ∧
    exec .bwRdbuf s = .next (answer (BitVec.ofNat 32 s.bw.buf.length) s.bw.buf s) ∧
    exec .brPos s = .next (answer s.br.byte [BitVec.ofNat 8 s.br.bit.val] s)

/-- 20_memory.md R75: what is written to a clear writer in any mix and flushed is read back bit for bit, then the
padding zeros, then the end of the stream. -/
def Obligations.WriterReaderSymmetry : Prop :=
  ∀ (ws : List Write) (w w' : BW), writeMix params BW.clear ws = .ok w → w.flush params = .ok w' →
    w'.buf.length = byteCount (ws.flatMap Write.bits).length ∧
    ∃ r r', BR.nextBits (ws.flatMap Write.bits).length (BR.load w'.buf) = some (ws.flatMap Write.bits, r) ∧
      BR.nextBits (8 * byteCount (ws.flatMap Write.bits).length - (ws.flatMap Write.bits).length) r =
        some (List.replicate (8 * byteCount (ws.flatMap Write.bits).length - (ws.flatMap Write.bits).length) false, r') ∧
      r'.nextBit = none

/-- BR.NEXT (40_bitstream.md R131): the next unread bit and the cursor one on; at the end EOS and nothing moves. -/
def Obligations.ReadBit : Prop :=
  ∀ s : State, s.faulted = false → brOk s.br = true →
    (∀ b bs, s.br.unread = b :: bs →
      ∃ r, exec .brNext s = .next (answer (if b then 1 else 0) [] { s with br := r }) ∧ r.unread = bs ∧
        brOk r = true ∧ r.buf = s.br.buf ∧ r.len = s.br.len) ∧
    (s.br.unread = [] → exec .brNext s = .next (respond 0x01#8 0 [] s))

/-- BR.RBITS (40_bitstream.md R133): the next `n` bits, MSB-first, the last byte zero-filled; ReadPastEnd when fewer
remain. -/
def Obligations.ReadBits : Prop :=
  ∀ (s : State) (n : Byte), s.faulted = false → brOk s.br = true →
    (n.toNat ≤ s.br.unread.length →
      ∃ r out, exec (.brRbits n) s = .next (answer 0 out { s with br := r }) ∧
        bitsOfBytes out = s.br.unread.take n.toNat ++ padding n.toNat ∧ r.unread = s.br.unread.drop n.toNat ∧
        brOk r = true ∧ r.buf = s.br.buf ∧ r.len = s.br.len) ∧
    (s.br.unread.length < n.toNat → exec (.brRbits n) s = .next (raise .readPastEnd s))

/-! ### FrequencyTable -/

/-- FT.UPD (41_frequency.md R152, R155, R156): kept bytes and chunk are a text and an incomplete rest; each scalar of
the text is counted, the rest is kept and its length answered. -/
def Obligations.CountChunk : Prop :=
  ∀ (s : State) (d : List Byte) (t : List Sym) (rest : List Byte), s.faulted = false → s.ft.done = false →
    tableOk s.ft.table = true → (∀ x ∈ t, isScalar x = true) → head rest = .incomplete →
    s.ft.inc ++ d = textBytes t ++ rest → (∀ x, countIn s.ft.table x + t.count x < 2 ^ params.weightW) →
    ∃ table, exec (.ftUpd d) s =
        .next (answer (BitVec.ofNat 32 rest.length) [] { s with ft := ⟨table, rest, false⟩ }) ∧
      tableOk table = true ∧ ∀ x, countIn table x = countIn s.ft.table x + t.count x

/-- 41_frequency.md R153, R156, 45_data_codec.md R233, R234, 60_exceptions.md R292: after a text, ill-formed bytes raise
InvalidUtf8 in FT.UPD and DC.EUPD; a scalar whose count is the greatest raises WeightOverflow in FT.UPD; in DC.EUPD a
scalar without an entry raises SymbolNotInTable and one whose codeword does not fit in WBUF SizeOverflow. -/
def Obligations.TextFaults : Prop :=
  ∀ (s : State) (d : List Byte) (t : List Sym) (x : List Byte), s.faulted = false → (∀ y ∈ t, isScalar y = true) →
    (s.ft.done = false → tableOk s.ft.table = true → s.ft.inc ++ d = textBytes t ++ x →
      (∀ y, countIn s.ft.table y + t.count y < 2 ^ params.weightW) →
      (head x = .invalid → exec (.ftUpd d) s = .next (raise .invalidUtf8 s)) ∧
      (∀ y k, head x = .complete y k → countIn s.ft.table y + t.count y = 2 ^ params.weightW - 1 →
        exec (.ftUpd d) s = .next (raise .weightOverflow s))) ∧
    (s.dc.encAct = true → s.dc.inc ++ d = textBytes t ++ x → (∀ y ∈ t, (mapGet y s.pg.pt).isSome = true) →
      (s.bw.content.length + (encodedBits s.pg.pt t).length) / 8 ≤ params.maxBuf →
      (head x = .invalid → exec (.dcEupd d) s = .next (raise .invalidUtf8 s)) ∧
      (∀ y k, head x = .complete y k → mapGet y s.pg.pt = none →
        exec (.dcEupd d) s = .next (raise .symbolNotInTable s)) ∧
      (∀ y k c, head x = .complete y k → mapGet y s.pg.pt = some c →
        params.maxBuf < (s.bw.content.length + (encodedBits s.pg.pt t).length + c.length) / 8 →
        exec (.dcEupd d) s = .next (raise .sizeOverflow s)))

/-- FT.END (41_frequency.md R157): closes a pass that ends on a boundary, else IncompleteTail. -/
def Obligations.EndCount : Prop :=
  ∀ s : State, s.faulted = false → s.ft.done = false →
    (s.ft.inc = [] → exec .ftEnd s = .next (answer 0 [] { s with ft := { s.ft with done := true } })) ∧
    (s.ft.inc ≠ [] → exec .ftEnd s = .next (raise .incompleteTail s))

/-- FT.RD (41_frequency.md R159) answers the count in eight big-endian bytes, 0 for an absent symbol; PG.RD
(43_prefix_table.md R197) the code and its length, or ABSENT. -/
def Obligations.TableReads : Prop :=
  ∀ (s : State) (v : Word), s.faulted = false →
    (∃ out, exec (.ftRd v) s = .next (answer 0 out s) ∧ out.length = 8 ∧
      (countIn s.ft.table v < 2 ^ params.weightW → bigEndian out = countIn s.ft.table v)) ∧
    (s.pg.ptV = true →
      (∀ c, mapGet v s.pg.pt = some c → exec (.pgRd v) s = .next (answer c.code [BitVec.ofNat 8 c.length] s)) ∧
      (mapGet v s.pg.pt = none → exec (.pgRd v) s = .next (respond 0x02#8 0 [] s)))

/-- 41_frequency.md R158: any cutting of a byte sequence into chunks leaves the same table, or the same fault, as the
whole sequence at once. -/
def Obligations.CountChunkIndependence : Prop :=
  ∀ (s : State) (chunks : List (List Byte)),
    ∃ t t', runCommands (execFtClr :: (chunks.map execFtUpd ++ [execFtEnd])) s = .next t ∧
      runCommands [execFtClr, execFtUpd chunks.flatten, execFtEnd] s = .next t' ∧
      t.flt = t'.flt ∧ (t.faulted = false → t.ft = t'.ft)

/-! ### Tree Builder -/

/-- TB.BUILD (42_tree_builder.md R174 to R180): the root is what remains of the queue of leaves, keyed (count, 0, symbol),
after one merge step fewer than there are symbols (a merge step: MergeTakesTwoLeast); the leaves are the table's entries,
weights add up, the left child is never the heavier, the root weighs what was counted; older tables are no longer
valid. -/
def Obligations.BuildTree : Prop :=
  ∀ s : State, s.faulted = false → s.ft.done = true → s.dc.encAct = false → tableOk s.ft.table = true →
    s.ft.table ≠ [] → totalCount s.ft.table < 2 ^ params.weightW →
    ∃ root merges, exec .tbBuild s =
        .next (answer (BitVec.ofNat 32 s.ft.table.length) []
          { s with tb := ⟨some root, true, [], merges⟩, pg := { s.pg with ptV := false, iptV := false } }) ∧
      (leaves root).Perm s.ft.table ∧ weightsAdd root = true ∧ lighterLeft root = true ∧
      nodeWeight root = totalCount s.ft.table ∧ merges.toNat + 1 = s.ft.table.length ∧
      ∃ start last key, start.mq.Perm (leafQueue s.ft.table) ∧ mqSorted start.mq ∧ start.seq = 0 ∧
        mergeSteps params (s.ft.table.length - 1) start = .ok last ∧ last.mq = [⟨root, key⟩] ∧ last.seq = merges

/-- 42_tree_builder.md R172, R176, R179: keys are ordered by weight, then kind, then tie; a merge takes the entry of least
key as the left child and the next as the right, and puts back their parent under the key (sum, 1, mq_seq). -/
def Obligations.MergeTakesTwoLeast : Prop :=
  (∀ a b : Key, a.lt b = true ↔
    a.weight < b.weight ∨ (a.weight = b.weight ∧ (a.kind < b.kind ∨ (a.kind = b.kind ∧ a.tie < b.tie)))) ∧
  ∀ b : Build, mqSorted b.mq → 2 ≤ b.mq.length → (∀ e ∈ b.mq, e.key.kind = 1 → e.key.tie < b.seq.toNat) →
    ∃ x y rest, b.mq.Perm (x :: y :: rest) ∧ (∀ e ∈ y :: rest, x.key.lt e.key = true) ∧
      (∀ e ∈ rest, y.key.lt e.key = true) ∧
      (2 ^ params.weightW ≤ nodeWeight x.node + nodeWeight y.node → mergeStep params b = .error .weightOverflow) ∧
      (nodeWeight x.node + nodeWeight y.node < 2 ^ params.weightW →
        ∃ b', mergeStep params b = .ok b' ∧ mqSorted b'.mq ∧ b'.seq = b.seq + 1 ∧
          b'.mq.Perm (⟨.internal (nodeWeight x.node + nodeWeight y.node) x.node y.node,
            ⟨nodeWeight x.node + nodeWeight y.node, 1, b.seq.toNat⟩⟩ :: rest))

/-- 42_tree_builder.md R174, R176: an empty table is EmptyAlphabet; counts whose sum does not fit are WeightOverflow. -/
def Obligations.BuildFaults : Prop :=
  ∀ s : State, s.faulted = false → s.ft.done = true → s.dc.encAct = false →
    (s.ft.table = [] → exec .tbBuild s = .next (raise .emptyAlphabet s)) ∧
    (tableOk s.ft.table = true → 2 ^ params.weightW ≤ totalCount s.ft.table →
      exec .tbBuild s = .next (raise .weightOverflow s))

/-! ### PrefixTable Generator -/

/-- PG.GEN (43_prefix_table.md R191 to R193): the table lists exactly the codewords of the tree. -/
def Obligations.GenerateTable : Prop :=
  ∀ (s : State) (n : Node), s.faulted = false → s.tb.treeV = true → s.dc.encAct = false → s.tb.tree = some n →
    depth n ≤ 32 → (symbols n).Nodup →
    ∃ table, exec .pgGen s =
        .next (answer (BitVec.ofNat 32 (leaves n).length) []
          { s with pg := { s.pg with pt := table, ptV := true, iptV := false } }) ∧
      mapSorted symRank table = true ∧
      ∀ x c, mapGet x table = some c ↔ ∃ path, (x, path) ∈ codewords n ∧ c = codeOf path

/-- 43_prefix_table.md R194, 60_exceptions.md R292: a tree deeper than 32 is CodeTooLong, a repeated symbol
DuplicateSymbol; of a tree that is both, the first bad visit in pre-order decides. -/
def Obligations.GenerateFaults : Prop :=
  ∀ (s : State) (n : Node), s.faulted = false → s.tb.treeV = true → s.dc.encAct = false → s.tb.tree = some n →
    (32 < depth n → (symbols n).Nodup → exec .pgGen s = .next (raise .codeTooLong s)) ∧
    (depth n ≤ 32 → ¬ (symbols n).Nodup → exec .pgGen s = .next (raise .duplicateSymbol s)) ∧
    (∀ before v after, visits n 0 = before ++ v :: after → visitsClean before →
      (∀ k, v = .node k → 32 ≤ k → exec .pgGen s = .next (raise .codeTooLong s)) ∧
      (∀ x, v = .leaf x → .leaf x ∈ before → exec .pgGen s = .next (raise .duplicateSymbol s)))

/-- 43_prefix_table.md R198: a generated table is prefix-free; lengths are 1 to 32 and codes fit in them; the code of a
tree with two leaves or more is complete and that of a single leaf half so; a length is its leaf's depth (1 for a root
leaf); weights do not matter. -/
def Obligations.TableLaws : Prop :=
  ∀ (n : Node) (table : List (Sym × Code)), genTable n = .ok table →
    (∀ a b ca cb, a ≠ b → mapGet a table = some ca → mapGet b table = some cb → ¬ codeBits ca <+: codeBits cb) ∧
    (∀ a c, mapGet a table = some c → 1 ≤ c.length ∧ c.length ≤ 32 ∧ c.code.toNat < 2 ^ c.length) ∧
    (table.map fun e => 2 ^ (32 - e.2.length)).sum = (if (leaves n).length = 1 then 2 ^ 31 else 2 ^ 32) ∧
    (∀ a c, mapGet a table = some c → ∃ path, (a, path) ∈ paths n ∧ c.length = max path.length 1) ∧
    genTable (forgetWeights n) = .ok table

/-- PG.INV (43_prefix_table.md R195, R196): the inverse of a generated table, which never faults; a table that repeats a
code is DuplicateCode. -/
def Obligations.InvertTable : Prop :=
  ∀ s : State, s.faulted = false → s.pg.ptV = true →
    (pgOk s.tb s.pg →
      ∃ inv, exec .pgInv s = .next (answer 0 [] { s with pg := { s.pg with ipt := inv, iptV := true } }) ∧
        mapSorted codeRank inv = true ∧ ∀ c x, mapGet c inv = some x ↔ mapGet x s.pg.pt = some c) ∧
    (mapSorted symRank s.pg.pt = true →
      (∃ x y c, x ≠ y ∧ mapGet x s.pg.pt = some c ∧ mapGet y s.pg.pt = some c) →
      exec .pgInv s = .next (raise .duplicateCode s))

/-! ### TreeHeaderCodec -/

/-- HC.SER (44_tree_header.md R212 to R214): the tree's tokens, padded once, `ceil((34 A - 1) / 8)` bytes for A leaves;
SizeOverflow when they do not fit in MAX_BUF bytes. -/
def Obligations.SerialiseHeader : Prop :=
  ∀ (s : State) (n : Node), s.faulted = false → s.tb.treeV = true → s.dc.encAct = false → s.tb.tree = some n →
    ((tokens n).length ≤ 8 * params.maxBuf →
      ∃ h, exec .hcSer s = .next (answer (BitVec.ofNat 32 h.length) h { s with bw := ⟨0, 0, h⟩ }) ∧
        bitsOfBytes h = tokens n ++ padding (tokens n).length ∧ h.length = (34 * (leaves n).length - 1 + 7) / 8) ∧
    (8 * params.maxBuf < (tokens n).length → exec .hcSer s = .next (raise .sizeOverflow s))

/-- HC.DES (44_tree_header.md R217, R218, R221, R222): a header that begins with a tree's tokens gives that tree with
weights 0; the cursor stands after the tree. -/
def Obligations.DeserialiseHeader : Prop :=
  ∀ (s : State) (d : List Byte) (n : Node) (rest : List Bool), s.faulted = false → s.dc.encAct = false →
    d.length ≤ params.maxBuf → scalarLeaves n = true → bitsOfBytes d = tokens n ++ rest →
    ∃ r, exec (.hcDes d) s =
        .next (answer 0 []
          { s with
            br := r
            tb := { s.tb with tree := some (forgetWeights n), treeV := true }
            pg := { s.pg with ptV := false, iptV := false } }) ∧
      brOk r = true ∧ r.buf = d ∧ r.unread = rest

/-- 44_tree_header.md R219, R220, 60_exceptions.md R292: in bit order, a header that ends inside a token is HeaderTruncated,
one with a field that is no scalar InvalidScalar whatever follows the field, and HC.DES raises nothing else. That it never
raises CapacityExceeded (R217, 60_exceptions.md R287) holds at the default MAX_NODES, unbounded (00_scope.md R4; the
model's choice, log 7). -/
def Obligations.HeaderFaults : Prop :=
  ∀ (s : State) (d : List Byte), s.faulted = false → s.dc.encAct = false → d.length ≤ params.maxBuf →
    (∀ n before tok after part, tokenList n = before ++ tok :: after → scalarTokens before →
      part <+: itemBits tok → part ≠ itemBits tok → bitsOfBytes d = before.flatMap itemBits ++ part →
      exec (.hcDes d) s = .next (raise .headerTruncated s)) ∧
    (∀ n before x after rest, tokenList n = before ++ .leaf x :: after → scalarTokens before → isScalar x = false →
      bitsOfBytes d = before.flatMap itemBits ++ (itemBits (.leaf x) ++ rest) →
      exec (.hcDes d) s = .next (raise .invalidScalar s)) ∧
    (∀ t, exec (.hcDes d) s = .next t → t.faulted = true →
      t.flt = Cause.headerTruncated.flt ∨ t.flt = Cause.invalidScalar.flt)

/-- 44_tree_header.md R224: HC.DES of what HC.SER returned gives the same shape and symbols with weights 0; HC.SER after
an accepted HC.DES returns the bits that were consumed, packed and zero-padded. -/
def Obligations.HeaderRoundTrip : Prop :=
  (∀ (s t : State) (n : Node), s.faulted = false → s.tb.tree = some n → scalarLeaves n = true →
    exec .hcSer s = .next t → t.faulted = false →
    ∃ u, exec (.hcDes (lastResponse t).data) t = .next u ∧ u.faulted = false ∧ u.tb.tree = some (forgetWeights n)) ∧
  (∀ (s t : State) (d : List Byte), s.faulted = false → d.length ≤ params.maxBuf →
    exec (.hcDes d) s = .next t → t.faulted = false →
    ∃ u, exec .hcSer t = .next u ∧ u.faulted = false ∧
      (lastResponse u).data = packBits ((bitsOfBytes d).take (8 * t.br.byte.toNat + t.br.bit.val)))

/-! ### DataCodec -/

/-- DC.EUPD (45_data_codec.md R233, R234): the codewords of the chunk's scalars join the writer's content; the
incomplete rest is kept and its length answered. -/
def Obligations.EncodeChunk : Prop :=
  ∀ (s : State) (d : List Byte) (t : List Sym) (rest : List Byte), s.faulted = false → s.dc.encAct = true →
    (∀ x ∈ t, isScalar x = true) → head rest = .incomplete → s.dc.inc ++ d = textBytes t ++ rest →
    (∀ x ∈ t, (mapGet x s.pg.pt).isSome = true) →
    (s.bw.content.length + (encodedBits s.pg.pt t).length) / 8 ≤ params.maxBuf →
    ∃ w, exec (.dcEupd d) s =
        .next (answer (BitVec.ofNat 32 rest.length) [] { s with bw := w, dc := { s.dc with inc := rest } }) ∧
      w.content = s.bw.content ++ encodedBits s.pg.pt t

/-- DC.EEND (45_data_codec.md R237, R238): the payload is the content padded to whole bytes and the control byte; one that
does not fit in MAX_BUF bytes is SizeOverflow; a text cut inside a sequence is IncompleteTail. -/
def Obligations.EndEncode : Prop :=
  ∀ s : State, s.faulted = false → s.dc.encAct = true →
    (s.dc.inc = [] → s.bw.content.length + 8 ≤ 8 * params.maxBuf →
      ∃ w, exec .dcEend s =
          .next (answer (BitVec.ofNat 32 w.buf.length) w.buf { s with bw := w, dc := { s.dc with encAct := false } }) ∧
        isPayload s.bw.content w.buf ∧ w.cnt = 0) ∧
    (s.dc.inc = [] → 8 * params.maxBuf < s.bw.content.length + 8 →
      exec .dcEend s = .next (raise .sizeOverflow s)) ∧
    (s.dc.inc ≠ [] → exec .dcEend s = .next (raise .incompleteTail s))

/-- DC.DEC (45_data_codec.md R241 to R244): a payload whose meaningful bits are the codewords of a text decodes to the
text; the data bytes are in RBUF, the cursor after the meaningful bits. -/
def Obligations.DecodePayload : Prop :=
  ∀ (s : State) (n : Node) (t : List Sym) (body : List Byte) (k : Byte), s.faulted = false → s.pg.iptV = true →
    tablesOf n s.pg → body.length < params.maxBuf → k.toNat ≤ 8 → (∀ x ∈ t, (mapGet x s.pg.pt).isSome = true) →
    decodedBits body k = encodedBits s.pg.pt t → (textBytes t).length ≤ params.maxBuf →
    ∃ r, exec (.dcDec (body ++ [k])) s =
        .next (answer 0 (textBytes t) { s with br := r, dc := { s.dc with daccCode := 0, daccLen := 0 } }) ∧
      brOk r = true ∧ r.buf = body ∧ r.unread = (bitsOfBytes body).drop (encodedBits s.pg.pt t).length

/-- 45_data_codec.md R241, R242, R245, R246, 30_encoding.md R103: PayloadTooShort; BadControl; after a text's codewords,
ExhaustedMidSymbol when the bits end inside a codeword, or under a single-symbol table after a `1` and fewer than 31 more
bits, NoMatch when 31 or more follow that `1`, and SizeOverflow at a codeword whose symbol takes the text over MAX_BUF. -/
def Obligations.DecodeFaults : Prop :=
  ∀ s : State, s.faulted = false → s.pg.iptV = true →
    exec (.dcDec []) s = .next (raise .payloadTooShort s) ∧
    (∀ (body : List Byte) (k : Byte), 8 < k.toNat → exec (.dcDec (body ++ [k])) s = .next (raise .badControl s)) ∧
    (∀ (n : Node) (t : List Sym) (body : List Byte) (k : Byte) (more : List Bool), tablesOf n s.pg →
      body.length < params.maxBuf → k.toNat ≤ 8 → (∀ x ∈ t, (mapGet x s.pg.pt).isSome = true) →
      (textBytes t).length ≤ params.maxBuf → decodedBits body k = encodedBits s.pg.pt t ++ more →
      (∀ x p q, (x, p ++ q) ∈ codewords n → q ≠ [] → p ≠ [] → more = p →
        exec (.dcDec (body ++ [k])) s = .next (raise .exhaustedMidSymbol s)) ∧
      (∀ x w bits, n = .leaf x w → more = true :: bits →
        (31 ≤ bits.length → exec (.dcDec (body ++ [k])) s = .next (raise .noMatch s)) ∧
        (bits.length < 31 → exec (.dcDec (body ++ [k])) s = .next (raise .exhaustedMidSymbol s))) ∧
      (∀ x c bits, mapGet x s.pg.pt = some c → more = codeBits c ++ bits →
        params.maxBuf < (textBytes t).length + (utf8Enc x).length →
        exec (.dcDec (body ++ [k])) s = .next (raise .sizeOverflow s)))

/-- 45_data_codec.md R241, R246: DC.DEC succeeds only on the codewords of the text it gives. -/
def Obligations.DecodeOnlyCodewords : Prop :=
  ∀ (s t : State) (n : Node) (d : List Byte), s.faulted = false → tablesOf n s.pg → d.length ≤ params.maxBuf →
    exec (.dcDec d) s = .next t → t.faulted = false →
    ∃ text body k, d = body ++ [k] ∧ k.toNat ≤ 8 ∧ (∀ x ∈ text, (mapGet x s.pg.pt).isSome = true) ∧
      decodedBits body k = encodedBits s.pg.pt text ∧ (lastResponse t).data = textBytes text

/-- 45_data_codec.md R235: an encode pass over a text cut in any way returns the same payload, or the same fault, as
over the text uncut. R247: what it returns DC.DEC decodes to the text; the bound is MAX_BUF on the returned data block
(20_memory.md R61). -/
def Obligations.PayloadRoundTrip : Prop :=
  (∀ (s : State) (chunks : List (List Byte)),
    ∃ t t', runCommands (execDcEbeg :: (chunks.map execDcEupd ++ [execDcEend])) s = .next t ∧
      runCommands [execDcEbeg, execDcEupd chunks.flatten, execDcEend] s = .next t' ∧
      t.flt = t'.flt ∧ (t.faulted = false → lastResponse t = lastResponse t' ∧ t = { t' with resps := t.resps })) ∧
  (∀ (s t : State) (text : List Sym) (chunks : List (List Byte)), s.faulted = false → s.pg.iptV = true →
    pgOk s.tb s.pg → (∀ x ∈ text, isScalar x = true) → (∀ x ∈ text, (mapGet x s.pg.pt).isSome = true) →
    chunks.flatten = textBytes text → (textBytes text).length ≤ params.maxBuf →
    runCommands (execDcEbeg :: (chunks.map execDcEupd ++ [execDcEend])) s = .next t → t.faulted = false →
    ∃ u, exec (.dcDec (lastResponse t).data) t = .next u ∧ u.faulted = false ∧
      lastResponse u = ⟨0x00#8, 0, textBytes text⟩)

/-! ### Data items and host-level macros -/

/-- The bit-stream items NODE, LEAF, CODEWORD and CTRL, emitted on their own (30_encoding.md R94 to R103; that they can
be, whatever the sequencing flags are, ENC_ACT = 1 included (45_data_codec.md R231 speaks of commands), what an ill-formed
item does, and that they wait while the reset input is asserted, is the model's choice, log 1, log 17
and log 6). -/
def Obligations.BitStreamItems : Prop :=
  (∀ (s : State) (x : Sym) (c : Word) (l k : Byte) (i : Instr), s.resetIn = true →
    i ∈ [.node, .leaf x, .codeword c l, .ctrl k] →
    ∃ t, exec i s = .next t ∧ atReset t ∧ t.resps = s.resps ∧ t.hostOut = s.hostOut) ∧
  ∀ s : State, s.resetIn = false → s.faulted = false →
    ((s.bw.content.length + 1) / 8 ≤ params.maxBuf →
      ∃ w, exec .node s = .next { s with bw := w } ∧ w.content = s.bw.content ++ [false]) ∧
    (∀ x : Sym,
      (isScalar x = true → (s.bw.content.length + 33) / 8 ≤ params.maxBuf →
        ∃ w, exec (.leaf x) s = .next { s with bw := w } ∧ w.content = s.bw.content ++ true :: msbBits x 32) ∧
      (isScalar x = false → exec (.leaf x) s = .next (raise .invalidScalar s))) ∧
    (∀ (c : Word) (l : Byte),
      (l.toNat ≤ 32 → (s.bw.content.length + l.toNat) / 8 ≤ params.maxBuf →
        ∃ w, exec (.codeword c l) s = .next { s with bw := w } ∧ w.content = s.bw.content ++ msbBits c l.toNat) ∧
      (32 < l.toNat → exec (.codeword c l) s = .next (raise .badCount s))) ∧
    (∀ k : Byte,
      (k.toNat ≤ 8 → s.bw.buf.length < params.maxBuf →
        exec (.ctrl k) s = .next { s with bw := { s.bw with buf := s.bw.buf ++ [if k = 0 then 8 else k] } }) ∧
      (8 < k.toNat → exec (.ctrl k) s = .next (raise .badControl s)))

/-- The container (30_encoding.md R106, R109) and the response record (R88), produced on their own (the model's
choice, log 1). A record that no command produces (R89) is put on the response stream like any other: the model's
choice, log 17. While the reset input is asserted no response is put there (log 6). -/
def Obligations.RecordItems : Prop :=
  (∀ (s : State) (h p x : List Byte), h.length ≤ params.maxBuf → p.length ≤ params.maxBuf →
    ∃ c, exec (.container h p) s = .next { s with hostOut := s.hostOut ++ [.container c] } ∧
      c = be32 (BitVec.ofNat 32 h.length) ++ h ++ be32 (BitVec.ofNat 32 p.length) ++ p ∧
      unpack (c ++ x) = .ok (h, p)) ∧
  (∀ (s : State) (st : Byte) (v : Word) (d : List Byte),
    (s.resetIn = false → exec (.response st v d) s = .next { s with resps := s.resps ++ [⟨st, v, d⟩] }) ∧
    (s.resetIn = true → ∃ t, exec (.response st v d) s = .next t ∧ atReset t ∧ t.resps = s.resps))

/-- FT.COUNT (46_system_and_macros.md R265; run as one step, log 2): every scalar of the text is counted from an empty
table and the pass is closed; nothing outside the frequency unit changes. It stops at the first FAULT and reports it. While
the reset input is asserted it waits (log 6). -/
def Obligations.CountText : Prop :=
  (∀ (s : State) (t : List Sym), s.resetIn = false → s.faulted = false → (∀ x ∈ t, isScalar x = true) →
    (∀ x, t.count x < 2 ^ params.weightW) →
    ∃ u, exec (.ftCount (textBytes t)) s = .next u ∧ u.ft.inc = [] ∧ u.ft.done = true ∧ tableOk u.ft.table = true ∧
      (∀ x, countIn u.ft.table x = t.count x) ∧
      u = { s with ft := u.ft, resps := u.resps, hostOut := s.hostOut ++ [.counted] }) ∧
  (∀ (s : State) (d : List Byte), s.resetIn = false → stopsAtFault (.ftCount d) (countExpansion d) s) ∧
  (∀ (s : State) (d : List Byte), s.resetIn = true →
    ∃ u, exec (.ftCount d) s = .next u ∧ atReset u ∧ u.resps = s.resps ∧ u.hostOut = s.hostOut)

/-- CX.ENCODE (46_system_and_macros.md R266; run as one step, log 2): from any state, the container of the header of the
text's tree and of the payload of its codewords. It stops at the first FAULT and reports it, with no container. While the
reset input is asserted it waits (log 6). -/
def Obligations.EncodeText : Prop :=
  (∀ (s : State) (t : List Sym) (n : Node) (pt : List (Sym × Code)), s.resetIn = false →
    (∀ x ∈ t, isScalar x = true) →
    textTree t = some n → genTable n = .ok pt → (tokens n).length ≤ 8 * params.maxBuf →
    (encodedBits pt t).length + 8 ≤ 8 * params.maxBuf →
    ∃ u h p, exec (.cxEncode (textBytes t)) s = .next u ∧ u.faulted = false ∧
      u.hostOut = s.hostOut ++ [.container (pack h p)] ∧ bitsOfBytes h = tokens n ++ padding (tokens n).length ∧
      isPayload (encodedBits pt t) p) ∧
  (∀ (s : State) (d : List Byte), s.resetIn = false → stopsAtFault (.cxEncode d) (encodeExpansion d) s) ∧
  (∀ (s : State) (d : List Byte), s.resetIn = true →
    ∃ u, exec (.cxEncode d) s = .next u ∧ atReset u ∧ u.resps = s.resps ∧ u.hostOut = s.hostOut)

/-- CX.DECODE (46_system_and_macros.md R267; run as one step, log 2): from any state, the text of a container; a short
container is ContainerTruncated and sends nothing. It stops at the first FAULT and reports it, with no text. While the
reset input is asserted it waits (log 6). -/
def Obligations.DecodeContainer : Prop :=
  (∀ (s : State) (h body x : List Byte) (k : Byte) (n : Node) (pt : List (Sym × Code)) (t : List Sym)
    (rest : List Bool), s.resetIn = false → h.length ≤ params.maxBuf → body.length < params.maxBuf →
    scalarLeaves n = true → bitsOfBytes h = tokens n ++ rest → genTable n = .ok pt → k.toNat ≤ 8 →
    (∀ y ∈ t, (mapGet y pt).isSome = true) →
    decodedBits body k = encodedBits pt t → (textBytes t).length ≤ params.maxBuf →
    ∃ u, exec (.cxDecode (pack h (body ++ [k]) ++ x)) s = .next u ∧ u.faulted = false ∧
      u.hostOut = s.hostOut ++ [.text (textBytes t)]) ∧
  (∀ (s : State) (c : List Byte), unpack c = .error .containerTruncated →
    exec (.cxDecode c) s = .next { s with hostOut := s.hostOut ++ [.failed Cause.containerTruncated.flt] }) ∧
  (∀ (s : State) (c h p : List Byte), s.resetIn = false → unpack c = .ok (h, p) →
    stopsAtFault (.cxDecode c) (decodeExpansion h p) s) ∧
  (∀ (s : State) (c h p : List Byte), s.resetIn = true → unpack c = .ok (h, p) →
    ∃ u, exec (.cxDecode c) s = .next u ∧ atReset u ∧ u.resps = s.resps ∧ u.hostOut = s.hostOut)

/-- 46_system_and_macros.md R269: for every text that CX.ENCODE does not fault on, CX.DECODE of its container gives the
text back (CHUNK at its value, 00_scope.md R4; the text within MAX_BUF, 20_memory.md R61). -/
def Obligations.WholeFlowRoundTrip : Prop :=
  ∀ (s s' u : State) (t : List Sym), s.resetIn = false → s'.resetIn = false → (∀ x ∈ t, isScalar x = true) →
    (textBytes t).length ≤ params.maxBuf →
    exec (.cxEncode (textBytes t)) s = .next u → u.faulted = false →
    ∃ c v, u.hostOut = s.hostOut ++ [.container c] ∧ exec (.cxDecode c) s' = .next v ∧ v.faulted = false ∧
      v.hostOut = s'.hostOut ++ [.text (textBytes t)]

/-! ### Encodings -/

/-- 30_encoding.md R80 to R84: every well-formed command is decoded from its encoding, and the bytes after it are left. -/
def Obligations.DecodeEncode : Prop :=
  ∀ (i : Instr) (rest : List Byte), isCommand i = true → i.wf = true → decode (encode i ++ rest) = .ok (i, rest)

/-- 30_encoding.md R80 to R86: what decodes is a well-formed command, and its encoding stands at the front. -/
def Obligations.EncodeDecode : Prop :=
  ∀ (bs rest : List Byte) (i : Instr), decode bs = .ok (i, rest) →
    isCommand i = true ∧ i.wf = true ∧ bs = encode i ++ rest

/-- 30_encoding.md R88, R94 to R96, R99, R103, R106: every well-formed data item is decoded from its encoding. -/
def Obligations.FormatRoundTrip : Prop :=
  (∀ bits, decodeToken (itemBits .node ++ bits) = .ok (.node, bits)) ∧
  (∀ x bits, (Instr.leaf x).wf = true → decodeToken (itemBits (.leaf x) ++ bits) = .ok (.leaf x, bits)) ∧
  (∀ c l bits, (Instr.codeword c l).wf = true →
    decodeCodeword l (itemBits (.codeword c l) ++ bits) = .ok (.codeword c l, bits)) ∧
  (∀ k b, (Instr.ctrl k).wf = true → encode (.ctrl k) = [b] → decodeCtrl b = .ok (.ctrl k)) ∧
  (∀ h p x, (Instr.container h p).wf = true →
    decodeContainer (encode (.container h p) ++ x) = .ok (.container h p)) ∧
  (∀ st v d rest, (Instr.response st v d).wf = true →
    decodeResponse (encode (.response st v d) ++ rest) = .ok (.response st v d, rest))

/-- Words written out from 30_encoding.md R80 to R84 and R94, R95, R103 decode to the instructions they stand for. -/
def Obligations.WrittenWords : Prop :=
  decode [0x01#8, 0, 0, 0, 0, 0] = .ok (.sysReset, []) ∧
  decode [0x12#8, 0x20#8, 0, 0, 0, 0x61#8] = .ok (.bwWbits 32 0x61, []) ∧
  decode [0x22#8, 0x20#8, 0, 0, 0, 0] = .ok (.brRbits 32, []) ∧
  decode [0x31#8, 0, 0, 0, 0, 0x02#8, 0x68#8, 0xC3#8] = .ok (.ftUpd [0x68#8, 0xC3#8], []) ∧
  decode [0x40#8, 0, 0, 0, 0, 0] = .ok (.tbBuild, []) ∧
  decode [0x52#8, 0, 0, 0, 0, 0x61#8] = .ok (.pgRd 0x61, []) ∧
  decode [0x60#8, 0, 0, 0, 0, 0] = .ok (.hcSer, []) ∧
  decode [0x72#8, 0, 0, 0, 0, 0, 0x02#8] = .ok (.dcEend, [0x02#8]) ∧
  decodeToken [false, true] = .ok (.node, [true]) ∧
  decodeCtrl 0x04#8 = .ok (.ctrl 4)
end

