-- ==== Sys2Proof/Laws/Bits.lean ====
section
/-! SUPPORT. Laws of bit and byte order: 20_memory.md R63, R64, R65, R67. -/

namespace Sys2Proof.Machine

open Sys2Proof

@[simp] theorem msbBits_length {w : Nat} (v : BitVec w) (n : Nat) : (msbBits v n).length = n := by
  induction n with
  | zero => rfl
  | succ n ih => simp [msbBits, ih]

/-- The bit at place `i` of an n-bit group is bit `n - 1 - i` of the value. -/
theorem msbBits_getElem {w : Nat} (v : BitVec w) (n i : Nat) (h : i < (msbBits v n).length) :
    (msbBits v n)[i] = v.getLsbD (n - 1 - i) := by
  induction n generalizing i with
  | zero => simp [msbBits] at h
  | succ n ih =>
    cases i with
    | zero => simp [msbBits]
    | succ i =>
      simp only [msbBits, List.getElem_cons_succ]
      rw [ih]
      congr 1
      omega

/-- Two groups of one length are equal when their bits are. -/
theorem msbBits_eq_iff {w w' : Nat} (v : BitVec w) (v' : BitVec w') (n : Nat) :
    msbBits v n = msbBits v' n ↔ ∀ i < n, v.getLsbD i = v'.getLsbD i := by
  induction n with
  | zero => simp [msbBits]
  | succ n ih =>
    simp only [msbBits, List.cons.injEq, ih]
    constructor
    · rintro ⟨h0, h⟩ i hi
      rcases Nat.lt_succ_iff_lt_or_eq.mp hi with h1 | rfl
      · exact h i h1
      · exact h0
    · exact fun h => ⟨h n (Nat.lt_succ_self n), fun i hi => h i (Nat.lt_succ_of_lt hi)⟩

/-- A group splits anywhere (40_bitstream.md R128 (c)). -/
theorem msbBits_split {w : Nat} (v : BitVec w) (m n : Nat) :
    msbBits v (m + n) = msbBits (v >>> n) m ++ msbBits v n := by
  induction m with
  | zero => simp [msbBits]
  | succ m ih =>
    have : m + 1 + n = (m + n) + 1 := by omega
    rw [this]
    simp only [msbBits, ih, BitVec.getLsbD_ushiftRight, List.cons_append, Nat.add_comm n m]

theorem shiftIn_getLsbD (acc : Byte) (b : Bool) (i : Nat) :
    (shiftIn acc b).getLsbD i = (decide (i < 8) && if i = 0 then b else acc.getLsbD (i - 1)) := by
  unfold shiftIn
  cases i with
  | zero => simp
  | succ i =>
    simp only [BitVec.getLsbD_or, BitVec.getLsbD_shiftLeft, BitVec.getLsbD_setWidth, BitVec.getLsbD_ofBool]
    simp

/-- A bit shifted in from below joins the pending bits at their end (10_state.md R22). -/
theorem msbBits_shiftIn (acc : Byte) (b : Bool) (n : Nat) (h : n < 8) :
    msbBits (shiftIn acc b) (n + 1) = msbBits acc n ++ [b] := by
  apply List.ext_getElem
  · simp
  · intro i h1 h2
    rw [msbBits_getElem, shiftIn_getLsbD]
    simp only [msbBits_length] at h1
    by_cases hi : i < n
    · rw [List.getElem_append_left (by simpa using hi), msbBits_getElem]
      have e0 : n + 1 - 1 - i ≠ 0 := by omega
      have e1 : n + 1 - 1 - i < 8 := by omega
      have e2 : n + 1 - 1 - i - 1 = n - 1 - i := by omega
      simp only [e0, e1, e2, decide_true, Bool.true_and, if_false]
    · have : i = n := by omega
      subst this
      simp

theorem shiftInWord_getLsbD (c : Word) (b : Bool) (i : Nat) :
    (shiftInWord c b).getLsbD i = (decide (i < 32) && if i = 0 then b else c.getLsbD (i - 1)) := by
  unfold shiftInWord
  cases i with
  | zero => simp
  | succ i =>
    simp only [BitVec.getLsbD_or, BitVec.getLsbD_shiftLeft, BitVec.getLsbD_setWidth, BitVec.getLsbD_ofBool]
    simp

/-- The same in a 32-bit code register (43_prefix_table.md R192). -/
theorem msbBits_shiftInWord (c : Word) (b : Bool) (n : Nat) (h : n < 32) :
    msbBits (shiftInWord c b) (n + 1) = msbBits c n ++ [b] := by
  apply List.ext_getElem
  · simp
  · intro i h1 h2
    rw [msbBits_getElem, shiftInWord_getLsbD]
    simp only [msbBits_length] at h1
    by_cases hi : i < n
    · rw [List.getElem_append_left (by simpa using hi), msbBits_getElem]
      have e0 : n + 1 - 1 - i ≠ 0 := by omega
      have e1 : n + 1 - 1 - i < 32 := by omega
      have e2 : n + 1 - 1 - i - 1 = n - 1 - i := by omega
      simp only [e0, e1, e2, decide_true, Bool.true_and, if_false]
    · have : i = n := by omega
      subst this
      simp

/-- The padded last byte: its pending bits at the top, zeros below (20_memory.md R67). -/
theorem bitsOfByte_padByte (acc : Byte) (c : Nat) (h : c ≤ 8) :
    bitsOfByte (padByte acc c) = msbBits acc c ++ List.replicate (8 - c) false := by
  rw [bitsOfByte]
  apply List.ext_getElem
  · simp; omega
  · intro i h1 h2
    simp only [msbBits_length] at h1
    rw [msbBits_getElem, padByte, BitVec.getLsbD_shiftLeft]
    by_cases hi : i < c
    · rw [List.getElem_append_left (by simpa using hi), msbBits_getElem]
      have e1 : (8 - 1 - i < 8) := by omega
      have e2 : ¬ (8 - 1 - i < 8 - c) := by omega
      have e3 : 8 - 1 - i - (8 - c) = c - 1 - i := by omega
      simp only [e1, e2, e3, decide_true, decide_false, Bool.not_false, Bool.true_and]
    · rw [List.getElem_append_right (by simpa using Nat.le_of_not_lt hi)]
      have e2 : (8 - 1 - i < 8 - c) := by omega
      simp [e2]

@[simp] theorem bitsOfByte_length (b : Byte) : (bitsOfByte b).length = 8 := by simp [bitsOfByte]

/-- Stream bit `j` of a byte is bit `7 - j` (00_scope.md R7). -/
theorem bitsOfByte_getElem (b : Byte) (j : Nat) (h : j < (bitsOfByte b).length) :
    (bitsOfByte b)[j] = b.getLsbD (7 - j) := by
  simp only [bitsOfByte, msbBits_getElem]

@[simp] theorem bitsOfBytes_nil : bitsOfBytes [] = [] := rfl

@[simp] theorem bitsOfBytes_cons (b : Byte) (bs : List Byte) :
    bitsOfBytes (b :: bs) = bitsOfByte b ++ bitsOfBytes bs := by simp [bitsOfBytes]

@[simp] theorem bitsOfBytes_append (a b : List Byte) : bitsOfBytes (a ++ b) = bitsOfBytes a ++ bitsOfBytes b := by
  simp [bitsOfBytes]

@[simp] theorem bitsOfBytes_length (bs : List Byte) : (bitsOfBytes bs).length = 8 * bs.length := by
  induction bs with
  | nil => rfl
  | cons b bs ih => simp [ih]; omega

theorem bitsOfByte_injective {a b : Byte} (h : bitsOfByte a = bitsOfByte b) : a = b := by
  apply BitVec.eq_of_getLsbD_eq
  intro i hi
  exact (msbBits_eq_iff a b 8).mp h i hi

/-- Equal bit sequences come from equal bytes. -/
theorem bitsOfBytes_injective : ∀ {a b : List Byte}, bitsOfBytes a = bitsOfBytes b → a = b
  | [], [], _ => rfl
  | [], _ :: _, h => by have := congrArg List.length h; simp at this; omega
  | _ :: _, [], h => by have := congrArg List.length h; simp at this
  | x :: a, y :: b, h => by
    rw [bitsOfBytes_cons, bitsOfBytes_cons] at h
    have h' := List.append_inj h (by simp)
    rw [bitsOfByte_injective h'.1, bitsOfBytes_injective h'.2]

/-- Packing from an accumulator of `c` bits gives those bits, the new ones, and zero padding. -/
theorem bitsOfBytes_packFrom (bs : List Bool) (acc : Byte) (c : Nat) (h : c < 8) :
    bitsOfBytes (packFrom bs acc c) =
      msbBits acc c ++ (bs ++ List.replicate ((8 - (c + bs.length) % 8) % 8) false) := by
  induction bs generalizing acc c with
  | nil =>
    unfold packFrom
    by_cases hc : c = 0
    · subst hc; simp [msbBits]
    · rw [if_neg hc]
      have e : (8 - (c + 0) % 8) % 8 = 8 - c := by omega
      simp only [bitsOfBytes_cons, bitsOfBytes_nil, bitsOfByte_padByte acc c (by omega), List.length_nil, e,
        List.nil_append, List.append_nil]
  | cons b bs ih =>
    unfold packFrom
    by_cases hc : c = 7
    · subst hc
      have e : (8 - (7 + (b :: bs).length) % 8) % 8 = (8 - (0 + bs.length) % 8) % 8 := by
        simp only [List.length_cons]; omega
      rw [if_pos rfl, bitsOfBytes_cons, ih 0 0 (by omega), bitsOfByte, msbBits_shiftIn acc b 7 (by omega), e]
      simp [msbBits]
    · have e : (8 - (c + (b :: bs).length) % 8) % 8 = (8 - (c + 1 + bs.length) % 8) % 8 := by
        simp only [List.length_cons]; omega
      rw [if_neg hc, ih _ _ (by omega), msbBits_shiftIn acc b c (by omega), e]
      simp

/-- Packing bits gives the bits, then zeros to a whole byte (40_bitstream.md R133). -/
theorem bitsOfBytes_packBits (bs : List Bool) :
    bitsOfBytes (packBits bs) = bs ++ List.replicate ((8 - bs.length % 8) % 8) false := by
  have := bitsOfBytes_packFrom bs 0 0 (by omega)
  simpa [packBits, msbBits] using this

/-- `ceil(n/8)` bytes for n bits. -/
theorem packBits_length (bs : List Bool) : (packBits bs).length = byteCount bs.length := by
  have h := congrArg List.length (bitsOfBytes_packBits bs)
  simp only [bitsOfBytes_length, List.length_append, List.length_replicate] at h
  unfold byteCount
  omega

/-- Packing the bits of whole bytes gives the bytes back. -/
theorem packBits_bitsOfBytes (bs : List Byte) : packBits (bitsOfBytes bs) = bs := by
  apply bitsOfBytes_injective
  rw [bitsOfBytes_packBits]
  simp

theorem msbBits_word32 (a b c d : Byte) :
    msbBits (word32 a b c d) 32 = bitsOfByte a ++ (bitsOfByte b ++ (bitsOfByte c ++ bitsOfByte d)) := by
  have low (k : Nat) (x : BitVec k) (y : Byte) : msbBits (x ++ y) 8 = bitsOfByte y :=
    (msbBits_eq_iff _ _ 8).mpr fun i hi => by simp [BitVec.getLsbD_append, hi]
  have high (k n : Nat) (x : BitVec k) (y : Byte) : msbBits ((x ++ y) >>> 8) n = msbBits x n :=
    (msbBits_eq_iff _ _ n).mpr fun i _ => by simp [BitVec.getLsbD_append, BitVec.getLsbD_ushiftRight]
  rw [word32, msbBits_split _ 24 8, low, high, msbBits_split _ 16 8, low, high, msbBits_split _ 8 8, low, high]
  simp [bitsOfByte]

theorem word32_be32 (v : Word) :
    word32 (v.extractLsb' 24 8) (v.extractLsb' 16 8) (v.extractLsb' 8 8) (v.extractLsb' 0 8) = v := by
  apply BitVec.eq_of_getLsbD_eq
  intro i hi
  unfold word32
  simp only [BitVec.getLsbD_append, BitVec.getLsbD_extractLsb']
  split
  · simp; omega
  · split
    · have : i - 8 < 8 := by omega
      have e : 8 + (i - 8) = i := by omega
      simp [this, e]
    · split
      · have : i - 8 - 8 < 8 := by omega
        have e : 16 + (i - 8 - 8) = i := by omega
        simp [this, e]
      · have : i - 8 - 8 - 8 < 8 := by omega
        have e : 24 + (i - 8 - 8 - 8) = i := by omega
        simp [this, e]

/-- `unbe32` is the inverse of `be32` (00_scope.md R8). -/
@[simp] theorem unbe32_be32 (v : Word) : unbe32 (be32 v) = v := word32_be32 v

@[simp] theorem be32_length (v : Word) : (be32 v).length = 4 := rfl

/-- A 32-bit group occupies four bytes equal to `be32` of its value (20_memory.md R65). -/
theorem bitsOfBytes_be32 (v : Word) : bitsOfBytes (be32 v) = msbBits v 32 := by
  conv_rhs => rw [← word32_be32 v]
  rw [msbBits_word32]
  simp [be32]

theorem packBits_msbBits (v : Word) : packBits (msbBits v 32) = be32 v := by
  rw [← bitsOfBytes_be32, packBits_bitsOfBytes]

/-- The 32 bits of a symbol field read back as the symbol (30_encoding.md R95). -/
@[simp] theorem unbe32_packBits_msbBits (v : Word) : unbe32 (packBits (msbBits v 32)) = v := by
  rw [packBits_msbBits, unbe32_be32]

/-- Any 32 bits are the bits of the word they spell. -/
theorem msbBits_unbe32_packBits (bs : List Bool) (h : bs.length = 32) : msbBits (unbe32 (packBits bs)) 32 = bs := by
  have hl : (packBits bs).length = 4 := by rw [packBits_length, h]; rfl
  have hb : bitsOfBytes (packBits bs) = bs := by rw [bitsOfBytes_packBits, h]; simp
  match hp : packBits bs, hl with
  | [a, b, c, d], _ =>
    rw [hp] at hb
    simp only [unbe32, msbBits_word32]
    simpa using hb

/-- The bits of a value written by index (40_bitstream.md R123). -/
theorem range_msbBits {w : Nat} (v : BitVec w) (n : Nat) :
    (List.range n).map (fun j => v.getLsbD (n - 1 - j)) = msbBits v n := by
  apply List.ext_getElem
  · simp
  · intro i h1 h2; simp [msbBits_getElem]

@[simp] theorem beBytes_length (k n : Nat) : (beBytes k n).length = k := by
  induction k with
  | zero => rfl
  | succ k ih => simp [beBytes, ih]

/-- Where an element of two lists in a row stands: in the first or in the second. -/
theorem append_eq_append_cons {α : Type} {l r before after : List α} {v : α} (h : l ++ r = before ++ v :: after) :
    (∃ a, l = before ++ v :: a ∧ after = a ++ r) ∨ (∃ b, before = l ++ b ∧ r = b ++ v :: after) := by
  rcases List.append_eq_append_iff.mp h with ⟨b, e1, e2⟩ | ⟨c, e1, e2⟩
  · exact .inr ⟨b, e1, e2⟩
  · cases c with
    | nil => exact .inr ⟨[], by simpa using e1.symm, by simpa using e2.symm⟩
    | cons x c =>
      cases e2
      exact .inl ⟨c, e1, rfl⟩

end Sys2Proof.Machine
end

