-- ==== Sys2Proof/Laws/BitStream.lean ====
section
/-! SUPPORT. Laws of the BitWriter and the BitReader: 40_bitstream.md R128, R135; 20_memory.md R75. -/

namespace Sys2Proof.Machine

open Sys2Proof Sys2Proof.Config Sys2Proof.Safety

/-! ### Writer -/

@[simp] theorem content_clear : BW.clear.content = [] := rfl

@[simp] theorem content_length (w : BW) : w.content.length = 8 * w.buf.length + w.cnt.val := by simp [BW.content]

/-- `append` adds one byte or raises SizeOverflow (40_bitstream.md R124). -/
theorem append_eq (p : Params) (w : BW) (b : Byte) :
    (w.buf.length < p.maxBuf ∧ w.append p b = .ok { w with buf := w.buf ++ [b] }) ∨
    (p.maxBuf ≤ w.buf.length ∧ w.append p b = .error .sizeOverflow) := by
  unfold BW.append
  by_cases h : p.maxBuf ≤ w.buf.length
  · exact .inr ⟨h, by simp [h]⟩
  · exact .inl ⟨by omega, by simp [h]⟩

/-- Everything WriteBit can do (40_bitstream.md R122): a pending bit more, a byte completed, or SizeOverflow. -/
theorem writeBit_cases (p : Params) (w : BW) (b : Bool) :
    (∃ h : w.cnt.val < 7, w.writeBit p b = .ok ⟨shiftIn w.acc b, ⟨w.cnt.val + 1, by omega⟩, w.buf⟩) ∨
    (w.cnt.val = 7 ∧ w.buf.length < p.maxBuf ∧ w.writeBit p b = .ok ⟨0, 0, w.buf ++ [shiftIn w.acc b]⟩) ∨
    (w.cnt.val = 7 ∧ p.maxBuf ≤ w.buf.length ∧ w.writeBit p b = .error .sizeOverflow) := by
  unfold BW.writeBit
  by_cases h : w.cnt.val < 7
  · exact .inl ⟨h, by simp [h]⟩
  · have h7 : w.cnt.val = 7 := by omega
    rcases append_eq p { w with acc := 0, cnt := 0 } (shiftIn w.acc b) with ⟨hl, e⟩ | ⟨hl, e⟩
    · exact .inr (.inl ⟨h7, hl, by rw [dif_neg h]; exact e⟩)
    · exact .inr (.inr ⟨h7, hl, by rw [dif_neg h]; exact e⟩)

/-- A written bit joins the content at its end (40_bitstream.md R120). -/
theorem writeBit_content {p : Params} {w w' : BW} {b : Bool} (h : w.writeBit p b = .ok w') :
    w'.content = w.content ++ [b] := by
  rcases writeBit_cases p w b with ⟨h7, e⟩ | ⟨h7, _, e⟩ | ⟨_, _, e⟩ <;> rw [e] at h <;> cases h
  · simp [BW.content, msbBits_shiftIn w.acc b w.cnt.val (by omega)]
  · have := msbBits_shiftIn w.acc b 7 (by omega)
    simp only [BW.content, h7, bitsOfBytes_append, bitsOfBytes_cons, bitsOfBytes_nil, bitsOfByte, this]
    simp [msbBits]

/-- Writing a bit succeeds when the byte it may complete still fits. -/
theorem writeBit_ok {p : Params} {w : BW} (b : Bool) (h : (w.content.length + 1) / 8 ≤ p.maxBuf) :
    ∃ w', w.writeBit p b = .ok w' := by
  rcases writeBit_cases p w b with ⟨_, e⟩ | ⟨_, _, e⟩ | ⟨h7, hl, _⟩
  · exact ⟨_, e⟩
  · exact ⟨_, e⟩
  · rw [content_length] at h; omega

theorem shiftIn_lt (acc : Byte) (b : Bool) (c : Nat) (h : acc.toNat < 2 ^ c) :
    (shiftIn acc b).toNat < 2 ^ (c + 1) := by
  have hb : ((BitVec.ofBool b).setWidth 8).toNat ≤ 1 := by cases b <;> decide
  have hp : 2 ^ (c + 1) = 2 * 2 ^ c := by rw [pow_succ]; omega
  have h1 : (acc <<< 1).toNat < 2 ^ (c + 1) := by
    rw [BitVec.toNat_shiftLeft, Nat.shiftLeft_eq]
    exact lt_of_le_of_lt (Nat.mod_le _ _) (by omega)
  have h2 : ((BitVec.ofBool b).setWidth 8).toNat < 2 ^ (c + 1) := by
    have : 0 < 2 ^ c := by positivity
    omega
  rw [shiftIn, BitVec.toNat_or]
  exact Nat.or_lt_two_pow h1 h2

/-- WriteBit keeps the writer's invariant (40_bitstream.md R128 (d)) and the buffer's bound. -/
theorem writeBit_bwOk {w w' : BW} {b : Bool} (hw : bwOk w = true) (h : w.writeBit params b = .ok w') :
    bwOk w' = true := by
  simp only [bwOk, Bool.and_eq_true, decide_eq_true_eq] at hw ⊢
  rcases writeBit_cases params w b with ⟨h7, e⟩ | ⟨h7, hl, e⟩ | ⟨_, _, e⟩ <;> rw [e] at h <;> cases h
  · exact ⟨shiftIn_lt _ _ _ hw.1, hw.2⟩
  · exact ⟨by simp, by simpa using hl⟩

/-- Writing bits appends them to the content; nothing changes a bit already written (40_bitstream.md R120). -/
theorem writeAll_content {p : Params} {w w' : BW} {bs : List Bool} (h : w.writeAll p bs = .ok w') :
    w'.content = w.content ++ bs := by
  induction bs generalizing w with
  | nil => cases h; simp
  | cons b bs ih =>
    unfold BW.writeAll at h
    cases hb : w.writeBit p b with
    | error c => rw [hb] at h; cases h
    | ok w1 =>
      rw [hb] at h
      rw [ih h, writeBit_content hb]
      simp

theorem writeAll_bwOk {w w' : BW} {bs : List Bool} (hw : bwOk w = true) (h : w.writeAll params bs = .ok w') :
    bwOk w' = true := by
  induction bs generalizing w with
  | nil => cases h; exact hw
  | cons b bs ih =>
    unfold BW.writeAll at h
    cases hb : w.writeBit params b with
    | error c => rw [hb] at h; cases h
    | ok w1 => rw [hb] at h; exact ih (writeBit_bwOk hw hb) h

/-- Writing bits succeeds when the bytes they complete fit (40_bitstream.md R128 (a), R124). -/
theorem writeAll_ok {p : Params} {w : BW} (bs : List Bool) (h : (w.content.length + bs.length) / 8 ≤ p.maxBuf) :
    ∃ w', w.writeAll p bs = .ok w' := by
  induction bs generalizing w with
  | nil => exact ⟨w, rfl⟩
  | cons b bs ih =>
    have h1 : (w.content.length + 1) / 8 ≤ p.maxBuf := by simp only [List.length_cons] at h; omega
    obtain ⟨w1, hb⟩ := writeBit_ok b h1
    have hc := congrArg List.length (writeBit_content hb)
    obtain ⟨w', h'⟩ := ih (w := w1) (by
      simp only [List.length_append, List.length_cons, List.length_nil] at hc h ⊢
      rw [hc]
      simpa [Nat.add_assoc, Nat.add_comm 1] using h)
    exact ⟨w', by simp [BW.writeAll, hb, h']⟩

/-- Writing fails in one way only. -/
theorem writeAll_error {p : Params} {w : BW} {bs : List Bool} {c : Cause} (h : w.writeAll p bs = .error c) :
    c = .sizeOverflow := by
  induction bs generalizing w with
  | nil => cases h
  | cons b bs ih =>
    unfold BW.writeAll at h
    rcases writeBit_cases p w b with ⟨_, e⟩ | ⟨_, _, e⟩ | ⟨_, _, e⟩ <;> rw [e] at h
    · exact ih h
    · exact ih h
    · cases h; rfl

/-- Writing two groups is writing their concatenation (40_bitstream.md R128 (c), 20_memory.md R65). -/
theorem writeAll_append (p : Params) (w : BW) (a b : List Bool) :
    w.writeAll p (a ++ b) = (w.writeAll p a).bind fun w' => w'.writeAll p b := by
  induction a generalizing w with
  | nil => rfl
  | cons x a ih =>
    simp only [List.cons_append, BW.writeAll]
    cases w.writeBit p x with
    | error c => rfl
    | ok w1 => exact ih w1

/-- Everything Flush can do (40_bitstream.md R125). -/
theorem flush_cases (p : Params) (w : BW) :
    (w.cnt.val = 0 ∧ w.flush p = .ok w) ∨
    (w.cnt.val ≠ 0 ∧ w.buf.length < p.maxBuf ∧
      w.flush p = .ok ⟨0, 0, w.buf ++ [padByte w.acc w.cnt.val]⟩) ∨
    (w.cnt.val ≠ 0 ∧ p.maxBuf ≤ w.buf.length ∧ w.flush p = .error .sizeOverflow) := by
  unfold BW.flush
  by_cases h : w.cnt.val = 0
  · exact .inl ⟨h, by simp [h]⟩
  · rcases append_eq p { w with acc := 0, cnt := 0 } (padByte w.acc w.cnt.val) with ⟨hl, e⟩ | ⟨hl, e⟩
    · exact .inr (.inl ⟨h, hl, by rw [if_neg h]; exact e⟩)
    · exact .inr (.inr ⟨h, hl, by rw [if_neg h]; exact e⟩)

/-- A flush pads the content with zeros to whole bytes and leaves no pending bits (20_memory.md R67). -/
theorem flush_content {p : Params} {w w' : BW} (h : w.flush p = .ok w') :
    w'.content = w.content ++ padding w.content.length ∧ w'.cnt.val = 0 := by
  rcases flush_cases p w with ⟨h0, e⟩ | ⟨h0, _, e⟩ | ⟨_, _, e⟩ <;> rw [e] at h <;> cases h
  · simp [padding, h0]
  · have e8 : (8 - (8 * w.buf.length + w.cnt.val) % 8) % 8 = 8 - w.cnt.val := by have := w.cnt.isLt; omega
    have := bitsOfByte_padByte w.acc w.cnt.val (by omega)
    refine ⟨?_, rfl⟩
    rw [padding, content_length, e8]
    simp [BW.content, msbBits, this]

/-- After a flush the bytes of WBUF spell the content, padded. -/
theorem flush_bits {p : Params} {w w' : BW} (h : w.flush p = .ok w') :
    bitsOfBytes w'.buf = w.content ++ padding w.content.length := by
  have hc := flush_content h
  rw [← hc.1, BW.content, hc.2]
  simp [msbBits]

theorem flush_bwOk {w w' : BW} (hw : bwOk w = true) (h : w.flush params = .ok w') : bwOk w' = true := by
  simp only [bwOk, Bool.and_eq_true, decide_eq_true_eq] at hw ⊢
  rcases flush_cases params w with ⟨_, e⟩ | ⟨_, hl, e⟩ | ⟨_, _, e⟩ <;> rw [e] at h <;> cases h
  · exact hw
  · exact ⟨by simp, by simpa using hl⟩

theorem flush_ok {p : Params} {w : BW} (h : w.content.length ≤ 8 * p.maxBuf) : ∃ w', w.flush p = .ok w' := by
  rcases flush_cases p w with ⟨_, e⟩ | ⟨_, _, e⟩ | ⟨h0, hl, _⟩
  · exact ⟨_, e⟩
  · exact ⟨_, e⟩
  · rw [content_length] at h; omega

/-- "this is idempotent" (40_bitstream.md R128 (b)). -/
theorem flush_flush {p : Params} {w w' : BW} (h : w.flush p = .ok w') : w'.flush p = .ok w' := by
  simp [BW.flush, (flush_content h).2]

/-! ### Reader -/

theorem brOk_iff (r : BR) :
    brOk r = true ↔
      r.len.toNat = r.buf.length ∧ r.byte.toNat ≤ r.len.toNat ∧ (r.byte.toNat < r.len.toNat ∨ r.bit = 0) := by
  simp [brOk, and_assoc]

/-- Load puts the cursor on the first bit (40_bitstream.md R130). -/
theorem load_brOk (d : List Byte) (h : d.length ≤ params.maxBuf) : brOk (BR.load d) = true := by
  have : d.length < 2 ^ 32 := by simp [params] at h; omega
  rw [brOk_iff]
  exact ⟨by simpa [BR.load] using this, by simp [BR.load], .inr rfl⟩

@[simp] theorem load_unread (d : List Byte) : (BR.load d).unread = bitsOfBytes d := by simp [BR.load, BR.unread]

/-- `Remaining()` counts the unread bits (40_bitstream.md R129). -/
theorem remaining_eq {r : BR} (h : brOk r = true) : r.remaining = r.unread.length := by
  rw [brOk_iff] at h
  obtain ⟨h1, h2, h3⟩ := h
  simp only [BR.remaining, BR.unread, List.length_drop, bitsOfBytes_length]
  omega

theorem bitsOfBytes_drop (bs : List Byte) (i j : Nat) (hi : i < bs.length) (hj : j < 8) :
    (bitsOfBytes bs).drop (8 * i + j) = bs[i].getLsbD (7 - j) :: (bitsOfBytes bs).drop (8 * i + j + 1) := by
  induction bs generalizing i with
  | nil => simp at hi
  | cons b bs ih =>
    cases i with
    | zero =>
      have hl : j < (bitsOfByte b).length := by simpa using hj
      rw [bitsOfBytes_cons, Nat.mul_zero, Nat.zero_add, List.drop_append_of_le_length (by omega),
        List.drop_append_of_le_length (by omega), List.drop_eq_getElem_cons hl]
      rw [bitsOfByte_getElem]
      rfl
    | succ i =>
      have hi' : i < bs.length := by simpa using hi
      have e1 : 8 * (i + 1) + j = (bitsOfByte b).length + (8 * i + j) := by simp; omega
      have e2 : 8 * (i + 1) + j + 1 = (bitsOfByte b).length + (8 * i + j + 1) := by simp; omega
      rw [bitsOfBytes_cons, e2, e1, List.drop_length_add_append, List.drop_length_add_append, ih i hi']
      simp

/-- Everything NextBit can do on a good reader (40_bitstream.md R131, R135 (a)): EOS exactly at the end, or the first
unread bit, the cursor one bit on. -/
theorem nextBit_cases {r : BR} (h : brOk r = true) :
    (r.unread = [] ∧ r.nextBit = none) ∨
    (∃ b r', r.unread = b :: r'.unread ∧ r.nextBit = some (b, r') ∧ brOk r' = true ∧ r'.buf = r.buf ∧
      r'.len = r.len) := by
  have hlen := remaining_eq h
  rw [brOk_iff] at h
  obtain ⟨h1, h2, h3⟩ := h
  by_cases hb : r.len.toNat ≤ r.byte.toNat
  · left
    refine ⟨?_, by simp [BR.nextBit, hb]⟩
    apply List.eq_nil_of_length_eq_zero
    rw [← hlen, BR.remaining]
    omega
  · right
    have hi : r.byte.toNat < r.buf.length := by omega
    have hlt := r.len.isLt
    refine ⟨r.buf[r.byte.toNat].getLsbD (7 - r.bit.val), r.advance, ?_, ?_, ?_, ?_, ?_⟩
    · rw [BR.unread, bitsOfBytes_drop r.buf r.byte.toNat r.bit.val hi r.bit.isLt]
      congr 1
      unfold BR.advance
      by_cases hbit : r.bit.val < 7
      · simp [hbit, BR.unread, Nat.add_assoc]
      · have e7 : r.bit.val = 7 := by omega
        have e : (r.byte + 1).toNat = r.byte.toNat + 1 := by
          rw [BitVec.toNat_add]
          exact Nat.mod_eq_of_lt (by change r.byte.toNat + 1 < 2 ^ 32; omega)
        rw [dif_neg hbit, BR.unread, e7]
        change _ = List.drop (8 * (r.byte + 1).toNat + 0) _
        rw [e]
        congr 1
    · simp [BR.nextBit, hb, List.getElem?_eq_getElem hi]
    · rw [brOk_iff]
      unfold BR.advance
      by_cases hbit : r.bit.val < 7
      · simp only [hbit, dif_pos]; exact ⟨h1, h2, .inl (by omega)⟩
      · have e : (r.byte.toNat + 1) % 4294967296 = r.byte.toNat + 1 := by omega
        simp [hbit, h1, e]; omega
    · unfold BR.advance; split <;> rfl
    · unfold BR.advance; split <;> rfl

theorem nextBit_of_cons {r : BR} (h : brOk r = true) {b : Bool} {bs : List Bool} (hu : r.unread = b :: bs) :
    ∃ r', r.nextBit = some (b, r') ∧ r'.unread = bs ∧ brOk r' = true ∧ r'.buf = r.buf ∧ r'.len = r.len := by
  rcases nextBit_cases h with ⟨e, _⟩ | ⟨b', r', e, hn, hk, hb, hl⟩
  · rw [e] at hu; cases hu
  · rw [e] at hu
    injection hu with h1 h2
    subst h1
    exact ⟨r', hn, h2, hk, hb, hl⟩

/-- `n` calls of NextBit take the first `n` unread bits, in order. -/
theorem nextBits_spec {r : BR} (h : brOk r = true) (n : Nat) (hn : n ≤ r.unread.length) :
    ∃ r', BR.nextBits n r = some (r.unread.take n, r') ∧ r'.unread = r.unread.drop n ∧ brOk r' = true ∧
      r'.buf = r.buf ∧ r'.len = r.len := by
  induction n generalizing r with
  | zero => exact ⟨r, by simp [BR.nextBits], by simp, h, rfl, rfl⟩
  | succ n ih =>
    cases hu : r.unread with
    | nil => rw [hu] at hn; simp at hn
    | cons b bs =>
      obtain ⟨r1, e1, u1, k1, b1, l1⟩ := nextBit_of_cons h hu
      obtain ⟨r2, e2, u2, k2, b2, l2⟩ := ih k1 (by rw [hu] at hn; rw [u1]; simpa using hn)
      refine ⟨r2, ?_, ?_, k2, b2.trans b1, l2.trans l1⟩
      · simp [BR.nextBits, e1, e2, u1]
      · rw [u2, u1]; simp

/-- ReadBits (40_bitstream.md R133): with `n` bits left it returns the first `n`, packed; otherwise ReadPastEnd. -/
theorem readBits_spec {r : BR} (h : brOk r = true) (n : Nat) :
    (r.unread.length < n ∧ r.readBits n = .error .readPastEnd) ∨
    (n ≤ r.unread.length ∧ ∃ r', r.readBits n = .ok (packBits (r.unread.take n), r') ∧
      r'.unread = r.unread.drop n ∧ brOk r' = true ∧ r'.buf = r.buf ∧ r'.len = r.len) := by
  unfold BR.readBits
  rw [remaining_eq h]
  by_cases hn : r.unread.length < n
  · exact .inl ⟨hn, by simp [hn]⟩
  · obtain ⟨r', e, u, k, b, l⟩ := nextBits_spec h n (by omega)
    exact .inr ⟨by omega, r', by simp [hn, e], u, k, b, l⟩

/-! ### What is written stays: WBUF grows at its end -/

theorem append_prefix {p : Params} {w w' : BW} {b : Byte} (h : w.append p b = .ok w') : w.buf <+: w'.buf := by
  rcases append_eq p w b with ⟨_, e⟩ | ⟨_, e⟩ <;> rw [e] at h <;> cases h
  exact ⟨_, rfl⟩

theorem writeBit_prefix {p : Params} {w w' : BW} {b : Bool} (h : w.writeBit p b = .ok w') : w.buf <+: w'.buf := by
  rcases writeBit_cases p w b with ⟨h7, e⟩ | ⟨h7, _, e⟩ | ⟨_, _, e⟩ <;> rw [e] at h <;> cases h
  · exact List.prefix_refl _
  · exact ⟨_, rfl⟩

theorem writeAll_prefix {p : Params} {w w' : BW} {bs : List Bool} (h : w.writeAll p bs = .ok w') :
    w.buf <+: w'.buf := by
  induction bs generalizing w with
  | nil => cases h; exact List.prefix_refl _
  | cons b bs ih =>
    simp only [BW.writeAll] at h
    cases hb : w.writeBit p b with
    | error c => rw [hb] at h; cases h
    | ok w1 => rw [hb] at h; exact (writeBit_prefix hb).trans (ih h)

theorem flush_prefix {p : Params} {w w' : BW} (h : w.flush p = .ok w') : w.buf <+: w'.buf := by
  rcases flush_cases p w with ⟨h7, e⟩ | ⟨h7, _, e⟩ | ⟨_, _, e⟩ <;> rw [e] at h <;> cases h
  · exact List.prefix_refl _
  · exact ⟨_, rfl⟩

/-- A mix of writes is the writing of all their bits (20_memory.md R75). -/
theorem writeMix_eq (ws : List Write) (w : BW) : writeMix params w ws = w.writeAll params (ws.flatMap Write.bits) := by
  induction ws generalizing w with
  | nil => rfl
  | cons x ws ih =>
    cases x with
    | bit b =>
      simp only [writeMix, List.flatMap_cons, Write.bits, List.singleton_append, BW.writeAll]
      cases w.writeBit params b <;> simp [Except.bind, ih]
    | group v n =>
      simp only [writeMix, List.flatMap_cons, Write.bits, writeAll_append, BW.writeBits]
      congr 1
      funext w'
      exact ih w'

/-- Reading moves the cursor and nothing else. -/
theorem nextBit_keeps {r r' : BR} {b : Bool} (h : r.nextBit = some (b, r')) : r'.buf = r.buf ∧ r'.len = r.len := by
  unfold BR.nextBit at h
  split at h
  · cases h
  · split at h
    · cases h
    · cases h; unfold BR.advance; split <;> exact ⟨rfl, rfl⟩

theorem nextBits_keeps {n : Nat} {r r' : BR} {bs : List Bool} (h : BR.nextBits n r = some (bs, r')) :
    r'.buf = r.buf ∧ r'.len = r.len := by
  induction n generalizing r bs with
  | zero => cases h; exact ⟨rfl, rfl⟩
  | succ n ih =>
    unfold BR.nextBits at h
    cases h1 : r.nextBit with
    | none => rw [h1] at h; cases h
    | some o =>
      obtain ⟨x, r1⟩ := o
      rw [h1] at h
      simp only at h
      cases h2 : BR.nextBits n r1 with
      | none => rw [h2] at h; cases h
      | some o =>
        obtain ⟨y, r2⟩ := o
        rw [h2] at h
        cases h
        obtain ⟨a, b⟩ := nextBit_keeps h1
        obtain ⟨c, d⟩ := ih h2
        exact ⟨c.trans a, d.trans b⟩

/-- Bits that do not fit in WBUF overflow it (40_bitstream.md R124). -/
theorem writeAll_overflow {w : BW} {bs : List Bool} (hw : w.buf.length ≤ params.maxBuf)
    (h : params.maxBuf < (w.content.length + bs.length) / 8) : w.writeAll params bs = .error .sizeOverflow := by
  induction bs generalizing w with
  | nil =>
    have := w.cnt.isLt
    rw [content_length] at h
    simp at h
    omega
  | cons b bs ih =>
    cases hb : w.writeBit params b with
    | error c =>
      rcases writeBit_cases params w b with ⟨_, e⟩ | ⟨_, _, e⟩ | ⟨_, _, e⟩ <;> rw [hb] at e <;> cases e
      simp only [BW.writeAll, hb]
    | ok w' =>
      have hc := congrArg List.length (writeBit_content hb)
      have hl : w'.buf.length ≤ params.maxBuf := by
        rcases writeBit_cases params w b with ⟨_, e⟩ | ⟨_, hlt, e⟩ | ⟨_, _, e⟩ <;> rw [hb] at e <;> cases e
        · exact hw
        · simp; omega
      simp only [BW.writeAll, hb]
      exact ih hl (by rw [hc]; simp only [List.length_cons, List.length_append, List.length_nil] at h ⊢; omega)

end Sys2Proof.Machine
end

