-- ==== Sys2Proof/Laws/Container.lean ====
section
/-! SUPPORT. Laws of the container: 30_encoding.md R106, R109. -/

namespace Sys2Proof.Machine

open Sys2Proof Sys2Proof.Config

theorem sizeField_be32 (a b : List Byte) (v : Word) : sizeField (a ++ (be32 v ++ b)) a.length = v.toNat := by
  have : ((be32 v ++ b).take 4) = be32 v := by
    rw [List.take_append_of_le_length (by simp)]
    exact List.take_of_length_le (by simp)
  rw [sizeField, List.drop_left, this, unbe32_be32]

/-- A container followed by anything unpacks to its segments (30_encoding.md R106, R109). -/
theorem unpack_pack (h p x : List Byte) (hh : h.length ≤ params.maxBuf) (hp : p.length ≤ params.maxBuf) :
    unpack (pack h p ++ x) = .ok (h, p) := by
  have e1 : (BitVec.ofNat 32 h.length).toNat = h.length := by
    rw [BitVec.toNat_ofNat]; exact Nat.mod_eq_of_lt (by simp [params] at hh; omega)
  have e2 : (BitVec.ofNat 32 p.length).toNat = p.length := by
    rw [BitVec.toNat_ofNat]; exact Nat.mod_eq_of_lt (by simp [params] at hp; omega)
  have s1 : sizeField (pack h p ++ x) 0 = h.length := by
    have := sizeField_be32 [] (h ++ (be32 (BitVec.ofNat 32 p.length) ++ p) ++ x) (BitVec.ofNat 32 h.length)
    rw [e1] at this
    rw [← this]
    simp [pack]
  have s2 : sizeField (pack h p ++ x) (4 + h.length) = p.length := by
    have := sizeField_be32 (be32 (BitVec.ofNat 32 h.length) ++ h) (p ++ x) (BitVec.ofNat 32 p.length)
    rw [e2] at this
    rw [← this]
    simp [pack]
  have hl : (pack h p ++ x).length = 8 + h.length + p.length + x.length := by simp [pack]; omega
  unfold unpack
  rw [if_neg (by omega)]
  simp only [s1]
  rw [if_neg (by omega), if_neg (by omega)]
  simp only [s2]
  rw [if_neg (by omega)]
  have d1 : ((pack h p ++ x).drop 4).take h.length = h := by
    have : pack h p ++ x = be32 (BitVec.ofNat 32 h.length) ++ (h ++ (be32 (BitVec.ofNat 32 p.length) ++ p ++ x)) := by
      simp [pack]
    rw [this, List.drop_append_of_le_length (by simp), List.drop_of_length_le (by simp), List.nil_append,
      List.take_left]
  have d2 : ((pack h p ++ x).drop (8 + h.length)).take p.length = p := by
    have : pack h p ++ x =
        (be32 (BitVec.ofNat 32 h.length) ++ (h ++ be32 (BitVec.ofNat 32 p.length))) ++ (p ++ x) := by simp [pack]
    have hn : 8 + h.length = (be32 (BitVec.ofNat 32 h.length) ++ (h ++ be32 (BitVec.ofNat 32 p.length))).length := by
      simp; omega
    rw [this, hn, List.drop_left, List.take_left]
  rw [d1, d2]

theorem unpack_error {c : List Byte} {e : Cause} (h : unpack c = .error e) : e = .containerTruncated := by
  unfold unpack at h
  simp only at h
  split_ifs at h <;> cases h <;> rfl

end Sys2Proof.Machine
end

