-- ==== Sys2Proof/Laws/Tables.lean ====
section
/-! SUPPORT. Laws of the finite maps and of the merge queue: read after write, and every write keeps the canonical form. -/

namespace Sys2Proof.Machine

open Sys2Proof Sys2Proof.Config Sys2Proof.Safety

section Maps
variable {κ ν : Type} [DecidableEq κ] (rank : κ → Nat)

/-- A read after a write to the same key gives the value written. -/
@[simp] theorem mapGet_put_self (k : κ) (v : ν) (m : List (κ × ν)) : mapGet k (mapPut rank k v m) = some v := by
  induction m with
  | nil => simp [mapPut, mapGet]
  | cons e m ih =>
    obtain ⟨k', v'⟩ := e
    unfold mapPut
    split
    · simp [mapGet]
    · split
      · simp [mapGet]
      · rename_i hne _
        simp [mapGet, hne, ih]

/-- A write leaves every other key alone. -/
theorem mapGet_put_of_ne {k k' : κ} (h : k' ≠ k) (v : ν) (m : List (κ × ν)) :
    mapGet k' (mapPut rank k v m) = mapGet k' m := by
  induction m with
  | nil => simp [mapPut, mapGet, h]
  | cons e m ih =>
    obtain ⟨k1, v1⟩ := e
    unfold mapPut
    split
    · rename_i hk
      subst hk
      simp [mapGet, h]
    · split
      · simp [mapGet, h]
      · simp [mapGet, ih]

theorem mapGet_put (k k' : κ) (v : ν) (m : List (κ × ν)) :
    mapGet k' (mapPut rank k v m) = if k' = k then some v else mapGet k' m := by
  by_cases h : k' = k
  · subst h; simp
  · simp [h, mapGet_put_of_ne rank h]

omit [DecidableEq κ] in
/-- The canonical form as a pairwise fact. -/
theorem mapSorted_iff (m : List (κ × ν)) :
    mapSorted rank m = true ↔ m.Pairwise fun a b => rank a.1 < rank b.1 := by
  induction m with
  | nil => simp [mapSorted]
  | cons a m ih =>
    cases m with
    | nil => simp [mapSorted]
    | cons b m =>
      obtain ⟨k, v⟩ := a
      obtain ⟨k', v'⟩ := b
      simp only [mapSorted, Bool.and_eq_true, decide_eq_true_eq, ih]
      rw [List.pairwise_cons (a := (k, v))]
      constructor
      · rintro ⟨hlt, hp⟩
        refine ⟨?_, hp⟩
        intro c hc
        rcases List.mem_cons.mp hc with rfl | hc
        · exact hlt
        · exact lt_trans hlt (List.rel_of_pairwise_cons hp hc)
      · exact fun h => ⟨h.1 (k', v') (by simp), h.2⟩

/-- The keys of a map after a write. -/
theorem mem_mapPut {k : κ} {v : ν} {m : List (κ × ν)} {e : κ × ν} (h : e ∈ mapPut rank k v m) :
    e = (k, v) ∨ (e ∈ m) := by
  induction m with
  | nil => simpa [mapPut] using h
  | cons a m ih =>
    obtain ⟨k', v'⟩ := a
    unfold mapPut at h
    split at h
    · rcases List.mem_cons.mp h with rfl | h
      · exact .inl rfl
      · exact .inr (by simp [h])
    · split at h
      · rcases List.mem_cons.mp h with rfl | h
        · exact .inl rfl
        · exact .inr h
      · rcases List.mem_cons.mp h with rfl | h
        · exact .inr (by simp)
        · exact (ih h).imp_right (by simp +contextual)

/-- A write keeps the canonical form. -/
theorem mapPut_sorted (hr : Function.Injective rank) (k : κ) (v : ν) {m : List (κ × ν)}
    (h : mapSorted rank m = true) : mapSorted rank (mapPut rank k v m) = true := by
  rw [mapSorted_iff] at h ⊢
  induction m with
  | nil => simp [mapPut]
  | cons a m ih =>
    obtain ⟨k', v'⟩ := a
    rw [List.pairwise_cons] at h
    unfold mapPut
    split
    · rename_i hk
      subst hk
      exact List.pairwise_cons.mpr h
    · rename_i hk
      split
      · rename_i hlt
        refine List.pairwise_cons.mpr ⟨?_, List.pairwise_cons.mpr h⟩
        intro c hc
        rcases List.mem_cons.mp hc with rfl | hc
        · exact hlt
        · exact lt_trans hlt (h.1 c hc)
      · rename_i hlt
        refine List.pairwise_cons.mpr ⟨?_, ih h.2⟩
        intro c hc
        rcases mem_mapPut rank hc with rfl | hc
        · exact lt_of_le_of_ne (by simpa using hlt) fun e => hk (hr e).symm
        · exact h.1 c hc

/-- Writing a new key makes the map one longer. -/
theorem mapPut_length {k : κ} {v : ν} {m : List (κ × ν)} (h : mapGet k m = none) :
    (mapPut rank k v m).length = m.length + 1 := by
  induction m with
  | nil => rfl
  | cons a m ih =>
    obtain ⟨k', v'⟩ := a
    unfold mapGet at h
    split at h
    · cases h
    · rename_i hk
      unfold mapPut
      rw [if_neg hk]
      split
      · rfl
      · simp [ih h]

/-- Writing a new key adds one entry. -/
theorem mapPut_perm {k : κ} {v : ν} {m : List (κ × ν)} (h : mapGet k m = none) :
    (mapPut rank k v m).Perm ((k, v) :: m) := by
  induction m with
  | nil => exact List.Perm.refl _
  | cons a m ih =>
    obtain ⟨k', v'⟩ := a
    unfold mapGet at h
    split at h
    · cases h
    · rename_i hk
      unfold mapPut
      rw [if_neg hk]
      split
      · exact List.Perm.refl _
      · exact ((ih h).cons (k', v')).trans (List.Perm.swap _ _ _)

/-- Overwriting a key keeps the number of entries. -/
theorem mapPut_length_of_some {k : κ} {v w : ν} {m : List (κ × ν)} (hs : mapSorted rank m = true)
    (h : mapGet k m = some w) : (mapPut rank k v m).length = m.length := by
  rw [mapSorted_iff] at hs
  induction m with
  | nil => cases h
  | cons a m ih =>
    obtain ⟨k', v'⟩ := a
    rw [List.pairwise_cons] at hs
    unfold mapGet at h
    unfold mapPut
    split at h
    · rename_i hk
      simp [hk]
    · rename_i hk
      rw [if_neg hk]
      have hmem : ∃ e ∈ m, e.1 = k := by
        clear ih hs
        induction m with
        | nil => cases h
        | cons b m ih =>
          obtain ⟨kb, vb⟩ := b
          unfold mapGet at h
          split at h
          · rename_i hb; exact ⟨(kb, vb), by simp, hb.symm⟩
          · obtain ⟨e, he, hk⟩ := ih h; exact ⟨e, by simp [he], hk⟩
      obtain ⟨e, he, rfl⟩ := hmem
      have hlt : ¬ rank e.1 < rank k' := by have := hs.1 e he; simp only at this; omega
      rw [if_neg hlt]
      simp [ih hs.2 h]

theorem mem_of_mapGet {k : κ} {v : ν} {m : List (κ × ν)} (h : mapGet k m = some v) : (k, v) ∈ m := by
  induction m with
  | nil => cases h
  | cons a m ih =>
    obtain ⟨k', v'⟩ := a
    unfold mapGet at h
    split at h
    · rename_i hk
      cases h
      subst hk
      simp
    · exact List.mem_cons_of_mem _ (ih h)

theorem mapGet_eq_none_iff {k : κ} {m : List (κ × ν)} : mapGet k m = none ↔ k ∉ m.map Prod.fst := by
  induction m with
  | nil => simp [mapGet]
  | cons a m ih =>
    obtain ⟨k', v'⟩ := a
    by_cases hk : k = k' <;> simp [mapGet, hk, ih]

/-- In canonical form a listed entry is the map's value at its key. -/
theorem mapGet_of_mem {k : κ} {v : ν} {m : List (κ × ν)}
    (hs : mapSorted rank m = true) (h : (k, v) ∈ m) : mapGet k m = some v := by
  rw [mapSorted_iff] at hs
  induction m with
  | nil => cases h
  | cons a m ih =>
    obtain ⟨k', v'⟩ := a
    rw [List.pairwise_cons] at hs
    rcases List.mem_cons.mp h with e | hm
    · cases e; simp [mapGet]
    · have hne : k ≠ k' := by
        rintro rfl
        exact lt_irrefl _ (hs.1 (k, v) hm)
      simp [mapGet, hne, ih hs.2 hm]

omit [DecidableEq κ] in
/-- A canonical map lists no key twice. -/
theorem mapSorted_nodup {m : List (κ × ν)} (hs : mapSorted rank m = true) :
    (m.map Prod.fst).Nodup := by
  rw [mapSorted_iff] at hs
  rw [List.Nodup, List.pairwise_map]
  exact hs.imp fun h e => absurd (congrArg rank e) (by omega)

/-- Two canonical maps with the same reads are equal data. -/
theorem map_ext {m m' : List (κ × ν)} (hs : mapSorted rank m = true)
    (hs' : mapSorted rank m' = true) (h : ∀ k, mapGet k m = mapGet k m') : m = m' := by
  have hmem : ∀ e, e ∈ m ↔ e ∈ m' := fun e =>
    ⟨fun he => mem_of_mapGet (h e.1 ▸ mapGet_of_mem rank hs he),
      fun he => mem_of_mapGet ((h e.1).symm ▸ mapGet_of_mem rank hs' he)⟩
  rw [mapSorted_iff] at hs hs'
  have hnd : m.Nodup := hs.imp fun h e => by rw [e] at h; omega
  have hnd' : m'.Nodup := hs'.imp fun h e => by rw [e] at h; omega
  exact List.Perm.eq_of_pairwise (le := fun a b => rank a.1 < rank b.1) (fun a b _ _ h1 h2 => by omega) hs hs'
    ((List.perm_ext_iff_of_nodup hnd hnd').mpr hmem)

end Maps

theorem symRank_injective : Function.Injective symRank := fun _ _ h => BitVec.eq_of_toNat_eq h

theorem codeRank_injective : Function.Injective codeRank := by
  rintro ⟨c, l⟩ ⟨c', l'⟩ h
  simp only [codeRank] at h
  have h1 := c.isLt
  have h2 := c'.isLt
  have hl : l = l' := by omega
  have hc : c.toNat = c'.toNat := by omega
  rw [hl, BitVec.eq_of_toNat_eq hc]

/-! ### The merge queue -/

/-- The key order is a strict total order (42_tree_builder.md R172). -/
theorem Key.lt_iff (a b : Key) :
    a.lt b = true ↔
      a.weight < b.weight ∨
        (a.weight = b.weight ∧ (a.kind < b.kind ∨ (a.kind = b.kind ∧ a.tie < b.tie))) := by
  simp [Key.lt]

theorem Key.lt_trans {a b c : Key} (h1 : a.lt b = true) (h2 : b.lt c = true) : a.lt c = true := by
  rw [Key.lt_iff] at *
  omega

theorem Key.lt_irrefl (a : Key) : a.lt a = false := by
  rw [Bool.eq_false_iff, ne_eq, Key.lt_iff]
  omega

theorem Key.lt_total {a b : Key} (h : a.lt b = false) : b.lt a = true ∨ a = b := by
  rw [Bool.eq_false_iff, ne_eq, Key.lt_iff] at h
  rw [Key.lt_iff]
  obtain ⟨w, k, t⟩ := a
  obtain ⟨w', k', t'⟩ := b
  simp only [Key.mk.injEq] at *
  omega

theorem mqInsert_perm (e : Entry) (q : List Entry) : (mqInsert e q).Perm (e :: q) := by
  induction q with
  | nil => exact List.Perm.refl _
  | cons x q ih =>
    unfold mqInsert
    split
    · exact List.Perm.refl _
    · exact (ih.cons x).trans (List.Perm.swap _ _ _)

@[simp] theorem mqInsert_length (e : Entry) (q : List Entry) : (mqInsert e q).length = q.length + 1 := by
  simpa using (mqInsert_perm e q).length_eq

/-- Insert keeps the key order when the new key is new. -/
theorem mqInsert_sorted {e : Entry} {q : List Entry} (hq : mqSorted q) (hn : ∀ x ∈ q, x.key ≠ e.key) :
    mqSorted (mqInsert e q) := by
  induction q with
  | nil => simp [mqInsert, mqSorted]
  | cons x q ih =>
    rw [mqSorted, List.pairwise_cons] at hq
    unfold mqInsert
    split
    · rename_i hlt
      refine List.pairwise_cons.mpr ⟨?_, List.pairwise_cons.mpr hq⟩
      intro y hy
      rcases List.mem_cons.mp hy with rfl | hy
      · exact hlt
      · exact Key.lt_trans hlt (hq.1 y hy)
    · rename_i hlt
      have hxe : x.key.lt e.key = true := by
        rcases Key.lt_total (Bool.eq_false_iff.mpr hlt) with h | h
        · exact h
        · exact absurd h.symm (hn x (by simp))
      refine List.pairwise_cons.mpr ⟨?_, ih hq.2 fun y hy => hn y (by simp [hy])⟩
      intro y hy
      rcases List.mem_cons.mp ((mqInsert_perm e q).mem_iff.mp hy) with rfl | hy
      · exact hxe
      · exact hq.1 y hy

/-- ExtractMin takes the entry whose key is smallest (42_tree_builder.md R171). -/
theorem mqExtract_least {q q' : List Entry} {e : Entry} (hq : mqSorted q) (h : mqExtract q = some (e, q')) :
    q = e :: q' ∧ ∀ x ∈ q', e.key.lt x.key = true := by
  cases q with
  | nil => cases h
  | cons x q =>
    cases h
    exact ⟨rfl, (List.pairwise_cons.mp hq).1⟩

end Sys2Proof.Machine
end

