-- ==== Sys2Proof/Laws/PrefixGen.lean ====
section
/-! SUPPORT. Laws of the PrefixTable Generator: 43_prefix_table.md R192 to R198. -/

namespace Sys2Proof.Machine

open Sys2Proof Sys2Proof.Config Sys2Proof.Safety

/-! ### Paths and codes -/

@[simp] theorem shiftBits_append (c : Word) (a b : List Bool) : shiftBits c (a ++ b) = shiftBits (shiftBits c a) b :=
  List.foldl_append

@[simp] theorem shiftBits_singleton (c : Word) (b : Bool) : shiftBits c [b] = shiftInWord c b := rfl

/-- A path read back from its code: "root-to-leaf path, first branch most significant" (10_state.md R32). -/
theorem codeBits_codeOf {path : List Bool} (h : path.length ≤ 32) : codeBits (codeOf path) = path := by
  simp only [codeBits, codeOf]
  induction path using List.reverseRecOn with
  | nil => rfl
  | append_singleton p b ih =>
    simp only [List.length_append, List.length_singleton] at h
    rw [shiftBits_append, shiftBits_singleton, List.length_append, List.length_singleton,
      msbBits_shiftInWord _ _ _ (by omega), ih (by omega)]

theorem codeOf_injective {p q : List Bool} (hp : p.length ≤ 32) (hq : q.length ≤ 32) (h : codeOf p = codeOf q) :
    p = q := by rw [← codeBits_codeOf hp, h, codeBits_codeOf hq]

theorem shiftInWord_lt (c : Word) (b : Bool) (n : Nat) (h : c.toNat < 2 ^ n) :
    (shiftInWord c b).toNat < 2 ^ (n + 1) := by
  have hb : ((BitVec.ofBool b).setWidth 32).toNat ≤ 1 := by cases b <;> decide
  have hp : 2 ^ (n + 1) = 2 * 2 ^ n := by rw [pow_succ]; omega
  have h1 : (c <<< 1).toNat < 2 ^ (n + 1) := by
    rw [BitVec.toNat_shiftLeft, Nat.shiftLeft_eq]
    exact lt_of_le_of_lt (Nat.mod_le _ _) (by omega)
  have h2 : ((BitVec.ofBool b).setWidth 32).toNat < 2 ^ (n + 1) := by
    have : 0 < 2 ^ n := by positivity
    omega
  rw [shiftInWord, BitVec.toNat_or]
  exact Nat.or_lt_two_pow h1 h2

/-- A code fits in its length (43_prefix_table.md R198). -/
theorem codeOf_lt (path : List Bool) : (codeOf path).code.toNat < 2 ^ (codeOf path).length := by
  simp only [codeOf]
  induction path using List.reverseRecOn with
  | nil => simp [shiftBits]
  | append_singleton p b ih =>
    rw [shiftBits_append, shiftBits_singleton, List.length_append, List.length_singleton]
    exact shiftInWord_lt _ _ _ ih

theorem paths_symbols (n : Node) : (paths n).map Prod.fst = symbols n := by
  induction n with
  | leaf s w => rfl
  | internal w l r hl hr =>
    simp only [paths, symbols, leaves, List.map_append, List.map_map] at *
    rw [← hl, ← hr]
    rfl

theorem codewords_symbols (n : Node) : (codewords n).map Prod.fst = symbols n := by
  cases n with
  | leaf s w => rfl
  | internal w l r => exact paths_symbols _

theorem paths_length_le {n : Node} {e : Sym × List Bool} (h : e ∈ paths n) : e.2.length ≤ depth n := by
  induction n generalizing e with
  | leaf s w => simp only [paths, List.mem_singleton] at h; simp [h]
  | internal w l r hl hr =>
    simp only [paths, List.mem_append, List.mem_map] at h
    simp only [depth]
    rcases h with ⟨x, hx, rfl⟩ | ⟨x, hx, rfl⟩
    · have := hl hx; simp; omega
    · have := hr hx; simp; omega

/-- Every codeword has 1 to 32 bits when the tree is at most 32 deep (43_prefix_table.md R193, R194). -/
theorem codewords_length {n : Node} (hd : depth n ≤ 32) {e : Sym × List Bool} (h : e ∈ codewords n) :
    1 ≤ e.2.length ∧ e.2.length ≤ 32 := by
  cases n with
  | leaf s w => simp only [codewords, List.mem_singleton] at h; simp [h]
  | internal w l r =>
    refine ⟨?_, (paths_length_le h).trans hd⟩
    simp only [codewords, paths, List.mem_append, List.mem_map] at h
    rcases h with ⟨x, _, rfl⟩ | ⟨x, _, rfl⟩ <;> simp

/-- Neither of two bit strings begins with the other. -/
def apart (p q : List Bool) : Prop := ¬ p <+: q ∧ ¬ q <+: p

theorem apart_symm {p q : List Bool} (h : apart p q) : apart q p := ⟨h.2, h.1⟩

/-- No path is a prefix of another: "a code is emitted only at leaves" (43_prefix_table.md R198 (a)). -/
theorem paths_apart (n : Node) : (paths n).Pairwise fun a b => apart a.2 b.2 := by
  induction n with
  | leaf s w => simp [paths]
  | internal w l r hl hr =>
    simp only [paths]
    rw [List.pairwise_append]
    refine ⟨?_, ?_, ?_⟩
    · rw [List.pairwise_map]
      exact hl.imp fun h => ⟨by simpa using h.1, by simpa using h.2⟩
    · rw [List.pairwise_map]
      exact hr.imp fun h => ⟨by simpa using h.1, by simpa using h.2⟩
    · intro a ha b hb
      obtain ⟨x, _, rfl⟩ := List.mem_map.mp ha
      obtain ⟨y, _, rfl⟩ := List.mem_map.mp hb
      exact ⟨by simp, by simp⟩

theorem codewords_apart (n : Node) : (codewords n).Pairwise fun a b => apart a.2 b.2 := by
  cases n with
  | leaf s w => simp [codewords]
  | internal w l r => exact paths_apart _

/-- Two codewords of a tree are apart (43_prefix_table.md R198 (a)). -/
theorem codewords_apart_of_ne {n : Node} {a b : Sym × List Bool} (ha : a ∈ codewords n) (hb : b ∈ codewords n)
    (h : a ≠ b) : apart a.2 b.2 := by
  have : Std.Symm fun a b : Sym × List Bool => apart a.2 b.2 := ⟨fun _ _ h => apart_symm h⟩
  exact List.Pairwise.forall (codewords_apart n) ha hb h

/-! ### Walk -/

/-- The table entries of a subtree reached along `path`. -/
def entriesAt (path : List Bool) (n : Node) : List (Sym × Code) :=
  (paths n).map fun e => (e.1, codeOf (path ++ e.2))

theorem entriesAt_internal (path : List Bool) (w : Nat) (l r : Node) :
    entriesAt path (.internal w l r) = entriesAt (path ++ [false]) l ++ entriesAt (path ++ [true]) r := by
  simp [entriesAt, paths, List.map_map, Function.comp_def]

/-- Walk on a subtree of distinct new symbols that is not too deep (43_prefix_table.md R192). -/
theorem walk_ok {n : Node} {path : List Bool} {m : List (Sym × Code)} (hd : path.length + depth n ≤ 32)
    (hn : (symbols n).Nodup) (hm : ∀ s ∈ symbols n, mapGet s m = none) :
    ∃ m', walk n (shiftBits 0 path) path.length m = .ok m' ∧ m'.Perm (entriesAt path n ++ m) ∧
      (mapSorted symRank m = true → mapSorted symRank m' = true) := by
  induction n generalizing path m with
  | leaf s w =>
    have hg := hm s (by simp [symbols, leaves])
    refine ⟨mapPut symRank s (codeOf path) m, by simp [walk, hg, codeOf], ?_,
      mapPut_sorted symRank symRank_injective s _⟩
    simpa [entriesAt, paths] using mapPut_perm symRank (v := codeOf path) hg
  | internal w l r hl hr =>
    simp only [depth] at hd
    have hsym : symbols (.internal w l r) = symbols l ++ symbols r := by simp [symbols, leaves]
    rw [hsym] at hn hm
    rw [List.nodup_append] at hn
    obtain ⟨m1, e1, p1, s1⟩ := hl (path := path ++ [false]) (m := m) (by simp; omega) hn.1
      fun s hs => hm s (by simp [hs])
    have hm1 : ∀ s ∈ symbols r, mapGet s m1 = none := by
      intro s hs
      rw [mapGet_eq_none_iff, (p1.map Prod.fst).mem_iff]
      simp only [List.map_append, List.mem_append, not_or]
      refine ⟨fun h => ?_, mapGet_eq_none_iff.mp (hm s (by simp [hs]))⟩
      have : s ∈ symbols l := by
        rw [← paths_symbols]
        simpa [entriesAt, List.map_map, Function.comp_def] using h
      exact hn.2.2 s this s hs rfl
    obtain ⟨m2, e2, p2, s2⟩ := hr (path := path ++ [true]) (m := m1) (by simp; omega) hn.2.1 hm1
    refine ⟨m2, ?_, ?_, fun h => s2 (s1 h)⟩
    · have : ¬ 32 ≤ path.length := by omega
      simp only [shiftBits_append, shiftBits_singleton, List.length_append, List.length_singleton] at e1 e2
      simp only [walk, if_neg this, e1, e2]
    · rw [entriesAt_internal]
      refine p2.trans ((List.Perm.append_left _ p1).trans ?_)
      rw [← List.append_assoc]
      exact List.Perm.append_right _ List.perm_append_comm

/-- What a completed Walk says of its subtree. -/
theorem walk_ok_inv {n : Node} {c : Word} {k : Nat} {m m' : List (Sym × Code)} (hk : k ≤ 32)
    (h : walk n c k m = .ok m') :
    k + depth n ≤ 32 ∧ (symbols n).Nodup ∧ (∀ s ∈ symbols n, mapGet s m = none) ∧
      (m'.map Prod.fst).Perm (symbols n ++ m.map Prod.fst) := by
  induction n generalizing c k m m' with
  | leaf s w =>
    simp only [walk] at h
    cases hg : mapGet s m with
    | some v => rw [hg] at h; cases h
    | none =>
      rw [hg] at h
      cases h
      refine ⟨by simpa [depth] using hk, by simp [symbols, leaves], by simpa [symbols, leaves] using hg, ?_⟩
      simpa [symbols, leaves] using (mapPut_perm symRank (v := (⟨c, k⟩ : Code)) hg).map Prod.fst
  | internal w l r hl hr =>
    simp only [walk] at h
    by_cases h32 : 32 ≤ k
    · simp [h32] at h
    · rw [if_neg h32] at h
      cases h1 : walk l (shiftInWord c false) (k + 1) m with
      | error e => rw [h1] at h; cases h
      | ok m1 =>
        rw [h1] at h
        obtain ⟨d1, n1, g1, p1⟩ := hl (by omega) h1
        obtain ⟨d2, n2, g2, p2⟩ := hr (by omega) h
        have hsym : symbols (.internal w l r) = symbols l ++ symbols r := by simp [symbols, leaves]
        have g2' : ∀ s ∈ symbols r, s ∉ symbols l ∧ mapGet s m = none := by
          intro s hs
          have h1 := mapGet_eq_none_iff.mp (g2 s hs)
          rw [p1.mem_iff] at h1
          simp only [List.mem_append, not_or] at h1
          exact ⟨h1.1, mapGet_eq_none_iff.mpr h1.2⟩
        rw [hsym]
        refine ⟨by simp only [depth]; omega, ?_, ?_, ?_⟩
        · rw [List.nodup_append]
          exact ⟨n1, n2, fun a ha b hb e => (g2' b hb).1 (e ▸ ha)⟩
        · intro s hs
          rcases List.mem_append.mp hs with hs | hs
          · exact g1 s hs
          · exact (g2' s hs).2
        · refine p2.trans ((List.Perm.append_left _ p1).trans ?_)
          rw [← List.append_assoc]
          exact List.Perm.append_right _ List.perm_append_comm

/-- The two ways a Walk fails (43_prefix_table.md R192, R194). -/
theorem walk_error {n : Node} {c : Word} {k : Nat} {m : List (Sym × Code)} {e : Cause}
    (h : walk n c k m = .error e) : e = .codeTooLong ∨ e = .duplicateSymbol := by
  induction n generalizing c k m with
  | leaf s w =>
    simp only [walk] at h
    cases hg : mapGet s m with
    | some v => rw [hg] at h; cases h; exact .inr rfl
    | none => rw [hg] at h; cases h
  | internal w l r hl hr =>
    simp only [walk] at h
    by_cases h32 : 32 ≤ k
    · rw [if_pos h32] at h; cases h; exact .inl rfl
    · rw [if_neg h32] at h
      cases h1 : walk l (shiftInWord c false) (k + 1) m with
      | error x => rw [h1] at h; cases h; exact hl h1
      | ok m1 => rw [h1] at h; exact hr h

/-- A Walk that meets no repeated symbol fails for depth only. -/
theorem walk_error_of_nodup {n : Node} {c : Word} {k : Nat} {m : List (Sym × Code)} {e : Cause}
    (h : walk n c k m = .error e) (hn : (symbols n).Nodup) (hm : ∀ s ∈ symbols n, mapGet s m = none) (hk : k ≤ 32) :
    e = .codeTooLong := by
  induction n generalizing c k m with
  | leaf s w => simp [walk, hm s (by simp [symbols, leaves])] at h
  | internal w l r hl hr =>
    have hsym : symbols (.internal w l r) = symbols l ++ symbols r := by simp [symbols, leaves]
    rw [hsym] at hn hm
    rw [List.nodup_append] at hn
    simp only [walk] at h
    by_cases h32 : 32 ≤ k
    · rw [if_pos h32] at h; cases h; rfl
    · rw [if_neg h32] at h
      cases h1 : walk l (shiftInWord c false) (k + 1) m with
      | error x => rw [h1] at h; cases h; exact hl h1 hn.1 (fun s hs => hm s (by simp [hs])) (by omega)
      | ok m1 =>
        rw [h1] at h
        refine hr h hn.2.1 (fun s hs => ?_) (by omega)
        have p1 := (walk_ok_inv (by omega) h1).2.2.2
        rw [mapGet_eq_none_iff, p1.mem_iff]
        simp only [List.mem_append, not_or]
        exact ⟨fun h => hn.2.2 s h s hs rfl, mapGet_eq_none_iff.mp (hm s (by simp [hs]))⟩

/-- A Walk that is never too deep fails for a repeated symbol only. -/
theorem walk_error_of_depth {n : Node} {c : Word} {k : Nat} {m : List (Sym × Code)} {e : Cause}
    (h : walk n c k m = .error e) (hd : k + depth n ≤ 32) : e = .duplicateSymbol := by
  induction n generalizing c k m with
  | leaf s w =>
    simp only [walk] at h
    cases hg : mapGet s m with
    | some v => rw [hg] at h; cases h; rfl
    | none => rw [hg] at h; cases h
  | internal w l r hl hr =>
    simp only [depth] at hd
    simp only [walk] at h
    rw [if_neg (by omega)] at h
    cases h1 : walk l (shiftInWord c false) (k + 1) m with
    | error x => rw [h1] at h; cases h; exact hl h1 (by omega)
    | ok m1 => rw [h1] at h; exact hr h (by omega)

/-! ### The table of a tree -/

/-- The table of a tree of distinct symbols, at most 32 deep, lists its codewords (43_prefix_table.md R191 to R193). -/
theorem genTable_spec {n : Node} (hn : (symbols n).Nodup) (hd : depth n ≤ 32) :
    ∃ m, genTable n = .ok m ∧ mapSorted symRank m = true ∧
      m.Perm ((codewords n).map fun e => (e.1, codeOf e.2)) := by
  cases n with
  | leaf s w => exact ⟨[(s, ⟨0, 1⟩)], rfl, rfl, List.Perm.refl _⟩
  | internal w l r =>
    obtain ⟨m, e, p, s⟩ := walk_ok (path := []) (m := []) (by simpa using hd) hn (by simp [mapGet])
    exact ⟨m, e, s rfl, by simpa [entriesAt, codewords] using p⟩

/-- What a generated table says of its tree. -/
theorem genTable_inv {n : Node} {m : List (Sym × Code)} (h : genTable n = .ok m) :
    (symbols n).Nodup ∧ depth n ≤ 32 := by
  cases n with
  | leaf s w => simp [symbols, leaves, depth]
  | internal w l r =>
    obtain ⟨d, k, _⟩ := walk_ok_inv (by omega) (show walk (.internal w l r) 0 0 [] = .ok m from h)
    exact ⟨k, by omega⟩

/-- Everything a generated table is. -/
theorem genTable_ok {n : Node} {m : List (Sym × Code)} (h : genTable n = .ok m) :
    mapSorted symRank m = true ∧ m.Perm ((codewords n).map fun e => (e.1, codeOf e.2)) := by
  obtain ⟨m', e, s, p⟩ := genTable_spec (genTable_inv h).1 (genTable_inv h).2
  rw [h] at e
  cases e
  exact ⟨s, p⟩

/-- An entry of a generated table is a codeword of the tree. -/
theorem genTable_get {n : Node} {m : List (Sym × Code)} (h : genTable n = .ok m) (s : Sym) (c : Code) :
    mapGet s m = some c ↔ ∃ path, (s, path) ∈ codewords n ∧ c = codeOf path := by
  obtain ⟨hs, hp⟩ := genTable_ok h
  constructor
  · intro hg
    have := hp.mem_iff.mp (mem_of_mapGet hg)
    obtain ⟨e, he, hc⟩ := List.mem_map.mp this
    cases hc
    exact ⟨e.2, he, rfl⟩
  · rintro ⟨path, hm, rfl⟩
    exact mapGet_of_mem symRank hs (hp.mem_iff.mpr (List.mem_map.mpr ⟨_, hm, rfl⟩))

/-- The codes of a generated table are distinct (43_prefix_table.md R196). -/
theorem genTable_codes_nodup {n : Node} {m : List (Sym × Code)} (h : genTable n = .ok m) :
    (m.map Prod.snd).Nodup := by
  rw [((genTable_ok h).2.map Prod.snd).nodup_iff, List.map_map]
  have ha := codewords_apart n
  have hl := fun e he => (codewords_length (genTable_inv h).2 (e := e) he).2
  rw [List.Nodup, List.pairwise_map]
  refine (List.Pairwise.and_mem.mp ha).imp ?_
  rintro a b ⟨ha, hb, hap⟩ he
  have := codeOf_injective (hl a ha) (hl b hb) he
  rw [this] at hap
  exact hap.1 (List.prefix_refl _)

/-! ### The inverse table -/

/-- Inverting a table of distinct codes lists each pair once, the other way round (43_prefix_table.md R195). -/
theorem invertTable_ok {m : List (Sym × Code)} {inv : List (Code × Sym)} (hn : (m.map Prod.snd).Nodup)
    (hd : ∀ e ∈ m, mapGet e.2 inv = none) :
    ∃ inv', invertTable m inv = .ok inv' ∧ inv'.Perm (m.map (fun e => (e.2, e.1)) ++ inv) ∧
      (mapSorted codeRank inv = true → mapSorted codeRank inv' = true) := by
  induction m generalizing inv with
  | nil => exact ⟨inv, rfl, List.Perm.refl _, id⟩
  | cons e m ih =>
    obtain ⟨s, c⟩ := e
    simp only [List.map_cons, List.nodup_cons] at hn
    have hg := hd (s, c) (by simp)
    obtain ⟨inv', e1, p1, s1⟩ := ih (inv := mapPut codeRank c s inv) hn.2 (by
      intro e he
      have hne : e.2 ≠ c := fun h => hn.1 (h ▸ List.mem_map.mpr ⟨e, he, rfl⟩)
      rw [mapGet_put_of_ne codeRank hne]
      exact hd e (by simp [he]))
    refine ⟨inv', by simp only [invertTable, hg]; exact e1, ?_,
      fun h => s1 (mapPut_sorted codeRank codeRank_injective _ _ h)⟩
    refine p1.trans ((List.Perm.append_left _ (mapPut_perm codeRank hg)).trans ?_)
    exact List.perm_middle

theorem invertTable_error {m : List (Sym × Code)} {inv : List (Code × Sym)} {e : Cause}
    (h : invertTable m inv = .error e) : e = .duplicateCode := by
  induction m generalizing inv with
  | nil => cases h
  | cons x m ih =>
    obtain ⟨s, c⟩ := x
    simp only [invertTable] at h
    cases hg : mapGet c inv with
    | some v => rw [hg] at h; cases h; rfl
    | none => rw [hg] at h; exact ih h

/-- What a completed inversion keeps. -/
theorem invertTable_sorted {m : List (Sym × Code)} {inv inv' : List (Code × Sym)}
    (hs : mapSorted codeRank inv = true) (h : invertTable m inv = .ok inv') : mapSorted codeRank inv' = true := by
  induction m generalizing inv with
  | nil => cases h; exact hs
  | cons x m ih =>
    obtain ⟨s, c⟩ := x
    simp only [invertTable] at h
    cases hg : mapGet c inv with
    | some v => rw [hg] at h; cases h
    | none => rw [hg] at h; exact ih (mapPut_sorted codeRank codeRank_injective _ _ hs) h

/-- The inverse of a generated table is its inverse (43_prefix_table.md R195, R196). -/
theorem invert_genTable {n : Node} {m : List (Sym × Code)} (h : genTable n = .ok m) :
    ∃ inv, invertTable m [] = .ok inv ∧ mapSorted codeRank inv = true ∧
      ∀ c s, mapGet c inv = some s ↔ mapGet s m = some c := by
  obtain ⟨inv, e, p, s⟩ := invertTable_ok (inv := []) (genTable_codes_nodup h) (by simp [mapGet])
  have hs := s rfl
  simp only [List.append_nil] at p
  refine ⟨inv, e, hs, fun c x => ⟨fun hg => ?_, fun hg => ?_⟩⟩
  · have := p.mem_iff.mp (mem_of_mapGet hg)
    obtain ⟨y, hy, hc⟩ := List.mem_map.mp this
    cases hc
    exact mapGet_of_mem symRank (genTable_ok h).1 hy
  · exact mapGet_of_mem codeRank hs (p.mem_iff.mpr (List.mem_map.mpr ⟨_, mem_of_mapGet hg, rfl⟩))

/-- The leaves of a tree fill the code space: the reason a tree's code is complete (43_prefix_table.md R198 (c)). -/
theorem paths_kraft (n : Node) (k : Nat) (h : depth n ≤ k) :
    ((paths n).map fun e => 2 ^ (k - e.2.length)).sum = 2 ^ k := by
  induction n generalizing k with
  | leaf s w => simp [paths]
  | internal w l r hl hr =>
    simp only [depth] at h
    obtain ⟨k, rfl⟩ : ∃ j, k = j + 1 := ⟨k - 1, by omega⟩
    simp only [paths, List.map_append, List.map_map, List.sum_append, Function.comp_def, List.length_cons,
      Nat.add_sub_add_right]
    rw [hl k (by omega), hr k (by omega)]; omega

/-- Walk does not look at weights. -/
theorem walk_forgetWeights (n : Node) (c : Word) (k : Nat) (m : List (Sym × Code)) :
    walk (forgetWeights n) c k m = walk n c k m := by
  induction n generalizing c k m with
  | leaf s w => rfl
  | internal w l r hl hr => simp only [forgetWeights, walk, hl, hr]

theorem leaves_length_pos (n : Node) : 1 ≤ (leaves n).length := by
  induction n with
  | leaf => simp [leaves]
  | internal w l r hl hr => simp [leaves]; omega

/-- A table that can be inverted repeats no code (43_prefix_table.md R195). -/
theorem invertTable_nodup {m : List (Sym × Code)} {inv inv' : List (Code × Sym)} (h : invertTable m inv = .ok inv') :
    (m.map Prod.snd).Nodup ∧ ∀ e ∈ m, mapGet e.2 inv = none := by
  induction m generalizing inv with
  | nil => simp
  | cons e m ih =>
    obtain ⟨s, c⟩ := e
    simp only [invertTable] at h
    split at h
    · cases h
    · rename_i hg
      obtain ⟨i1, i2⟩ := ih h
      have key : ∀ e ∈ m, e.2 ≠ c ∧ mapGet e.2 inv = none := by
        intro e he
        have := i2 e he
        rw [mapGet_put] at this
        split at this
        · cases this
        · exact ⟨by assumption, this⟩
      refine ⟨?_, ?_⟩
      · simp only [List.map_cons, List.nodup_cons]
        refine ⟨fun hc => ?_, i1⟩
        obtain ⟨e, he, rfl⟩ := List.mem_map.mp hc
        exact (key e he).1 rfl
      · intro e he
        rcases List.mem_cons.mp he with rfl | he
        · exact hg
        · exact (key e he).2

/-! ### The order of the walk (60_exceptions.md R292) -/

theorem visits_symbols (n : Node) (k : Nat) : (visits n k).filterMap Visit.symbol = symbols n := by
  induction n generalizing k with
  | leaf s w => rfl
  | internal w l r hl hr =>
    simp [visits, Visit.symbol, List.filterMap_cons, List.filterMap_append, hl, hr, symbols, leaves]

theorem visits_depth {n : Node} {k : Nat} (hk : k ≤ 32) (h : ∀ j, .node j ∈ visits n k → j < 32) :
    k + depth n ≤ 32 := by
  induction n generalizing k with
  | leaf s w => simpa [depth] using hk
  | internal w l r hl hr =>
    have h0 := h k (by simp [visits])
    have h1 := hl (k := k + 1) (by omega) fun j hj => h j (by simp [visits, hj])
    have h2 := hr (k := k + 1) (by omega) fun j hj => h j (by simp [visits, hj])
    simp only [depth]
    omega

/-- A subtree with clean visits and no symbol of the table is walked, and its symbols join the table's keys. -/
theorem walk_clean {n : Node} {c : Word} {k : Nat} {m : List (Sym × Code)} (hk : k ≤ 32) (hv : visitsClean (visits n k))
    (hm : ∀ s ∈ symbols n, mapGet s m = none) :
    ∃ m', walk n c k m = .ok m' ∧ ∀ x, mapGet x m' = none ↔ x ∉ symbols n ∧ mapGet x m = none := by
  have hd := visits_depth hk hv.1
  have hn : (symbols n).Nodup := visits_symbols n k ▸ hv.2
  cases h : walk n c k m with
  | error e =>
    have := (walk_error_of_nodup h hn hm hk).symm.trans (walk_error_of_depth h hd)
    cases this
  | ok m' =>
    refine ⟨m', rfl, fun x => ?_⟩
    rw [mapGet_eq_none_iff, (walk_ok_inv hk h).2.2.2.mem_iff, mapGet_eq_none_iff, List.mem_append, not_or]

/-- The walk stops at the first bad visit in pre-order: an Internal node at depth 32, or a symbol met before. -/
theorem walk_stops {n : Node} {c : Word} {k : Nat} {m : List (Sym × Code)} {before after : List Visit} {v : Visit}
    (hk : k ≤ 32) (hv : visits n k = before ++ v :: after) (hb : visitsClean before)
    (hm : ∀ s ∈ before.filterMap Visit.symbol, mapGet s m = none) :
    (∀ j, v = .node j → 32 ≤ j → walk n c k m = .error .codeTooLong) ∧
    (∀ x, v = .leaf x → (x ∈ before.filterMap Visit.symbol ∨ mapGet x m ≠ none) →
      walk n c k m = .error .duplicateSymbol) := by
  induction n generalizing c k m before after with
  | leaf s w =>
    cases before with
    | nil =>
      cases hv
      refine ⟨fun j hj => (by cases hj), fun x hx hs => ?_⟩
      cases hx
      obtain ⟨c', hc⟩ := Option.ne_none_iff_exists'.mp (hs.resolve_left (by simp))
      simp only [walk, hc]
    | cons v' before => simp [visits] at hv
  | internal w l r hl hr =>
    cases before with
    | nil =>
      cases hv
      refine ⟨fun j hj h32 => ?_, fun x hx => (by cases hx)⟩
      cases hj
      simp [walk, h32]
    | cons v' before =>
      simp only [visits, List.cons_append, List.cons.injEq] at hv
      obtain ⟨rfl, hv⟩ := hv
      have hk' : k < 32 := hb.1 k List.mem_cons_self
      have hsym : (Visit.node k :: before).filterMap Visit.symbol = before.filterMap Visit.symbol := rfl
      have hb' : visitsClean before := ⟨fun j hj => hb.1 j (List.mem_cons_of_mem _ hj), hsym ▸ hb.2⟩
      rw [hsym] at hm ⊢
      simp only [walk, if_neg (Nat.not_le_of_lt hk')]
      rcases append_eq_append_cons hv with ⟨a, e, _⟩ | ⟨b, rfl, e⟩
      · have := hl (c := shiftInWord c false) (k := k + 1) (by omega) e hb' hm
        exact ⟨fun j hj h32 => by rw [this.1 j hj h32], fun x hx hs => by rw [this.2 x hx hs]⟩
      · rw [List.filterMap_append, visits_symbols] at hm ⊢
        have hcl : visitsClean (visits l (k + 1)) :=
          ⟨fun j hj => hb'.1 j (List.mem_append_left _ hj), by
            have := hb'.2
            rw [List.filterMap_append] at this
            exact this.of_append_left⟩
        obtain ⟨m', h1, h2⟩ := walk_clean (c := shiftInWord c false) (m := m) (by omega) hcl
          fun s hs => hm s (List.mem_append_left _ hs)
        rw [h1]
        have hnd := hb'.2
        rw [List.filterMap_append, visits_symbols, List.nodup_append] at hnd
        have := hr (c := shiftInWord c true) (k := k + 1) (m := m') (by omega) e
          ⟨fun j hj => hb'.1 j (List.mem_append_right _ hj), hnd.2.1⟩
          fun s hs => (h2 s).mpr ⟨fun h => hnd.2.2 s h s hs rfl, hm s (List.mem_append_right _ hs)⟩
        refine ⟨this.1, fun x hx hs => this.2 x hx ?_⟩
        rw [List.mem_append] at hs
        rw [Ne, h2, not_and]
        rcases hs with (hs | hs) | hs
        · exact .inr fun h => absurd hs h
        · exact .inl hs
        · exact .inr fun _ => hs

end Sys2Proof.Machine
end

