-- ==== Sys2Proof/Laws/Utf8.lean ====
section
/-! SUPPORT. Laws of UTF-8 and of the symbol assembler: 30_encoding.md R110 to R112, 41_frequency.md R151, R152. -/

namespace Sys2Proof.Machine
open Sys2Proof Sys2Proof.Safety

theorem toNat_or_low (k : Nat) (hi x : Nat) (h : x < 2 ^ k) : (hi * 2 ^ k) ||| x = hi * 2 ^ k + x := by
  have := Nat.two_pow_add_eq_or_of_lt h hi
  rw [Nat.mul_comm, ← this]

theorem toNat_append' {m n : Nat} (x : BitVec m) (y : BitVec n) : (x ++ y).toNat = x.toNat * 2 ^ n + y.toNat := by
  rw [BitVec.toNat_append, Nat.shiftLeft_eq, toNat_or_low _ _ _ y.isLt]

theorem toNat_extract {w : Nat} (x : BitVec w) (a n : Nat) : (x.extractLsb' a n).toNat = x.toNat / 2 ^ a % 2 ^ n := by
  rw [BitVec.extractLsb'_toNat, Nat.shiftRight_eq_div_pow]

theorem tag_toNat (tag : Byte) (k hi : Nat) {w : Nat} (x : BitVec w) (ht : tag.toNat = hi * 2 ^ k) (hx : x.toNat < 2 ^ k)
    (hk : k ≤ 8) : (tag ||| x.setWidth 8).toNat = hi * 2 ^ k + x.toNat := by
  have h8 : 2 ^ k ≤ 2 ^ 8 := Nat.pow_le_pow_right (by omega) hk
  rw [BitVec.toNat_or, ht, BitVec.toNat_setWidth, Nat.mod_eq_of_lt (by omega), toNat_or_low _ _ _ hx]

theorem contByte_toNat (s : Sym) (lo : Nat) : (contByte s lo).toNat = 128 + s.toNat / 2 ^ lo % 64 := by
  unfold contByte
  rw [tag_toNat 0x80#8 6 2 _ rfl (by rw [toNat_extract]; omega) (by omega), toNat_extract]; norm_num

theorem isScalar_iff (s : Sym) : isScalar s = true ↔ s.toNat ≤ 0x10FFFF ∧ ¬ (0xD800 ≤ s.toNat ∧ s.toNat ≤ 0xDFFF) := by
  simp only [isScalar, Bool.and_eq_true, decide_eq_true_eq, Bool.not_eq_true', Bool.and_eq_false_iff, decide_eq_false_iff_not]
  omega

theorem utf8Enc_cases {s : Sym} (h : isScalar s = true) :
    (s.toNat ≤ 0x7F ∧ ∃ b0, utf8Enc s = [b0] ∧ b0.toNat = s.toNat) ∨
    (0x80 ≤ s.toNat ∧ s.toNat ≤ 0x7FF ∧ ∃ b0 b1, utf8Enc s = [b0, b1] ∧ b0.toNat = 0xC0 + s.toNat / 64 ∧
      b1.toNat = 0x80 + s.toNat % 64) ∨
    (0x800 ≤ s.toNat ∧ s.toNat ≤ 0xFFFF ∧ ∃ b0 b1 b2, utf8Enc s = [b0, b1, b2] ∧ b0.toNat = 0xE0 + s.toNat / 4096 ∧
      b1.toNat = 0x80 + s.toNat / 64 % 64 ∧ b2.toNat = 0x80 + s.toNat % 64) ∨
    (0x10000 ≤ s.toNat ∧ ∃ b0 b1 b2 b3, utf8Enc s = [b0, b1, b2, b3] ∧ b0.toNat = 0xF0 + s.toNat / 262144 ∧
      b1.toNat = 0x80 + s.toNat / 4096 % 64 ∧ b2.toNat = 0x80 + s.toNat / 64 % 64 ∧
      b3.toNat = 0x80 + s.toNat % 64) := by
  rw [isScalar_iff] at h
  unfold utf8Enc
  by_cases h1 : s.toNat ≤ 0x7F
  · exact .inl ⟨h1, _, by rw [if_pos h1], by rw [BitVec.toNat_setWidth]; omega⟩
  by_cases h2 : s.toNat ≤ 0x7FF
  · refine .inr (.inl ⟨by omega, h2, _, _, by rw [if_neg h1, if_pos h2], ?_, ?_⟩)
    · rw [tag_toNat 0xC0#8 5 6 _ rfl (by rw [toNat_extract]; omega) (by omega), toNat_extract]; omega
    · rw [contByte_toNat]; omega
  by_cases h3 : s.toNat ≤ 0xFFFF
  · refine .inr (.inr (.inl ⟨by omega, h3, _, _, _, by rw [if_neg h1, if_neg h2, if_pos h3], ?_, ?_, ?_⟩))
    · rw [tag_toNat 0xE0#8 4 14 _ rfl (by rw [toNat_extract]; omega) (by omega), toNat_extract]; omega
    · rw [contByte_toNat]; norm_num
    · rw [contByte_toNat]; omega
  · refine .inr (.inr (.inr ⟨by omega, _, _, _, _, by rw [if_neg h1, if_neg h2, if_neg h3], ?_, ?_, ?_, ?_⟩))
    · rw [tag_toNat 0xF0#8 3 30 _ rfl (by rw [toNat_extract]; omega) (by omega), toNat_extract]; omega
    · rw [contByte_toNat]; norm_num
    · rw [contByte_toNat]; norm_num
    · rw [contByte_toNat]; omega

theorem scalarOf_toNat1 (b0 : Byte) : (scalarOf [b0]).toNat = b0.toNat := by
  simp only [scalarOf, BitVec.toNat_setWidth]; omega
theorem scalarOf_toNat2 (b0 b1 : Byte) : (scalarOf [b0, b1]).toNat = b0.toNat % 32 * 64 + b1.toNat % 64 := by
  simp only [scalarOf, BitVec.toNat_setWidth, toNat_append', toNat_extract]; omega
theorem scalarOf_toNat3 (b0 b1 b2 : Byte) :
    (scalarOf [b0, b1, b2]).toNat = b0.toNat % 16 * 4096 + b1.toNat % 64 * 64 + b2.toNat % 64 := by
  simp only [scalarOf, BitVec.toNat_setWidth, toNat_append', toNat_extract]; omega
theorem scalarOf_toNat4 (b0 b1 b2 b3 : Byte) :
    (scalarOf [b0, b1, b2, b3]).toNat =
      b0.toNat % 8 * 262144 + b1.toNat % 64 * 4096 + b2.toNat % 64 * 64 + b3.toNat % 64 := by
  simp only [scalarOf, BitVec.toNat_setWidth, toNat_append', toNat_extract]; omega

/-- The row of a byte, by ranges. -/
theorem utf8Row_cases (b : Byte) :
    (b.toNat ≤ 0x7F ∧ utf8Row b = some ⟨0x00, 0x7F, []⟩) ∨
    (0x80 ≤ b.toNat ∧ b.toNat ≤ 0xC1 ∧ utf8Row b = none) ∨
    (0xC2 ≤ b.toNat ∧ b.toNat ≤ 0xDF ∧ utf8Row b = some ⟨0xC2, 0xDF, [(0x80, 0xBF)]⟩) ∨
    (b.toNat = 0xE0 ∧ utf8Row b = some ⟨0xE0, 0xE0, [(0xA0, 0xBF), (0x80, 0xBF)]⟩) ∨
    (0xE1 ≤ b.toNat ∧ b.toNat ≤ 0xEC ∧ utf8Row b = some ⟨0xE1, 0xEC, [(0x80, 0xBF), (0x80, 0xBF)]⟩) ∨
    (b.toNat = 0xED ∧ utf8Row b = some ⟨0xED, 0xED, [(0x80, 0x9F), (0x80, 0xBF)]⟩) ∨
    (0xEE ≤ b.toNat ∧ b.toNat ≤ 0xEF ∧ utf8Row b = some ⟨0xEE, 0xEF, [(0x80, 0xBF), (0x80, 0xBF)]⟩) ∨
    (b.toNat = 0xF0 ∧ utf8Row b = some ⟨0xF0, 0xF0, [(0x90, 0xBF), (0x80, 0xBF), (0x80, 0xBF)]⟩) ∨
    (0xF1 ≤ b.toNat ∧ b.toNat ≤ 0xF3 ∧ utf8Row b = some ⟨0xF1, 0xF3, [(0x80, 0xBF), (0x80, 0xBF), (0x80, 0xBF)]⟩) ∨
    (b.toNat = 0xF4 ∧ utf8Row b = some ⟨0xF4, 0xF4, [(0x80, 0x8F), (0x80, 0xBF), (0x80, 0xBF)]⟩) ∨
    (0xF5 ≤ b.toNat ∧ utf8Row b = none) := by
  revert b; decide

/-- The head of a text is its first scalar, whatever follows (30_encoding.md R112, 41_frequency.md R151). -/
theorem head_utf8Enc {s : Sym} (h : isScalar s = true) (bs : List Byte) :
    head (utf8Enc s ++ bs) = .complete s (utf8Enc s).length := by
  have hs := (isScalar_iff s).mp h
  rcases utf8Enc_cases h with ⟨h1, b0, e, e0⟩ | ⟨h1, h2, b0, b1, e, e0, e1⟩ | ⟨h1, h2, b0, b1, b2, e, e0, e1, e2⟩ |
    ⟨h1, b0, b1, b2, b3, e, e0, e1, e2, e3⟩
  · have hv : scalarOf [b0] = s := BitVec.eq_of_toNat_eq (by rw [scalarOf_toNat1, e0])
    rcases utf8Row_cases b0 with ⟨hb, hr⟩ | hb
    · simp [e, head, hr, matchTail, hv]
    · omega
  · have hv : scalarOf [b0, b1] = s := BitVec.eq_of_toNat_eq (by rw [scalarOf_toNat2, e0, e1]; omega)
    have hc : 128 ≤ b1.toNat ∧ b1.toNat ≤ 191 := by omega
    rcases utf8Row_cases b0 with ⟨hb, hr⟩ | ⟨hb, hb', hr⟩ | ⟨hb, hb', hr⟩ | hb
    · omega
    · omega
    · simp [e, head, hr, matchTail, hv, hc]
    · omega
  · have hv : scalarOf [b0, b1, b2] = s := BitVec.eq_of_toNat_eq (by rw [scalarOf_toNat3, e0, e1, e2]; omega)
    have hc2 : 128 ≤ b2.toNat ∧ b2.toNat ≤ 191 := by omega
    rcases utf8Row_cases b0 with ⟨hb, hr⟩ | ⟨hb, hb', hr⟩ | ⟨hb, hb', hr⟩ | ⟨hb, hr⟩ | ⟨hb, hb', hr⟩ | ⟨hb, hr⟩ |
      ⟨hb, hb', hr⟩ | hb
    · omega
    · omega
    · omega
    · have hc : 160 ≤ b1.toNat ∧ b1.toNat ≤ 191 := by omega
      simp [e, head, hr, matchTail, hv, hc, hc2]
    · have hc : 128 ≤ b1.toNat ∧ b1.toNat ≤ 191 := by omega
      simp [e, head, hr, matchTail, hv, hc, hc2]
    · have hc : 128 ≤ b1.toNat ∧ b1.toNat ≤ 159 := by omega
      simp [e, head, hr, matchTail, hv, hc, hc2]
    · have hc : 128 ≤ b1.toNat ∧ b1.toNat ≤ 191 := by omega
      simp [e, head, hr, matchTail, hv, hc, hc2]
    · omega
  · have hv : scalarOf [b0, b1, b2, b3] = s :=
      BitVec.eq_of_toNat_eq (by rw [scalarOf_toNat4, e0, e1, e2, e3]; omega)
    have hc2 : 128 ≤ b2.toNat ∧ b2.toNat ≤ 191 := by omega
    have hc3 : 128 ≤ b3.toNat ∧ b3.toNat ≤ 191 := by omega
    rcases utf8Row_cases b0 with ⟨hb, hr⟩ | ⟨hb, hb', hr⟩ | ⟨hb, hb', hr⟩ | ⟨hb, hr⟩ | ⟨hb, hb', hr⟩ | ⟨hb, hr⟩ |
      ⟨hb, hb', hr⟩ | ⟨hb, hr⟩ | ⟨hb, hb', hr⟩ | ⟨hb, hr⟩ | hb
    all_goals first
      | omega
      | (have hc : 144 ≤ b1.toNat ∧ b1.toNat ≤ 191 := by omega
         simp [e, head, hr, matchTail, hv, hc, hc2, hc3])
      | (have hc : 128 ≤ b1.toNat ∧ b1.toNat ≤ 143 := by omega
         simp [e, head, hr, matchTail, hv, hc, hc2, hc3])
      | (have hc : 128 ≤ b1.toNat ∧ b1.toNat ≤ 191 := by omega
         simp [e, head, hr, matchTail, hv, hc, hc2, hc3])

/-- The tail of a row matches exactly when each byte is in its range. -/
theorem matchTail_true {rs : List (Nat × Nat)} {bs : List Byte} (h : matchTail rs bs = some true) :
    rs.length ≤ bs.length := by
  induction rs generalizing bs with
  | nil => simp
  | cons r rs ih =>
    cases bs with
    | nil => simp [matchTail] at h
    | cons b bs =>
      obtain ⟨lo, hi⟩ := r
      unfold matchTail at h
      split at h
      · simpa using ih h
      · cases h

/-- A complete head is the UTF-8 form of a scalar (41_frequency.md R151, 30_encoding.md R110 to R112). -/
theorem head_complete {bs : List Byte} {s : Sym} {k : Nat} (h : head bs = .complete s k) :
    isScalar s = true ∧ k = (utf8Enc s).length ∧ ∃ rest, bs = utf8Enc s ++ rest := by
  cases bs with
  | nil => cases h
  | cons b0 tl =>
    have key : ∀ conts : List (Nat × Nat), matchTail conts tl = some true → s = scalarOf (b0 :: tl.take conts.length) →
        (isScalar s = true ∧ utf8Enc s = b0 :: tl.take conts.length) → k = conts.length + 1 →
        isScalar s = true ∧ k = (utf8Enc s).length ∧ ∃ rest, b0 :: tl = utf8Enc s ++ rest := by
      intro conts hm _ hu hk
      have hl := matchTail_true hm
      refine ⟨hu.1, by rw [hu.2, hk]; simp; omega, tl.drop conts.length, by rw [hu.2]; simp⟩
    have one : b0.toNat ≤ 0x7F → s = scalarOf [b0] → isScalar s = true ∧ utf8Enc s = [b0] := by
      intro hb hs
      have hv : s.toNat = b0.toNat := by rw [hs, scalarOf_toNat1]
      have hsc : isScalar s = true := by rw [isScalar_iff]; omega
      refine ⟨hsc, ?_⟩
      rcases utf8Enc_cases hsc with ⟨_, c0, e, e0⟩ | ⟨h1, _⟩ | ⟨h1, _⟩ | ⟨h1, _⟩
      · rw [e, BitVec.eq_of_toNat_eq (e0.trans hv)]
      all_goals omega
    have two : ∀ b1 : Byte, 0xC2 ≤ b0.toNat ∧ b0.toNat ≤ 0xDF → 0x80 ≤ b1.toNat ∧ b1.toNat ≤ 0xBF →
        s = scalarOf [b0, b1] → isScalar s = true ∧ utf8Enc s = [b0, b1] := by
      intro b1 hb hb1 hs
      have hv : s.toNat = b0.toNat % 32 * 64 + b1.toNat % 64 := by rw [hs, scalarOf_toNat2]
      have hsc : isScalar s = true := by rw [isScalar_iff]; omega
      refine ⟨hsc, ?_⟩
      rcases utf8Enc_cases hsc with ⟨h1, _⟩ | ⟨_, _, c0, c1, e, e0, e1⟩ | ⟨h1, _⟩ | ⟨h1, _⟩
      · omega
      · rw [e, BitVec.eq_of_toNat_eq (show c0.toNat = b0.toNat by omega),
          BitVec.eq_of_toNat_eq (show c1.toNat = b1.toNat by omega)]
      all_goals omega
    have three : ∀ b1 b2 : Byte, 0xE0 ≤ b0.toNat ∧ b0.toNat ≤ 0xEF → 0x80 ≤ b1.toNat ∧ b1.toNat ≤ 0xBF →
        (b0.toNat = 0xE0 → 0xA0 ≤ b1.toNat) → (b0.toNat = 0xED → b1.toNat ≤ 0x9F) →
        0x80 ≤ b2.toNat ∧ b2.toNat ≤ 0xBF →
        s = scalarOf [b0, b1, b2] → isScalar s = true ∧ utf8Enc s = [b0, b1, b2] := by
      intro b1 b2 hb hb1 hE0 hED hb2 hs
      have hv : s.toNat = b0.toNat % 16 * 4096 + b1.toNat % 64 * 64 + b2.toNat % 64 := by rw [hs, scalarOf_toNat3]
      have hsc : isScalar s = true := by rw [isScalar_iff]; omega
      refine ⟨hsc, ?_⟩
      rcases utf8Enc_cases hsc with ⟨h1, _⟩ | ⟨_, h1, _⟩ | ⟨_, _, c0, c1, c2, e, e0, e1, e2⟩ | ⟨h1, _⟩
      · omega
      · omega
      · rw [e, BitVec.eq_of_toNat_eq (show c0.toNat = b0.toNat by omega),
          BitVec.eq_of_toNat_eq (show c1.toNat = b1.toNat by omega),
          BitVec.eq_of_toNat_eq (show c2.toNat = b2.toNat by omega)]
      · omega
    have four : ∀ b1 b2 b3 : Byte, 0xF0 ≤ b0.toNat ∧ b0.toNat ≤ 0xF4 → 0x80 ≤ b1.toNat ∧ b1.toNat ≤ 0xBF →
        (b0.toNat = 0xF0 → 0x90 ≤ b1.toNat) → (b0.toNat = 0xF4 → b1.toNat ≤ 0x8F) →
        0x80 ≤ b2.toNat ∧ b2.toNat ≤ 0xBF → 0x80 ≤ b3.toNat ∧ b3.toNat ≤ 0xBF →
        s = scalarOf [b0, b1, b2, b3] → isScalar s = true ∧ utf8Enc s = [b0, b1, b2, b3] := by
      intro b1 b2 b3 hb hb1 hF0 hF4 hb2 hb3 hs
      have hv : s.toNat = b0.toNat % 8 * 262144 + b1.toNat % 64 * 4096 + b2.toNat % 64 * 64 + b3.toNat % 64 := by
        rw [hs, scalarOf_toNat4]
      have hsc : isScalar s = true := by rw [isScalar_iff]; omega
      refine ⟨hsc, ?_⟩
      rcases utf8Enc_cases hsc with ⟨h1, _⟩ | ⟨_, h1, _⟩ | ⟨_, h1, _⟩ | ⟨_, c0, c1, c2, c3, e, e0, e1, e2, e3⟩
      · omega
      · omega
      · omega
      · rw [e, BitVec.eq_of_toNat_eq (show c0.toNat = b0.toNat by omega),
          BitVec.eq_of_toNat_eq (show c1.toNat = b1.toNat by omega),
          BitVec.eq_of_toNat_eq (show c2.toNat = b2.toNat by omega),
          BitVec.eq_of_toNat_eq (show c3.toNat = b3.toNat by omega)]
    have fin : ∀ lo hi conts, utf8Row b0 = some ⟨lo, hi, conts⟩ →
        (matchTail conts tl = some true → s = scalarOf (b0 :: tl.take conts.length) →
          isScalar s = true ∧ utf8Enc s = b0 :: tl.take conts.length) →
        isScalar s = true ∧ k = (utf8Enc s).length ∧ ∃ rest, b0 :: tl = utf8Enc s ++ rest := by
      intro lo hi conts hr hu
      simp only [head, hr] at h
      cases hm : matchTail conts tl with
      | none => simp [hm] at h
      | some t =>
        cases t with
        | false => simp [hm] at h
        | true =>
          simp only [hm, Head.complete.injEq] at h
          exact key conts hm h.1.symm (hu hm h.1.symm) h.2.symm
    have r1 : ∀ lo hi, matchTail [(lo, hi)] tl = some true →
        ∃ b1 t, tl = b1 :: t ∧ lo ≤ b1.toNat ∧ b1.toNat ≤ hi := by
      intro lo hi hm
      cases tl with
      | nil => cases hm
      | cons b1 t =>
        unfold matchTail at hm
        split at hm
        · rename_i hc; exact ⟨b1, t, rfl, hc⟩
        · cases hm
    have r2 : ∀ lo hi lo2 hi2, matchTail [(lo, hi), (lo2, hi2)] tl = some true →
        ∃ b1 b2 t, tl = b1 :: b2 :: t ∧ (lo ≤ b1.toNat ∧ b1.toNat ≤ hi) ∧ lo2 ≤ b2.toNat ∧ b2.toNat ≤ hi2 := by
      intro lo hi lo2 hi2 hm
      match tl, hm with
      | [], hm => cases hm
      | [b1], hm => simp [matchTail] at hm
      | b1 :: b2 :: t, hm =>
        simp only [matchTail] at hm
        split at hm
        · rename_i hc
          split at hm
          · rename_i hc2; exact ⟨b1, b2, t, rfl, hc, hc2⟩
          · cases hm
        · cases hm
    have r3 : ∀ lo hi lo2 hi2 lo3 hi3, matchTail [(lo, hi), (lo2, hi2), (lo3, hi3)] tl = some true →
        ∃ b1 b2 b3 t, tl = b1 :: b2 :: b3 :: t ∧ (lo ≤ b1.toNat ∧ b1.toNat ≤ hi) ∧
          (lo2 ≤ b2.toNat ∧ b2.toNat ≤ hi2) ∧ lo3 ≤ b3.toNat ∧ b3.toNat ≤ hi3 := by
      intro lo hi lo2 hi2 lo3 hi3 hm
      match tl, hm with
      | [], hm => cases hm
      | [b1], hm => simp [matchTail] at hm
      | [b1, b2], hm =>
        simp only [matchTail] at hm
        split at hm
        · split at hm <;> cases hm
        · cases hm
      | b1 :: b2 :: b3 :: t, hm =>
        simp only [matchTail] at hm
        split at hm
        · rename_i hc
          split at hm
          · rename_i hc2
            split at hm
            · rename_i hc3; exact ⟨b1, b2, b3, t, rfl, hc, hc2, hc3⟩
            · cases hm
          · cases hm
        · cases hm
    rcases utf8Row_cases b0 with ⟨hb, hr⟩ | ⟨hb, hb', hr⟩ | ⟨hb, hb', hr⟩ | ⟨hb, hr⟩ | ⟨hb, hb', hr⟩ | ⟨hb, hr⟩ |
      ⟨hb, hb', hr⟩ | ⟨hb, hr⟩ | ⟨hb, hb', hr⟩ | ⟨hb, hr⟩ | ⟨hb, hr⟩
    · refine fin _ _ _ hr fun _ hs => ?_
      simpa using one hb (by simpa using hs)
    · simp [head, hr] at h
    · refine fin _ _ _ hr fun hm hs => ?_
      obtain ⟨b1, t, rfl, hc⟩ := r1 _ _ hm
      simpa using two b1 (by omega) hc (by simpa using hs)
    · refine fin _ _ _ hr fun hm hs => ?_
      obtain ⟨b1, b2, t, rfl, hc, hc2⟩ := r2 _ _ _ _ hm
      simpa using three b1 b2 (by omega) (by omega) (by omega) (by omega) hc2 (by simpa using hs)
    · refine fin _ _ _ hr fun hm hs => ?_
      obtain ⟨b1, b2, t, rfl, hc, hc2⟩ := r2 _ _ _ _ hm
      simpa using three b1 b2 (by omega) (by omega) (by omega) (by omega) hc2 (by simpa using hs)
    · refine fin _ _ _ hr fun hm hs => ?_
      obtain ⟨b1, b2, t, rfl, hc, hc2⟩ := r2 _ _ _ _ hm
      simpa using three b1 b2 (by omega) (by omega) (by omega) (by omega) hc2 (by simpa using hs)
    · refine fin _ _ _ hr fun hm hs => ?_
      obtain ⟨b1, b2, t, rfl, hc, hc2⟩ := r2 _ _ _ _ hm
      simpa using three b1 b2 (by omega) (by omega) (by omega) (by omega) hc2 (by simpa using hs)
    · refine fin _ _ _ hr fun hm hs => ?_
      obtain ⟨b1, b2, b3, t, rfl, hc, hc2, hc3⟩ := r3 _ _ _ _ _ _ hm
      simpa using four b1 b2 b3 (by omega) (by omega) (by omega) (by omega) hc2 hc3 (by simpa using hs)
    · refine fin _ _ _ hr fun hm hs => ?_
      obtain ⟨b1, b2, b3, t, rfl, hc, hc2, hc3⟩ := r3 _ _ _ _ _ _ hm
      simpa using four b1 b2 b3 (by omega) (by omega) (by omega) (by omega) hc2 hc3 (by simpa using hs)
    · refine fin _ _ _ hr fun hm hs => ?_
      obtain ⟨b1, b2, b3, t, rfl, hc, hc2, hc3⟩ := r3 _ _ _ _ _ _ hm
      simpa using four b1 b2 b3 (by omega) (by omega) (by omega) (by omega) hc2 hc3 (by simpa using hs)
    · simp [head, hr] at h

theorem utf8Enc_ne_nil (s : Sym) : utf8Enc s ≠ [] := by
  unfold utf8Enc
  split_ifs <;> simp

theorem utf8Enc_length_pos (s : Sym) : 0 < (utf8Enc s).length := List.length_pos_iff.mpr (utf8Enc_ne_nil s)

/-- A complete head stays, whatever follows. -/
theorem head_append_complete {bs : List Byte} {s : Sym} {k : Nat} (h : head bs = .complete s k) (x : List Byte) :
    head (bs ++ x) = .complete s k := by
  obtain ⟨hs, rfl, rest, rfl⟩ := head_complete h
  rw [List.append_assoc, head_utf8Enc hs]

theorem matchTail_append_none {rs : List (Nat × Nat)} {bs : List Byte} (h : matchTail rs bs = none)
    (x : List Byte) : matchTail rs (bs ++ x) = none := by
  induction rs generalizing bs with
  | nil => simp [matchTail] at h
  | cons r rs ih =>
    obtain ⟨lo, hi⟩ := r
    cases bs with
    | nil => simp [matchTail] at h
    | cons b bs =>
      simp only [List.cons_append]
      unfold matchTail at h ⊢
      split at h
      · rename_i hc; rw [if_pos hc]; exact ih h
      · rename_i hc; rw [if_neg hc]

/-- Ill-formed bytes stay ill-formed, whatever follows. -/
theorem head_append_invalid {bs : List Byte} (h : head bs = .invalid) (x : List Byte) :
    head (bs ++ x) = .invalid := by
  cases bs with
  | nil => cases h
  | cons b tl =>
    simp only [List.cons_append]
    unfold head at h ⊢
    cases hr : utf8Row b with
    | none => simp only [hr]
    | some r =>
      simp only [hr] at h
      cases hm : matchTail r.conts tl with
      | none => simp only [hr, matchTail_append_none hm]
      | some t => cases t <;> simp [hm] at h

theorem matchTail_false {rs : List (Nat × Nat)} {bs : List Byte} (h : matchTail rs bs = some false) :
    bs.length < rs.length := by
  induction rs generalizing bs with
  | nil => simp [matchTail] at h
  | cons r rs ih =>
    cases bs with
    | nil => simp
    | cons b bs =>
      obtain ⟨lo, hi⟩ := r
      unfold matchTail at h
      split at h
      · simpa using ih h
      · cases h

/-- An incomplete sequence has at most three bytes (10_state.md R29). -/
theorem head_incomplete_length {bs : List Byte} (h : head bs = .incomplete) : bs.length ≤ 3 := by
  cases bs with
  | nil => simp
  | cons b tl =>
    unfold head at h
    cases hr : utf8Row b with
    | none => simp [hr] at h
    | some r =>
      have hl : r.conts.length ≤ 3 := by
        rcases utf8Row_cases b with ⟨_, e⟩ | ⟨_, _, e⟩ | ⟨_, _, e⟩ | ⟨_, e⟩ | ⟨_, _, e⟩ | ⟨_, e⟩ |
          ⟨_, _, e⟩ | ⟨_, e⟩ | ⟨_, _, e⟩ | ⟨_, e⟩ | ⟨_, e⟩ <;> rw [e] at hr <;> cases hr <;> simp
      simp only [hr] at h
      cases hm : matchTail r.conts tl with
      | none => simp [hm] at h
      | some t =>
        cases t with
        | true => simp [hm] at h
        | false => have := matchTail_false hm; simp; omega

/-! ### The assembler loop -/

section Feed
variable {σ : Type} (f : σ → Sym → Except Cause σ)

/-- Enough fuel is enough. -/
theorem feed_fuel {n m : Nat} {bs : List Byte} (st : σ) (hn : bs.length ≤ n) (hm : bs.length ≤ m) :
    feed f n bs st = feed f m bs st := by
  induction n generalizing m bs st with
  | zero =>
    have : bs = [] := List.eq_nil_of_length_eq_zero (by omega)
    subst this
    cases m <;> rfl
  | succ n ih =>
    cases bs with
    | nil => cases m <;> rfl
    | cons b tl =>
      cases m with
      | zero => simp at hm
      | succ m =>
        unfold feed
        cases hh : head (b :: tl) with
        | incomplete => rfl
        | invalid => rfl
        | complete s k =>
          have hk : 1 ≤ k := by rw [(head_complete hh).2.1]; exact utf8Enc_length_pos s
          simp only
          cases f st s with
          | error c => rfl
          | ok st' => exact ih st' (by simp at hn ⊢; omega) (by simp at hm ⊢; omega)

/-- One round of the assembler (41_frequency.md R152). -/
theorem feed_step (bs : List Byte) (st : σ) :
    feed f bs.length bs st =
      match head bs with
      | .complete s k =>
        match f st s with
        | .ok st' => feed f (bs.drop k).length (bs.drop k) st'
        | .error c => .error c
      | .incomplete => .ok (st, bs)
      | .invalid => .error .invalidUtf8 := by
  cases bs with
  | nil => rfl
  | cons b tl =>
    rw [List.length_cons]
    conv_lhs => unfold feed
    cases hh : head (b :: tl) with
    | incomplete => rfl
    | invalid => rfl
    | complete s k =>
      have hk : 1 ≤ k := by rw [(head_complete hh).2.1]; exact utf8Enc_length_pos s
      simp only
      cases f st s with
      | error c => rfl
      | ok st' => exact feed_fuel f st' (by simp; omega) (le_refl _)

/-- A text followed by an incomplete sequence: the scalars are handed over in order, the rest is kept
(41_frequency.md R152). -/
theorem feed_text {t : List Sym} {rest : List Byte} (ht : ∀ s ∈ t, isScalar s = true)
    (hr : head rest = .incomplete) (st : σ) :
    feed f (textBytes t ++ rest).length (textBytes t ++ rest) st = (t.foldlM f st).map fun st' => (st', rest) := by
  induction t generalizing st with
  | nil =>
    rw [feed_step]
    simp [textBytes, hr, Except.map, pure, Except.pure]
  | cons s t ih =>
    have e : textBytes (s :: t) ++ rest = utf8Enc s ++ (textBytes t ++ rest) := by simp [textBytes]
    rw [feed_step, e, head_utf8Enc (ht s (by simp))]
    simp only [List.drop_left, List.foldlM_cons]
    cases hf : f st s with
    | error c => rfl
    | ok st' => exact ih (fun x hx => ht x (by simp [hx])) st'

/-- Everything the assembler can have consumed: a text, in order, and an incomplete rest. -/
theorem feed_ok {bs rest : List Byte} {st st' : σ} (h : feed f bs.length bs st = .ok (st', rest)) :
    ∃ t, (∀ s ∈ t, isScalar s = true) ∧ bs = textBytes t ++ rest ∧ head rest = .incomplete ∧
      t.foldlM f st = .ok st' := by
  induction hn : bs.length using Nat.strong_induction_on generalizing bs st with
  | _ n ih =>
    rw [feed_step] at h
    cases hh : head bs with
    | incomplete =>
      rw [hh] at h
      cases h
      exact ⟨[], by simp, by simp [textBytes], hh, rfl⟩
    | invalid => rw [hh] at h; cases h
    | complete s k =>
      obtain ⟨hs, rfl, tl, rfl⟩ := head_complete hh
      rw [hh] at h
      simp only [List.drop_left] at h
      cases hf : f st s with
      | error c => rw [hf] at h; cases h
      | ok st1 =>
        rw [hf] at h
        have hpos := utf8Enc_length_pos s
        obtain ⟨t, h1, h2, h3, h4⟩ := ih tl.length (by simp at hn; omega) h rfl
        refine ⟨s :: t, by simpa using ⟨hs, h1⟩, by simp [textBytes, h2], h3, ?_⟩
        simp only [List.foldlM_cons, hf]
        exact h4

/-- Feeding in two pieces is feeding the whole: the kept bytes go before the next piece (41_frequency.md R158). -/
theorem feed_append (a b : List Byte) (st : σ) :
    feed f (a ++ b).length (a ++ b) st =
      match feed f a.length a st with
      | .ok (st', rest) => feed f (rest ++ b).length (rest ++ b) st'
      | .error c => .error c := by
  induction hn : a.length using Nat.strong_induction_on generalizing a st with
  | _ n ih =>
    rw [← hn, feed_step f a]
    cases hh : head a with
    | incomplete => rfl
    | invalid =>
      have hab := head_append_invalid hh b
      rw [feed_step, hab]
    | complete s k =>
      have hab := head_append_complete hh b
      obtain ⟨hs, rfl, tl, rfl⟩ := head_complete hh
      rw [feed_step, hab]
      simp only [List.append_assoc, List.drop_left]
      cases f st s with
      | error c => rfl
      | ok st1 => exact ih tl.length (by have := utf8Enc_length_pos s; simp at hn; omega) tl st1 rfl

end Feed

/-- Two texts with incomplete rests that are the same bytes are the same (41_frequency.md R152). -/
theorem text_unique {t t' : List Sym} {r r' : List Byte} (ht : ∀ s ∈ t, isScalar s = true)
    (ht' : ∀ s ∈ t', isScalar s = true) (hr : head r = .incomplete) (hr' : head r' = .incomplete)
    (h : textBytes t ++ r = textBytes t' ++ r') : t = t' ∧ r = r' := by
  have e1 := feed_text (σ := List Sym) (fun out s => .ok (out ++ [s])) ht hr []
  have e2 := feed_text (σ := List Sym) (fun out s => .ok (out ++ [s])) ht' hr' []
  have fold : ∀ (l out : List Sym),
      l.foldlM (m := Except Cause) (fun out s => .ok (out ++ [s])) out = .ok (out ++ l) := by
    intro l
    induction l with
    | nil => intro out; simp [pure, Except.pure]
    | cons x l ih => intro out; simp only [List.foldlM_cons]; simpa [bind, Except.bind] using ih (out ++ [x])
  rw [h, e2, fold, fold] at e1
  simp only [Except.map, List.nil_append, Except.ok.injEq, Prod.mk.injEq] at e1
  exact ⟨e1.1.symm, e1.2.symm⟩
/-- An incomplete sequence is kept whole. -/
theorem feed_incomplete {σ : Type} (f : σ → Sym → Except Cause σ) {x : List Byte} (st : σ)
    (h : head x = .incomplete) : feed f x.length x st = .ok (st, x) := by
  rw [feed_step, h]

/-- A text at the front is taken scalar by scalar, whatever follows. -/
theorem feed_textBytes {σ : Type} (f : σ → Sym → Except Cause σ) {t : List Sym} (ht : ∀ s ∈ t, isScalar s = true)
    (x : List Byte) {st st' : σ} (h : t.foldlM f st = .ok st') :
    feed f (textBytes t ++ x).length (textBytes t ++ x) st = feed f x.length x st' := by
  have h2 := feed_text f ht (rest := []) rfl st
  rw [List.append_nil, h] at h2
  rw [feed_append, h2]
  rfl

end Sys2Proof.Machine
end

