-- ==== Sys2Proof/Laws/DataCodec.lean ====
section
/-! SUPPORT. Laws of the DataCodec: 45_data_codec.md R233 to R247. -/

namespace Sys2Proof.Machine

open Sys2Proof Sys2Proof.Config Sys2Proof.Safety

/-! ### Encoding -/

/-- Encoding a text writes its codewords one after another (45_data_codec.md R233, R234). -/
theorem encodeText (p : Params) {pt : List (Sym × Code)} {t : List Sym} (w : BW)
    (h : ∀ s ∈ t, (mapGet s pt).isSome = true) :
    t.foldlM (encodeSym p pt) w = w.writeAll p (encodedBits pt t) := by
  induction t generalizing w with
  | nil => rfl
  | cons s t ih =>
    obtain ⟨c, hc⟩ := Option.isSome_iff_exists.mp (h s (by simp))
    have e : encodedBits pt (s :: t) = codeBits c ++ encodedBits pt t := by simp [encodedBits, hc]
    rw [e, writeAll_append]
    simp only [List.foldlM_cons, encodeSym, hc, writeCode, BW.writeBits, codeBits]
    cases w.writeAll p (msbBits c.code c.length) with
    | error x => rfl
    | ok w1 => exact ih w1 fun x hx => h x (by simp [hx])

/-- A completed encoding met only symbols of the table. -/
theorem encodeText_known {p : Params} {pt : List (Sym × Code)} {t : List Sym} {w w' : BW}
    (h : t.foldlM (encodeSym p pt) w = .ok w') : ∀ s ∈ t, (mapGet s pt).isSome = true := by
  induction t generalizing w with
  | nil => simp
  | cons s t ih =>
    simp only [List.foldlM_cons] at h
    cases hc : mapGet s pt with
    | none =>
      have e : encodeSym p pt w s = .error .symbolNotInTable := by simp [encodeSym, hc]
      rw [e] at h; cases h
    | some c =>
      cases h1 : encodeSym p pt w s with
      | error x => rw [h1] at h; cases h
      | ok w1 =>
        rw [h1] at h
        intro x hx
        rcases List.mem_cons.mp hx with rfl | hx
        · simp [hc]
        · exact ih h x hx

theorem encodeText_error {p : Params} {pt : List (Sym × Code)} {t : List Sym} {w : BW} {c : Cause}
    (h : t.foldlM (encodeSym p pt) w = .error c) : c = .symbolNotInTable ∨ c = .sizeOverflow := by
  induction t generalizing w with
  | nil => cases h
  | cons s t ih =>
    simp only [List.foldlM_cons] at h
    cases h1 : encodeSym p pt w s with
    | error x =>
      rw [h1] at h
      cases h
      unfold encodeSym at h1
      cases hc : mapGet s pt with
      | none => rw [hc] at h1; cases h1; exact .inl rfl
      | some k => rw [hc] at h1; exact .inr (writeAll_error h1)
    | ok w1 => rw [h1] at h; exact ih h

/-- A payload closed: the bits, zeros to a whole byte, then the control byte (45_data_codec.md R237, R238). -/
theorem closePayload_spec {w : BW} (h : w.content.length + 8 ≤ 8 * params.maxBuf) :
    ∃ w' body, closePayload params w = .ok w' ∧ w'.buf = body ++ [BitVec.ofNat 8 (controlValue w.cnt.val)] ∧
      bitsOfBytes body = w.content ++ padding w.content.length ∧ w'.cnt = 0 := by
  obtain ⟨w1, e1⟩ := flush_ok (p := params) (w := w) (by omega)
  obtain ⟨_, h0⟩ := flush_content e1
  have hb := flush_bits e1
  have hl := congrArg List.length hb
  simp only [bitsOfBytes_length, List.length_append, padding, List.length_replicate] at hl
  rcases append_eq params w1 (BitVec.ofNat 8 (controlValue w.cnt.val)) with ⟨_, e2⟩ | ⟨hx, _⟩
  · exact ⟨{ w1 with buf := w1.buf ++ [BitVec.ofNat 8 (controlValue w.cnt.val)] }, w1.buf,
      by simp only [closePayload, e1, Except.bind, writeCtrl, e2], rfl, hb, by ext; exact h0⟩
  · omega

/-- A payload that does not fit with its control byte in MAX_BUF bytes (45_data_codec.md R237). -/
theorem closePayload_overflow {w : BW} (h : 8 * params.maxBuf < w.content.length + 8) :
    closePayload params w = .error .sizeOverflow := by
  cases hw : w.flush params with
  | error c =>
    rcases flush_cases params w with ⟨_, e⟩ | ⟨_, _, e⟩ | ⟨_, _, e⟩ <;> rw [hw] at e <;> cases e
    simp [closePayload, hw, Except.bind]
  | ok w1 =>
    have hl := congrArg List.length (flush_bits hw)
    simp only [bitsOfBytes_length, List.length_append] at hl
    rcases append_eq params w1 (BitVec.ofNat 8 (controlValue w.cnt.val)) with ⟨hx, _⟩ | ⟨_, e⟩
    · omega
    · simp [closePayload, hw, Except.bind, writeCtrl, e]

/-- The control byte counts the meaningful bits (45_data_codec.md R243). -/
theorem meaningfulBits_close {w : BW} {body : List Byte}
    (h : bitsOfBytes body = w.content ++ padding w.content.length) :
    meaningfulBits (body.length + 1) (controlValue w.cnt.val) = w.content.length := by
  have hl := congrArg List.length h
  simp only [bitsOfBytes_length, List.length_append, padding, List.length_replicate, content_length] at hl ⊢
  have := w.cnt.isLt
  unfold meaningfulBits controlValue
  split_ifs <;> omega

theorem ctrlOperand_controlValue (c : Fin 8) :
    ctrlOperand (BitVec.ofNat 8 (controlValue c.val)) = .ok (controlValue c.val) := by
  revert c; decide

/-! ### Decoding -/

/-- An inverse table of a tree: each codeword of the tree, and nothing else, gives its symbol. -/
def inverseOf (n : Node) (ipt : List (Code × Sym)) : Prop :=
  ∀ c s, mapGet c ipt = some s ↔ ∃ path, (s, path) ∈ codewords n ∧ c = codeOf path

theorem inverse_of_tables {n : Node} {pt : List (Sym × Code)} {ipt : List (Code × Sym)} (h : genTable n = .ok pt)
    (hi : invertTable pt [] = .ok ipt) : inverseOf n ipt := by
  obtain ⟨inv, e, _, hg⟩ := invert_genTable h
  rw [hi] at e
  cases e
  intro c s
  rw [hg, genTable_get h]

/-- A strict prefix of a codeword is not in the inverse table (43_prefix_table.md R198 (a)). -/
theorem inverse_none {n : Node} {ipt : List (Code × Sym)} (hi : inverseOf n ipt) (hd : depth n ≤ 32) {s : Sym}
    {p q : List Bool} (hm : (s, p ++ q) ∈ codewords n) (hq : q ≠ []) : mapGet (codeOf p) ipt = none := by
  cases hg : mapGet (codeOf p) ipt with
  | none => rfl
  | some x =>
    exfalso
    obtain ⟨path, hp, hc⟩ := (hi _ _).mp hg
    have hl := (codewords_length hd hm).2
    have hpl : p.length ≤ 32 := by simp at hl; omega
    have := codeOf_injective hpl (codewords_length hd hp).2 hc
    subst this
    have hap := codewords_apart_of_ne hp hm (by
      intro e
      have := congrArg (fun e => e.2.length) e
      simp at this
      exact hq this)
    exact hap.1 (List.prefix_append _ _)

/-- One round of the matching loop (45_data_codec.md R241). -/
theorem decodeBits_succ (ipt : List (Code × Sym)) (k : Nat) {r r' : BR} {b : Bool} (h : r.nextBit = some (b, r'))
    (done : List Bool) (out : List Byte) :
    decodeBits params ipt (k + 1) r (codeOf done) out =
      match mapGet (codeOf (done ++ [b])) ipt with
      | some s =>
        if params.maxBuf < out.length + (utf8Enc s).length then .error .sizeOverflow
        else decodeBits params ipt k r' (codeOf []) (out ++ utf8Enc s)
      | none =>
        if 32 ≤ done.length + 1 then .error .noMatch
        else decodeBits params ipt k r' (codeOf (done ++ [b])) out := by
  have hacc : (⟨shiftInWord (codeOf done).code b, (codeOf done).length + 1⟩ : Code) = codeOf (done ++ [b]) := by
    simp [codeOf]
  conv_lhs => unfold decodeBits
  simp only [h, hacc]
  rfl

/-- One codeword decodes to its symbol (45_data_codec.md R241, R242). -/
theorem decodeBits_symbol {n : Node} {ipt : List (Code × Sym)} (hi : inverseOf n ipt) (hd : depth n ≤ 32) {s : Sym}
    {p q : List Bool} (hm : (s, p ++ q) ∈ codewords n) (hq : q ≠ []) {r : BR} {rest : List Bool} (hr : brOk r = true)
    (hu : r.unread = q ++ rest) (k : Nat) (out : List Byte)
    (ho : out.length + (utf8Enc s).length ≤ params.maxBuf) :
    ∃ r', r'.unread = rest ∧ brOk r' = true ∧ r'.buf = r.buf ∧
      decodeBits params ipt (q.length + k) r (codeOf p) out =
        decodeBits params ipt k r' ⟨0, 0⟩ (out ++ utf8Enc s) := by
  induction q generalizing p r with
  | nil => exact absurd rfl hq
  | cons b q ih =>
    obtain ⟨r1, e1, u1, k1, b1, _⟩ := nextBit_of_cons hr hu
    have hn : (b :: q).length + k = (q.length + k) + 1 := by simp; omega
    rw [hn, decodeBits_succ ipt _ e1]
    cases q with
    | nil =>
      have hg : mapGet (codeOf (p ++ [b])) ipt = some s := (hi _ _).mpr ⟨_, hm, rfl⟩
      exact ⟨r1, by simpa using u1, k1, b1, by
        simp only [hg, if_neg (show ¬ params.maxBuf < out.length + (utf8Enc s).length by omega)]
        simp [codeOf, shiftBits]⟩
    | cons b2 q =>
      have hm' : (s, (p ++ [b]) ++ b2 :: q) ∈ codewords n := by simpa using hm
      have hl := (codewords_length hd hm').2
      have hg := inverse_none hi hd hm' (by simp)
      obtain ⟨r2, u2, k2, b2', e2⟩ := ih (p := p ++ [b]) (r := r1) hm' (by simp) k1 (by simpa using u1)
      refine ⟨r2, u2, k2, b2'.trans b1, ?_⟩
      have hlt : ¬ 32 ≤ p.length + 1 := by simp at hl; omega
      simp only [hg, if_neg hlt]
      exact e2

/-- The codewords of a text decode to the text (45_data_codec.md R241). -/
theorem decodeBits_text {n : Node} {ipt : List (Code × Sym)} (hi : inverseOf n ipt) (hd : depth n ≤ 32)
    (t : List (Sym × List Bool)) (ht : ∀ e ∈ t, e ∈ codewords n) {r : BR} {rest : List Bool} (hr : brOk r = true)
    (hu : r.unread = (t.flatMap Prod.snd) ++ rest) (k : Nat) (out : List Byte)
    (ho : out.length + (textBytes (t.map Prod.fst)).length ≤ params.maxBuf) :
    ∃ r', r'.unread = rest ∧ brOk r' = true ∧ r'.buf = r.buf ∧
      decodeBits params ipt ((t.flatMap Prod.snd).length + k) r ⟨0, 0⟩ out =
        decodeBits params ipt k r' ⟨0, 0⟩ (out ++ textBytes (t.map Prod.fst)) := by
  induction t generalizing r out with
  | nil => exact ⟨r, by simpa using hu, hr, rfl, by simp [textBytes]⟩
  | cons e t ih =>
    obtain ⟨s, path⟩ := e
    have hm := ht (s, path) (by simp)
    have hl := (codewords_length hd hm).1
    simp only [List.flatMap_cons, List.append_assoc] at hu
    simp only [textBytes, List.map_cons, List.flatMap_cons, List.length_append] at ho
    obtain ⟨r1, u1, k1, b1, e1⟩ := decodeBits_symbol hi hd (p := []) (q := path) hm
      (by intro h; rw [h] at hl; simp at hl) hr hu ((t.flatMap Prod.snd).length + k) out (by omega)
    obtain ⟨r2, u2, k2, b2, e2⟩ := ih (fun e he => ht e (by simp [he])) k1 u1 (out ++ utf8Enc s)
      (by simp only [textBytes, List.length_append] at ho ⊢; omega)
    refine ⟨r2, u2, k2, b2.trans b1, ?_⟩
    have hc : codeOf [] = ⟨0, 0⟩ := rfl
    rw [hc] at e1
    simp only [List.flatMap_cons, List.length_append, Nat.add_assoc]
    rw [e1, e2]
    simp [textBytes]

/-- Fewer than 32 bits no stretch of which is in the table gather in the accumulator (45_data_codec.md R241). -/
theorem decodeBits_unmatched {ipt : List (Code × Sym)} {q done rest : List Bool} {r : BR}
    (hg : ∀ j, 1 ≤ j → j ≤ q.length → mapGet (codeOf (done ++ q.take j)) ipt = none) (hr : brOk r = true)
    (hu : r.unread = q ++ rest) (hl : done.length + q.length < 32) (k : Nat) (out : List Byte) :
    ∃ r', r'.unread = rest ∧ brOk r' = true ∧ r'.buf = r.buf ∧
      decodeBits params ipt (q.length + k) r (codeOf done) out = decodeBits params ipt k r' (codeOf (done ++ q)) out := by
  induction q generalizing done r with
  | nil => exact ⟨r, by simpa using hu, hr, rfl, by simp⟩
  | cons b q ih =>
    obtain ⟨r1, e1, u1, k1, b1, _⟩ := nextBit_of_cons hr hu
    simp only [List.length_cons] at hl hg ⊢
    have h1 : mapGet (codeOf (done ++ [b])) ipt = none := by simpa using hg 1 (by omega) (by omega)
    obtain ⟨r2, u2, k2, b2, e2⟩ := ih (done := done ++ [b]) (r := r1)
      (fun j h1 h2 => by simpa using hg (j + 1) (by omega) (by omega)) k1 u1 (by simp; omega)
    refine ⟨r2, u2, k2, b2.trans b1, ?_⟩
    rw [show q.length + 1 + k = (q.length + k) + 1 by omega, decodeBits_succ ipt _ e1]
    simp only [h1, if_neg (show ¬ 32 ≤ done.length + 1 by omega)]
    simpa using e2

/-- Bits inside a codeword are no entry. -/
theorem inverse_inside {n : Node} {ipt : List (Code × Sym)} (hi : inverseOf n ipt) (hd : depth n ≤ 32) {s : Sym}
    {p q x : List Bool} (hm : (s, p ++ (q ++ x)) ∈ codewords n) (hx : x ≠ []) (j : Nat) :
    mapGet (codeOf (p ++ q.take j)) ipt = none := by
  refine inverse_none hi hd (s := s) (q := q.drop j ++ x) ?_ (by simp [hx])
  rw [List.append_assoc, ← List.append_assoc (q.take j), List.take_append_drop]
  exact hm

/-- Bits that end inside a codeword stay in the accumulator (45_data_codec.md R246). -/
theorem decodeBits_partial {n : Node} {ipt : List (Code × Sym)} (hi : inverseOf n ipt) (hd : depth n ≤ 32) {s : Sym}
    {p q x : List Bool} (hm : (s, p ++ (q ++ x)) ∈ codewords n) (hx : x ≠ []) {r : BR} {rest : List Bool}
    (hr : brOk r = true) (hu : r.unread = q ++ rest) (out : List Byte) :
    ∃ r', decodeBits params ipt q.length r (codeOf p) out = .ok (r', codeOf (p ++ q), out) := by
  have hl := (codewords_length hd hm).2
  have hxl := List.length_pos_iff.mpr hx
  simp only [List.length_append] at hl
  obtain ⟨r', _, _, _, e⟩ :=
    decodeBits_unmatched (fun j _ _ => inverse_inside hi hd hm hx j) hr hu (by omega) 0 out
  exact ⟨r', e⟩

/-- A codeword whose symbol takes the text over MAX_BUF (45_data_codec.md R241). -/
theorem decodeBits_overflow {n : Node} {ipt : List (Code × Sym)} (hi : inverseOf n ipt) (hd : depth n ≤ 32) {s : Sym}
    {q : List Bool} (hm : (s, q) ∈ codewords n) {r : BR} {rest : List Bool} (hr : brOk r = true)
    (hu : r.unread = q ++ rest) (k : Nat) (out : List Byte) (ho : params.maxBuf < out.length + (utf8Enc s).length) :
    decodeBits params ipt (q.length + k) r ⟨0, 0⟩ out = .error .sizeOverflow := by
  obtain ⟨h1, h2⟩ := codewords_length hd hm
  rcases List.eq_nil_or_concat q with rfl | ⟨q, b, rfl⟩
  · simp at h1
  · simp only [List.concat_eq_append, List.append_assoc, List.length_append, List.length_singleton] at *
    obtain ⟨r1, u1, k1, _, e1⟩ := decodeBits_unmatched (done := [])
      (fun j _ _ => inverse_inside hi hd (p := []) (q := q) (x := [b]) hm (by simp) j) hr hu (by simp; omega) (1 + k) out
    obtain ⟨r2, e2, _⟩ := nextBit_of_cons k1 u1
    rw [Nat.add_assoc, show (⟨0, 0⟩ : Code) = codeOf [] from rfl, e1, Nat.add_comm 1 k, decodeBits_succ ipt k e2]
    have hg : mapGet (codeOf (q ++ [b])) ipt = some s := (hi _ _).mpr ⟨_, hm, rfl⟩
    simp only [List.nil_append, hg, if_pos ho]

/-- Under a single-symbol table no stretch of bits that begins with a `1` is an entry (45_data_codec.md R245). -/
theorem inverse_single {x : Sym} {w : Nat} {ipt : List (Code × Sym)} (hi : inverseOf (.leaf x w) ipt) {bits : List Bool}
    (hl : bits.length < 32) : mapGet (codeOf (true :: bits)) ipt = none := by
  cases hg : mapGet (codeOf (true :: bits)) ipt with
  | none => rfl
  | some y =>
    exfalso
    obtain ⟨path, hp, hc⟩ := (hi _ _).mp hg
    simp only [codewords, List.mem_singleton, Prod.mk.injEq] at hp
    have := codeOf_injective (by simpa using hl) (by simp [hp.2]) hc
    rw [hp.2] at this
    cases this

/-- Everything a completed matching loop is: the bits were codewords, and then the accumulator's. -/
theorem decodeBits_ok {ipt : List (Code × Sym)} {k : Nat} {r r' : BR} {done : List Bool} {acc : Code}
    {out out' : List Byte} (hr : brOk r = true) (hl : done.length < 32)
    (h : decodeBits params ipt k r (codeOf done) out = .ok (r', acc, out')) :
    ∃ (t : List (Sym × List Bool)) (left : List Bool), acc = codeOf left ∧ left.length < 32 ∧
      (∀ e ∈ t, mapGet (codeOf e.2) ipt = some e.1 ∧ 1 ≤ e.2.length ∧ e.2.length ≤ 32) ∧
      out' = out ++ textBytes (t.map Prod.fst) ∧
      done ++ r.unread.take k = t.flatMap Prod.snd ++ left ∧ k ≤ r.unread.length ∧
      r'.unread = r.unread.drop k ∧ brOk r' = true ∧ r'.buf = r.buf ∧
      (out.length ≤ params.maxBuf → out'.length ≤ params.maxBuf) := by
  induction k generalizing r done out with
  | zero =>
    cases h
    exact ⟨[], done, rfl, hl, by simp, by simp [textBytes], by simp, by simp, by simp, hr, rfl, id⟩
  | succ k ih =>
    rcases nextBit_cases hr with ⟨_, e⟩ | ⟨b, r1, u1, e, k1, b1, _⟩
    · simp [decodeBits, e] at h
    · rw [decodeBits_succ ipt k e] at h
      cases hg : mapGet (codeOf (done ++ [b])) ipt with
      | some s =>
        rw [hg] at h
        simp only at h
        by_cases hb : params.maxBuf < out.length + (utf8Enc s).length
        · rw [if_pos hb] at h; cases h
        · rw [if_neg hb] at h
          obtain ⟨t, left, ha, hll, ht, ho, hbits, hk, hu, kk, bb, hm⟩ := ih (done := []) k1 (by simp) h
          refine ⟨(s, done ++ [b]) :: t, left, ha, hll, ?_, ?_, ?_, ?_, ?_, kk, bb.trans b1, ?_⟩
          · intro e he
            rcases List.mem_cons.mp he with rfl | he
            · exact ⟨hg, by simp, by simp; omega⟩
            · exact ht e he
          · rw [ho]; simp [textBytes]
          · rw [u1]; simp only [List.take_succ_cons, List.flatMap_cons, List.append_assoc]
            rw [← hbits]; simp
          · rw [u1]; simpa using hk
          · rw [hu, u1]; simp
          · intro _
            exact hm (by simp; omega)
      | none =>
        rw [hg] at h
        simp only at h
        by_cases hb : 32 ≤ done.length + 1
        · rw [if_pos hb] at h; cases h
        · rw [if_neg hb] at h
          obtain ⟨t, left, ha, hll, ht, ho, hbits, hk, hu, kk, bb, hm⟩ := ih (done := done ++ [b]) k1 (by simp; omega) h
          refine ⟨t, left, ha, hll, ht, ho, ?_, ?_, ?_, kk, bb.trans b1, hm⟩
          · rw [u1, ← hbits]; simp
          · rw [u1]; simpa using hk
          · rw [hu, u1]; simp

/-- Bits no stretch of which is in the table run into NoMatch at the 32nd (45_data_codec.md R245). -/
theorem decodeBits_noMatch {ipt : List (Code × Sym)} {q done rest : List Bool} {r : BR} {out : List Byte} {k : Nat}
    (hg : ∀ j, 1 ≤ j → j ≤ q.length → mapGet (codeOf (done ++ q.take j)) ipt = none) (hr : brOk r = true)
    (hu : r.unread = q ++ rest) (hl : done.length + q.length = 32) (hq : q ≠ []) (hk : q.length ≤ k) :
    decodeBits params ipt k r (codeOf done) out = .error .noMatch := by
  rcases List.eq_nil_or_concat q with rfl | ⟨q, b, rfl⟩
  · exact absurd rfl hq
  · simp only [List.concat_eq_append, List.append_assoc, List.length_append, List.length_singleton] at *
    obtain ⟨i, rfl⟩ : ∃ i, k = q.length + (i + 1) := ⟨k - q.length - 1, by omega⟩
    obtain ⟨r1, u1, k1, _, e1⟩ := decodeBits_unmatched (done := done) (q := q)
      (fun j h1 h2 => by rw [← List.take_append_of_le_length h2 (l₂ := [b])]; exact hg j h1 (by omega)) hr hu (by omega)
      (i + 1) out
    obtain ⟨r2, e2, _⟩ := nextBit_of_cons k1 u1
    rw [e1, decodeBits_succ ipt i e2]
    have := hg (q.length + 1) (by omega) (by omega)
    rw [List.take_of_length_le (by simp), ← List.append_assoc] at this
    simp only [this, if_pos (show 32 ≤ (done ++ q).length + 1 by simp; omega)]

/-- The bits of a text of known symbols are codewords of the tree (45_data_codec.md R233). -/
theorem encodedBits_codewords {n : Node} {pt : List (Sym × Code)} (h : genTable n = .ok pt) {t : List Sym}
    (hk : ∀ x ∈ t, (mapGet x pt).isSome = true) :
    ∃ l : List (Sym × List Bool), (∀ e ∈ l, e ∈ codewords n) ∧ l.map Prod.fst = t ∧
      l.flatMap Prod.snd = encodedBits pt t := by
  obtain ⟨_, hd⟩ := genTable_inv h
  induction t with
  | nil => exact ⟨[], by simp, rfl, rfl⟩
  | cons x t ih =>
    obtain ⟨l, h1, h2, h3⟩ := ih fun y hy => hk y (by simp [hy])
    obtain ⟨c, hc⟩ := Option.isSome_iff_exists.mp (hk x (by simp))
    obtain ⟨p, hp, rfl⟩ := (genTable_get h x c).mp hc
    refine ⟨(x, p) :: l, ?_, by simp [h2], ?_⟩
    · intro e he
      rcases List.mem_cons.mp he with rfl | he
      · exact hp
      · exact h1 e he
    · simp [encodedBits, hc, codeBits_codeOf (codewords_length hd hp).2]
      exact h3

/-- A decode that completes leaves a reader over the data bytes (45_data_codec.md R243). -/
theorem decodePayload_reader {ipt : List (Code × Sym)} {d out : List Byte} {r : BR} (hd : d.length ≤ params.maxBuf)
    (h : decodePayload params ipt d = .ok (out, r)) : brOk r = true ∧ r.buf = d.dropLast := by
  unfold decodePayload at h
  split at h
  · cases h
  · rename_i kb _
    cases hk : ctrlOperand kb with
    | error c => rw [hk] at h; cases h
    | ok k =>
      rw [hk] at h
      simp only at h
      cases hb : decodeBits params ipt (meaningfulBits d.length k) (BR.load d.dropLast) ⟨0, 0⟩ [] with
      | error c => rw [hb] at h; cases h
      | ok o =>
        obtain ⟨r', acc, out'⟩ := o
        rw [hb] at h
        simp only at h
        split at h
        · cases h
          obtain ⟨_, _, _, _, _, _, _, _, _, hk, hbuf, _⟩ :=
            decodeBits_ok (done := []) (load_brOk d.dropLast (by simp; omega)) (by simp) hb
          exact ⟨hk, hbuf⟩
        · cases h

end Sys2Proof.Machine
end

