-- ==== Sys2Proof/Laws/Decode.lean ====
section
/-! SUPPORT. Laws of the command stream's decoder: 30_encoding.md R80 to R86. -/

namespace Sys2Proof

open Sys2Proof.Machine Sys2Proof.Config Sys2Proof.Safety

/-- The opcode map is read back from its own codes, and from nothing else (30_encoding.md R84). -/
theorem Op.ofByte_eq_some {b : Byte} {o : Op} : Op.ofByte b = some o ↔ o.code = b := by
  constructor
  · intro h
    have := List.find?_some h
    simpa using this
  · rintro rfl
    cases o <;> rfl

@[simp] theorem Op.ofByte_code (o : Op) : Op.ofByte o.code = some o := Op.ofByte_eq_some.mpr rfl

/-- A command word is taken back from its six bytes (30_encoding.md R82). -/
@[simp] theorem takeWord_bytes (w : CmdWord) (rest : List Byte) : takeWord (w.bytes ++ rest) = some (w, rest) := by
  simp [CmdWord.bytes, be32, takeWord, word32_be32]

theorem takeWord_cons (op n a b c d : Byte) (rest : List Byte) :
    takeWord (op :: n :: a :: b :: c :: d :: rest) = some (⟨op, n, word32 a b c d⟩, rest) := rfl

/-- Everything takeWord can do. -/
theorem takeWord_cases (bs : List Byte) :
    (bs.length < 6 ∧ takeWord bs = none) ∨
    (∃ op n a b c d rest, bs = op :: n :: a :: b :: c :: d :: rest ∧
      takeWord bs = some (⟨op, n, word32 a b c d⟩, rest)) := by
  match bs with
  | [] => exact .inl ⟨by simp, rfl⟩
  | [_] => exact .inl ⟨by simp, rfl⟩
  | [_, _] => exact .inl ⟨by simp, rfl⟩
  | [_, _, _] => exact .inl ⟨by simp, rfl⟩
  | [_, _, _, _] => exact .inl ⟨by simp, rfl⟩
  | [_, _, _, _, _] => exact .inl ⟨by simp, rfl⟩
  | op :: n :: a :: b :: c :: d :: rest => exact .inr ⟨op, n, a, b, c, d, rest, rfl, rfl⟩

/-- A taken command: six bytes, its announced data, and what follows (30_encoding.md R82, R83). -/
theorem takeCommand_eq_some {bs d rest : List Byte} {w : CmdWord} :
    takeCommand bs = some (w, d, rest) ↔ bs = w.bytes ++ (d ++ rest) ∧ d.length = w.dataLength := by
  constructor
  · intro h
    unfold takeCommand at h
    rcases takeWord_cases bs with ⟨_, e⟩ | ⟨op, n, a, b, c, e, r, hb, he⟩
    · rw [e] at h; cases h
    · rw [he] at h
      simp only at h
      split at h
      · cases h
      · rename_i hl
        simp only [Option.some.injEq, Prod.mk.injEq] at h
        obtain ⟨rfl, rfl, rfl⟩ := h
        refine ⟨?_, by simp; omega⟩
        rw [List.take_append_drop, hb]
        have := packBits_bitsOfBytes [a, b, c, e]
        have hw : be32 (word32 a b c e) = [a, b, c, e] := by
          apply bitsOfBytes_injective
          rw [bitsOfBytes_be32, msbBits_word32]
          simp
        simp [CmdWord.bytes, hw]
  · rintro ⟨rfl, hd⟩
    unfold takeCommand
    rw [takeWord_bytes]
    have hl : ¬ (d ++ rest).length < w.dataLength := by simp; omega
    simp only [if_neg hl]
    rw [← hd, List.take_left, List.drop_left]

/-- The length a data operand announces (30_encoding.md R83). -/
theorem dataLength_of_ofByte {w : CmdWord} {o : Op} (h : Op.ofByte w.op = some o) :
    w.dataLength = if o.carriesData then w.v.toNat else 0 := by simp [CmdWord.dataLength, h]

theorem fitsLength_toNat {d : List Byte} (h : fitsLength d = true) : (BitVec.ofNat 32 d.length).toNat = d.length := by
  have h' : d.length ≤ 4294967295 := of_decide_eq_true h
  rw [BitVec.toNat_ofNat]
  exact Nat.mod_eq_of_lt (by omega)

theorem takeCommand_encodeOp {o : Op} (h : o.carriesData = false) (n : Byte) (v : Word) (rest : List Byte) :
    takeCommand (encodeOp o n v ++ rest) = some (⟨o.code, n, v⟩, [], rest) := by
  rw [takeCommand_eq_some]
  exact ⟨rfl, by rw [dataLength_of_ofByte (Op.ofByte_code o), h]; rfl⟩

theorem takeCommand_encodeData {o : Op} (h : o.carriesData = true) {d : List Byte} (hd : fitsLength d = true)
    (rest : List Byte) :
    takeCommand (encodeData o d ++ rest) = some (⟨o.code, 0, BitVec.ofNat 32 d.length⟩, d, rest) := by
  rw [takeCommand_eq_some]
  refine ⟨by simp [encodeData, encodeOp], ?_⟩
  rw [dataLength_of_ofByte (Op.ofByte_code o), h, if_pos rfl]
  exact (fitsLength_toNat hd).symm

/-- The decoder on a taken command. -/
theorem decode_of_take {bs d rest : List Byte} {w : CmdWord} (h : takeCommand bs = some (w, d, rest)) :
    decode bs = match decodeWord w d with | .ok i => .ok (i, rest) | .error e => .error e := by
  cases hw : decodeWord w d <;> simp [decode, h, hw]

/-- A word decodes to nothing for two reasons only. -/
theorem decodeWord_error {w : CmdWord} {d : List Byte} {e : DecodeError} (h : decodeWord w d = .error e) :
    e = .illegalOpcode w.op ∨ e = .reservedField w.op := by
  unfold decodeWord at h
  cases ho : Op.ofByte w.op with
  | none => rw [ho] at h; cases h; exact .inl rfl
  | some o =>
    rw [ho] at h
    right
    cases o <;> simp only [noOperand, valueOperand, countOnly] at h <;>
      first
        | (split at h <;> cases h <;> rfl)
        | cases h

theorem reserved_gate {P : Prop} [Decidable P] {b : Bool} (hb : b = true ↔ P) {i : Instr} (hi : isCommand i = true)
    (e : DecodeError) :
    (b = true ∧ ∃ i', isCommand i' = true ∧ (if P then .ok i else .error e : Except DecodeError Instr) = .ok i') ∨
    (b = false ∧ (if P then .ok i else .error e : Except DecodeError Instr) = .error e) := by
  by_cases h : P
  · exact .inl ⟨hb.mpr h, i, hi, if_pos h⟩
  · exact .inr ⟨Bool.eq_false_iff.mpr fun h' => h (hb.mp h'), if_neg h⟩

/-- A word of a legal opcode decodes exactly when its reserved fields are zero (30_encoding.md R81, R85). -/
theorem decodeWord_reserved {w : CmdWord} {o : Op} (h : Op.ofByte w.op = some o) (d : List Byte) :
    (reservedClear w o = true ∧ ∃ i, isCommand i = true ∧ decodeWord w d = .ok i) ∨
    (reservedClear w o = false ∧ decodeWord w d = .error (.reservedField w.op)) := by
  unfold decodeWord
  rw [h]
  cases o
  case bwWbits => exact .inl ⟨rfl, _, rfl, rfl⟩
  all_goals exact reserved_gate (by simp [reservedClear]) rfl _

/-- What decodes from taken bytes is well-formed (30_encoding.md R83). -/
theorem decodeWord_wf {bs d rest : List Byte} {w : CmdWord} {i : Instr} (ht : takeCommand bs = some (w, d, rest))
    (hw : decodeWord w d = .ok i) : i.wf = true := by
  obtain ⟨hb, hd⟩ := takeCommand_eq_some.mp ht
  unfold decodeWord at hw
  cases ho : Op.ofByte w.op with
  | none => rw [ho] at hw; cases hw
  | some o =>
    rw [dataLength_of_ofByte ho] at hd
    rw [ho] at hw
    obtain ⟨op, n, v⟩ := w
    simp only at hd
    have hlt := v.isLt
    cases o <;> simp only [noOperand, valueOperand, countOnly, Op.carriesData] at hw hd <;>
      (try split at hw) <;> cases hw <;> simp_all [Instr.wf, fitsLength, params] <;> omega

/-! ### The command stream at reset (70_reset_and_hazards.md R320) -/

theorem takeCommand_commandBytes {w : CmdWord} {d : List Byte} (h : d.length = w.dataLength) (rest : List Byte) :
    takeCommand (commandBytes w d ++ rest) = some (w, d, rest) := by
  rw [takeCommand_eq_some]
  exact ⟨List.append_assoc _ _ _, h⟩

theorem commandBytes_length (w : CmdWord) (d : List Byte) : 6 ≤ (commandBytes w d).length := by
  simp [commandBytes, CmdWord.bytes, be32]

/-- The bytes of several whole commands. -/
theorem streamLength_le (cs : List (CmdWord × List Byte)) :
    cs.length ≤ (cs.flatMap fun c => commandBytes c.1 c.2).length := by
  induction cs with
  | nil => exact Nat.le_refl 0
  | cons c cs ih =>
    have := commandBytes_length c.1 c.2
    simp only [List.flatMap_cons, List.length_append, List.length_cons]
    omega

/-- Whole commands are kept, a partly received one behind them is not. -/
theorem wholeCommands_spec {cs : List (CmdWord × List Byte)} {part : List Byte} {fuel : Nat}
    (hc : ∀ c ∈ cs, c.2.length = c.1.dataLength) (hp : takeCommand part = none) (hf : cs.length ≤ fuel) :
    wholeCommands fuel (cs.flatMap (fun c => commandBytes c.1 c.2) ++ part) =
      cs.flatMap fun c => commandBytes c.1 c.2 := by
  induction cs generalizing fuel with
  | nil => cases fuel <;> simp [wholeCommands, hp]
  | cons c cs ih =>
    obtain ⟨fuel, rfl⟩ : ∃ n, fuel = n + 1 := ⟨fuel - 1, by simp at hf; omega⟩
    simp only [List.flatMap_cons, List.append_assoc, wholeCommands]
    rw [takeCommand_commandBytes (hc c List.mem_cons_self)]
    simp only
    rw [ih (fun e he => hc e (List.mem_cons_of_mem _ he)) (by simpa using hf)]

/-- The command in progress is dropped, and so are the bytes of a partly received one. -/
theorem streamAfterReset_spec {cs : List (CmdWord × List Byte)} {part : List Byte}
    (hc : ∀ c ∈ cs, c.2.length = c.1.dataLength) (hp : takeCommand part = none) :
    streamAfterReset (cs.flatMap (fun c => commandBytes c.1 c.2) ++ part) =
      (cs.drop 1).flatMap fun c => commandBytes c.1 c.2 := by
  cases cs with
  | nil => simp [streamAfterReset, hp]
  | cons c cs =>
    simp only [List.flatMap_cons, List.append_assoc, streamAfterReset]
    rw [takeCommand_commandBytes (hc c List.mem_cons_self)]
    have := streamLength_le cs
    simp only [List.drop_succ_cons, List.drop_zero]
    exact wholeCommands_spec (fun e he => hc e (List.mem_cons_of_mem _ he)) hp
      (by rw [List.length_append]; omega)

end Sys2Proof
end

