-- ==== Sys2Proof/Laws/Frequency.lean ====
section
/-! SUPPORT. Laws of the frequency table: 10_state.md R28, 41_frequency.md R156, R158, R160. -/

namespace Sys2Proof.Machine

open Sys2Proof Sys2Proof.Config Sys2Proof.Safety

/-- There are 1,112,064 scalars: a table of scalars never outgrows MAX_SYMS (00_scope.md R4). -/
theorem scalars_length_le {l : List Sym} (hn : l.Nodup) (hs : ∀ x ∈ l, isScalar x = true) :
    l.length ≤ 1112064 := by
  let g : Sym → Nat := fun x => if x.toNat < 0xD800 then x.toNat else x.toNat - 0x800
  have hg : ∀ x ∈ l, ∀ y ∈ l, g x = g y → x = y := by
    intro x hx y hy h
    have h1 := (isScalar_iff x).mp (hs x hx)
    have h2 := (isScalar_iff y).mp (hs y hy)
    apply BitVec.eq_of_toNat_eq
    simp only [g] at h
    split_ifs at h <;> omega
  have hn' : (l.map g).Nodup := hn.map_on hg
  have hsub : l.map g ⊆ List.range 1112064 := by
    intro n hn
    obtain ⟨x, hx, rfl⟩ := List.mem_map.mp hn
    have h1 := (isScalar_iff x).mp (hs x hx)
    rw [List.mem_range]
    simp only [g]
    split_ifs <;> omega
  simpa using (hn'.subperm hsub).length_le

theorem tableOk_iff (t : List (Sym × Nat)) :
    tableOk t = true ↔
      mapSorted symRank t = true ∧ t.length ≤ 1112064 ∧
        ∀ e ∈ t, isScalar e.1 = true ∧ 1 ≤ e.2 ∧ e.2 < 2 ^ params.weightW := by
  simp only [tableOk, Bool.and_eq_true, decide_eq_true_eq, List.all_eq_true, and_assoc]
  exact Iff.rfl

/-- Room for one more scalar. -/
theorem tableOk_room {t : List (Sym × Nat)} {s : Sym} (ht : tableOk t = true) (hs : isScalar s = true)
    (hn : mapGet s t = none) : t.length < params.maxSyms := by
  rw [tableOk_iff] at ht
  have hl := scalars_length_le (l := s :: t.map Prod.fst)
    (List.nodup_cons.mpr ⟨mapGet_eq_none_iff.mp hn, mapSorted_nodup symRank ht.1⟩) (by
      intro x hx
      rcases List.mem_cons.mp hx with rfl | hx
      · exact hs
      · obtain ⟨e, he, rfl⟩ := List.mem_map.mp hx
        exact (ht.2.2 e he).1)
  simpa [params] using hl

/-- Everything Count can do on a good table (41_frequency.md R156): one more of that symbol, or WeightOverflow. -/
theorem countSym_cases {t : List (Sym × Nat)} {s : Sym} (ht : tableOk t = true) (hs : isScalar s = true) :
    (countIn t s + 1 < 2 ^ params.weightW ∧ ∃ t', countSym params t s = .ok t' ∧ tableOk t' = true ∧
      ∀ x, countIn t' x = countIn t x + if x = s then 1 else 0) ∨
    (2 ^ params.weightW ≤ countIn t s + 1 ∧ countSym params t s = .error .weightOverflow) := by
  have put : ∀ n, 1 ≤ n → n < 2 ^ params.weightW → (mapPut symRank s n t).length ≤ 1112064 →
      tableOk (mapPut symRank s n t) = true := by
    intro n h1 h2 h3
    have h := (tableOk_iff t).mp ht
    refine (tableOk_iff _).mpr ⟨mapPut_sorted symRank symRank_injective s n h.1, h3, fun e he => ?_⟩
    rcases mem_mapPut symRank he with rfl | he
    · exact ⟨hs, h1, h2⟩
    · exact h.2.2 e he
  unfold countSym
  cases hg : mapGet s t with
  | none =>
    have hroom := tableOk_room ht hs hg
    have hc : countIn t s = 0 := by simp [countIn, hg]
    refine .inl ⟨by rw [hc]; decide, mapPut symRank s 1 t,
      by simp only [if_neg (by omega : ¬ params.maxSyms ≤ t.length)], ?_, ?_⟩
    · exact put 1 (by omega) (by decide) (by rw [mapPut_length symRank hg]; simpa [params] using hroom)
    · intro x
      simp only [countIn, mapGet_put]
      by_cases hx : x = s
      · subst hx; simp [hg]
      · simp [hx]
  | some c =>
    have hc : countIn t s = c := by simp [countIn, hg]
    by_cases ho : 2 ^ params.weightW ≤ c + 1
    · exact .inr ⟨by rw [hc]; exact ho, by simp only [if_pos ho]⟩
    · have h := (tableOk_iff t).mp ht
      refine .inl ⟨by rw [hc]; omega, mapPut symRank s (c + 1) t, by simp only [if_neg ho], ?_, ?_⟩
      · exact put (c + 1) (by omega) (by omega) (by rw [mapPut_length_of_some symRank h.1 hg]; exact h.2.1)
      · intro x
        simp only [countIn, mapGet_put]
        by_cases hx : x = s
        · subst hx; simp [hg]
        · simp [hx]

/-- Counting a text adds to every symbol the number of times it occurs (41_frequency.md R156, R160). -/
theorem countText {t : List (Sym × Nat)} {text : List Sym} (ht : tableOk t = true)
    (hs : ∀ x ∈ text, isScalar x = true) (hb : ∀ x, countIn t x + text.count x < 2 ^ params.weightW) :
    ∃ t', text.foldlM (countSym params) t = .ok t' ∧ tableOk t' = true ∧
      ∀ x, countIn t' x = countIn t x + text.count x := by
  induction text generalizing t with
  | nil => exact ⟨t, rfl, ht, by simp⟩
  | cons s text ih =>
    rcases countSym_cases ht (hs s (by simp)) with ⟨_, t1, e1, k1, c1⟩ | ⟨ho, _⟩
    · obtain ⟨t2, e2, k2, c2⟩ := ih k1 (fun x hx => hs x (by simp [hx])) (by
        intro x
        have := hb x
        rw [c1 x]
        rw [List.count_cons] at this
        by_cases hx : x = s
        · subst hx; simp at this ⊢; omega
        · simp [hx, Ne.symm hx] at this ⊢; omega)
      refine ⟨t2, by simp only [List.foldlM_cons, e1]; exact e2, k2, fun x => ?_⟩
      rw [c2, c1, List.count_cons]
      by_cases hx : x = s
      · subst hx; simp; omega
      · simp [hx, Ne.symm hx]
    · exfalso
      have := hb s
      rw [List.count_cons] at this
      simp at this
      omega

/-- Counting keeps a good table good. -/
theorem countText_keeps {t t' : List (Sym × Nat)} {text : List Sym} (ht : tableOk t = true)
    (hs : ∀ x ∈ text, isScalar x = true) (h : text.foldlM (countSym params) t = .ok t') : tableOk t' = true := by
  induction text generalizing t with
  | nil => cases h; exact ht
  | cons s text ih =>
    simp only [List.foldlM_cons] at h
    rcases countSym_cases ht (hs s (by simp)) with ⟨_, t1, e1, k1, _⟩ | ⟨_, e⟩
    · rw [e1] at h; exact ih k1 (fun x hx => hs x (by simp [hx])) h
    · rw [e] at h; cases h

/-- Every counted symbol, and every key there was, is a key. -/
theorem countText_keys {t t' : List (Sym × Nat)} {text : List Sym} (h : text.foldlM (countSym params) t = .ok t')
    (x : Sym) (hx : x ∈ text ∨ (mapGet x t).isSome = true) : (mapGet x t').isSome = true := by
  induction text generalizing t with
  | nil => cases h; simpa using hx
  | cons y text ih =>
    rw [List.foldlM_cons] at h
    cases hc : countSym params t y with
    | error c => rw [hc] at h; cases h
    | ok t1 =>
      rw [hc] at h
      refine ih h ?_
      have key : (mapGet x t1).isSome = true ↔ (x = y ∨ (mapGet x t).isSome = true) := by
        unfold countSym at hc
        cases hg : mapGet y t <;> rw [hg] at hc <;> simp only at hc <;> split at hc <;> cases hc <;>
          rw [mapGet_put] <;> by_cases he : x = y <;> simp [he, hg]
      rw [key]
      rcases hx with hx | hx
      · rcases List.mem_cons.mp hx with h | h
        · exact .inr (.inl h)
        · exact .inl h
      · exact .inr (.inr hx)

end Sys2Proof.Machine
end

