-- ==== Sys2Proof/Laws/State.lean ====
section
/-! SUPPORT. One lemma per field of State and per operation that updates State, each true by rfl. -/

namespace Sys2Proof.Machine

open Sys2Proof Sys2Proof.Config

section
variable (st : Byte) (v : Word) (d : List Byte) (s : State) (c : Cause) (r : HostResult)

@[simp] theorem respond_bw : (respond st v d s).bw = s.bw := rfl
@[simp] theorem respond_br : (respond st v d s).br = s.br := rfl
@[simp] theorem respond_ft : (respond st v d s).ft = s.ft := rfl
@[simp] theorem respond_tb : (respond st v d s).tb = s.tb := rfl
@[simp] theorem respond_pg : (respond st v d s).pg = s.pg := rfl
@[simp] theorem respond_dc : (respond st v d s).dc = s.dc := rfl
@[simp] theorem respond_flt : (respond st v d s).flt = s.flt := rfl
@[simp] theorem respond_cmdIn : (respond st v d s).cmdIn = s.cmdIn := rfl
@[simp] theorem respond_resps : (respond st v d s).resps = s.resps ++ [⟨st, v, d⟩] := rfl
@[simp] theorem respond_resetIn : (respond st v d s).resetIn = s.resetIn := rfl
@[simp] theorem respond_hostOut : (respond st v d s).hostOut = s.hostOut := rfl
@[simp] theorem respond_freeCtr : (respond st v d s).freeCtr = s.freeCtr := rfl
@[simp] theorem respond_faulted : (respond st v d s).faulted = s.faulted := rfl

@[simp] theorem answer_bw : (answer v d s).bw = s.bw := rfl
@[simp] theorem answer_br : (answer v d s).br = s.br := rfl
@[simp] theorem answer_ft : (answer v d s).ft = s.ft := rfl
@[simp] theorem answer_tb : (answer v d s).tb = s.tb := rfl
@[simp] theorem answer_pg : (answer v d s).pg = s.pg := rfl
@[simp] theorem answer_dc : (answer v d s).dc = s.dc := rfl
@[simp] theorem answer_flt : (answer v d s).flt = s.flt := rfl
@[simp] theorem answer_cmdIn : (answer v d s).cmdIn = s.cmdIn := rfl
@[simp] theorem answer_resps : (answer v d s).resps = s.resps ++ [⟨0x00#8, v, d⟩] := rfl
@[simp] theorem answer_resetIn : (answer v d s).resetIn = s.resetIn := rfl
@[simp] theorem answer_hostOut : (answer v d s).hostOut = s.hostOut := rfl
@[simp] theorem answer_freeCtr : (answer v d s).freeCtr = s.freeCtr := rfl
@[simp] theorem answer_faulted : (answer v d s).faulted = s.faulted := rfl

@[simp] theorem raise_flt : (raise c s).flt = c.flt := rfl
@[simp] theorem raise_cmdIn : (raise c s).cmdIn = s.cmdIn := rfl
@[simp] theorem raise_resps : (raise c s).resps = s.resps ++ [⟨0xFF#8, c.flt.value, []⟩] := rfl
@[simp] theorem raise_resetIn : (raise c s).resetIn = s.resetIn := rfl
@[simp] theorem raise_hostOut : (raise c s).hostOut = s.hostOut := rfl
@[simp] theorem raise_freeCtr : (raise c s).freeCtr = s.freeCtr + 1 := rfl

@[simp] theorem refuse_bw : (refuse s).bw = s.bw := rfl
@[simp] theorem refuse_br : (refuse s).br = s.br := rfl
@[simp] theorem refuse_ft : (refuse s).ft = s.ft := rfl
@[simp] theorem refuse_tb : (refuse s).tb = s.tb := rfl
@[simp] theorem refuse_pg : (refuse s).pg = s.pg := rfl
@[simp] theorem refuse_dc : (refuse s).dc = s.dc := rfl
@[simp] theorem refuse_flt : (refuse s).flt = s.flt := rfl
@[simp] theorem refuse_cmdIn : (refuse s).cmdIn = s.cmdIn := rfl
@[simp] theorem refuse_resps : (refuse s).resps = s.resps ++ [⟨0xFF#8, s.flt.value, []⟩] := rfl
@[simp] theorem refuse_resetIn : (refuse s).resetIn = s.resetIn := rfl
@[simp] theorem refuse_hostOut : (refuse s).hostOut = s.hostOut := rfl
@[simp] theorem refuse_freeCtr : (refuse s).freeCtr = s.freeCtr := rfl
@[simp] theorem refuse_faulted : (refuse s).faulted = s.faulted := rfl

@[simp] theorem resetBlock_bw : (resetBlock s).bw = State.reset.bw := rfl
@[simp] theorem resetBlock_br : (resetBlock s).br = State.reset.br := rfl
@[simp] theorem resetBlock_ft : (resetBlock s).ft = State.reset.ft := rfl
@[simp] theorem resetBlock_tb : (resetBlock s).tb = State.reset.tb := rfl
@[simp] theorem resetBlock_pg : (resetBlock s).pg = State.reset.pg := rfl
@[simp] theorem resetBlock_dc : (resetBlock s).dc = State.reset.dc := rfl
@[simp] theorem resetBlock_flt : (resetBlock s).flt = ⟨0, 0⟩ := rfl
@[simp] theorem resetBlock_cmdIn : (resetBlock s).cmdIn = s.cmdIn := rfl
@[simp] theorem resetBlock_resps : (resetBlock s).resps = s.resps := rfl
@[simp] theorem resetBlock_resetIn : (resetBlock s).resetIn = s.resetIn := rfl
@[simp] theorem resetBlock_hostOut : (resetBlock s).hostOut = s.hostOut := rfl
@[simp] theorem resetBlock_freeCtr : (resetBlock s).freeCtr = s.freeCtr := rfl
@[simp] theorem resetBlock_faulted : (resetBlock s).faulted = false := rfl

@[simp] theorem hardReset_bw : (hardReset s).bw = State.reset.bw := rfl
@[simp] theorem hardReset_br : (hardReset s).br = State.reset.br := rfl
@[simp] theorem hardReset_ft : (hardReset s).ft = State.reset.ft := rfl
@[simp] theorem hardReset_tb : (hardReset s).tb = State.reset.tb := rfl
@[simp] theorem hardReset_pg : (hardReset s).pg = State.reset.pg := rfl
@[simp] theorem hardReset_dc : (hardReset s).dc = State.reset.dc := rfl
@[simp] theorem hardReset_flt : (hardReset s).flt = ⟨0, 0⟩ := rfl
@[simp] theorem hardReset_cmdIn :
    (hardReset s).cmdIn = if s.resetIn then s.cmdIn else streamAfterReset s.cmdIn := rfl
@[simp] theorem hardReset_resps : (hardReset s).resps = s.resps := rfl
@[simp] theorem hardReset_resetIn : (hardReset s).resetIn = true := rfl
@[simp] theorem hardReset_hostOut : (hardReset s).hostOut = s.hostOut := rfl
@[simp] theorem hardReset_freeCtr : (hardReset s).freeCtr = s.freeCtr := rfl
@[simp] theorem hardReset_faulted : (hardReset s).faulted = false := rfl

@[simp] theorem report_bw : (report r s).bw = s.bw := rfl
@[simp] theorem report_br : (report r s).br = s.br := rfl
@[simp] theorem report_ft : (report r s).ft = s.ft := rfl
@[simp] theorem report_tb : (report r s).tb = s.tb := rfl
@[simp] theorem report_pg : (report r s).pg = s.pg := rfl
@[simp] theorem report_dc : (report r s).dc = s.dc := rfl
@[simp] theorem report_flt : (report r s).flt = s.flt := rfl
@[simp] theorem report_cmdIn : (report r s).cmdIn = s.cmdIn := rfl
@[simp] theorem report_resps : (report r s).resps = s.resps := rfl
@[simp] theorem report_resetIn : (report r s).resetIn = s.resetIn := rfl
@[simp] theorem report_hostOut : (report r s).hostOut = s.hostOut ++ [r] := rfl
@[simp] theorem report_freeCtr : (report r s).freeCtr = s.freeCtr := rfl
@[simp] theorem report_faulted : (report r s).faulted = s.faulted := rfl

end

end Sys2Proof.Machine
end

