-- ==== Sys2Proof/Laws/Ops.lean ====
section
/-! SUPPORT. What the shared operations can do: a command's three outcomes, fault entry, refusal, admission. -/

namespace Sys2Proof.Machine

open Sys2Proof Sys2Proof.Config

/-- No cause has kind 0: a fault entry always leaves the machine faulted. -/
theorem kind_ne_zero (c : Cause) : c.kind ≠ 0 := by cases c <;> decide

@[simp] theorem raise_faulted (c : Cause) (s : State) : (raise c s).faulted = true :=
  decide_eq_true (kind_ne_zero c)

/-- Distinct causes leave distinct values in FLT. -/
theorem cause_flt_injective : Function.Injective Cause.flt := by
  intro a b h
  cases a <;> cases b <;> first | rfl | (exact absurd h (by decide))

@[simp] theorem command_of_faulted {pre : Bool} {own : Except Cause State} {s : State} (h : s.faulted = true) :
    command pre own s = refuse s := by simp [command, h]

theorem command_of_ok {pre : Bool} {own : Except Cause State} {s t : State} (h : s.faulted = false)
    (hp : pre = true) (ho : own = .ok t) : command pre own s = t := by simp [command, settle, h, hp, ho]

theorem command_of_error {pre : Bool} {own : Except Cause State} {s : State} {c : Cause} (h : s.faulted = false)
    (hp : pre = true) (ho : own = .error c) : command pre own s = raise c s := by
  simp [command, settle, h, hp, ho]

theorem command_of_sequence {pre : Bool} {own : Except Cause State} {s : State} (h : s.faulted = false)
    (hp : pre = false) : command pre own s = raise .sequenceError s := by simp [command, h, hp]

/-- Everything a guarded command can do: be refused, be out of sequence, raise its own fault, or complete. -/
theorem command_cases (pre : Bool) (own : Except Cause State) (s : State) :
    (s.faulted = true ∧ command pre own s = refuse s) ∨
    (s.faulted = false ∧ pre = false ∧ command pre own s = raise .sequenceError s) ∨
    (∃ c, s.faulted = false ∧ pre = true ∧ own = .error c ∧ command pre own s = raise c s) ∨
    (∃ t, s.faulted = false ∧ pre = true ∧ own = .ok t ∧ command pre own s = t) := by
  cases hf : s.faulted
  · cases pre
    · exact .inr (.inl ⟨rfl, rfl, command_of_sequence hf rfl⟩)
    · cases own with
      | error c => exact .inr (.inr (.inl ⟨c, rfl, rfl, rfl, command_of_error hf rfl rfl⟩))
      | ok t => exact .inr (.inr (.inr ⟨t, rfl, rfl, rfl, command_of_ok hf rfl rfl⟩))
  · exact .inl ⟨rfl, command_of_faulted hf⟩

/-- A command that starts healthy and ends healthy has completed. -/
theorem command_completed {pre : Bool} {own : Except Cause State} {s : State}
    (h : (command pre own s).faulted = false) :
    s.faulted = false ∧ pre = true ∧ own = .ok (command pre own s) := by
  rcases command_cases pre own s with ⟨hf, e⟩ | ⟨_, _, e⟩ | ⟨c, _, _, _, e⟩ | ⟨t, hf, hp, ho, e⟩
  · rw [e, refuse_faulted, hf] at h; cases h
  · rw [e, raise_faulted] at h; cases h
  · rw [e, raise_faulted] at h; cases h
  · exact ⟨hf, hp, by rw [e, ho]⟩

@[simp] theorem unlessReset_held {r : Result} {s : State} (h : s.resetIn = true) :
    unlessReset r s = .next (resetBlock s) := by simp [unlessReset, h]

@[simp] theorem unlessReset_released {r : Result} {s : State} (h : s.resetIn = false) : unlessReset r s = r := by
  simp [unlessReset, h]

/-- An item's emission: nothing while faulted, its own part or its fault otherwise. -/
theorem emit_of_ok {own : Except Cause State} {s t : State} (h : s.faulted = false) (ho : own = .ok t) :
    emit own s = t := by simp [emit, settle, h, ho]

end Sys2Proof.Machine
end

