-- ==== Sys2Proof/Laws/TreeBuilder.lean ====
section
/-! SUPPORT. Laws of the Tree Builder: 42_tree_builder.md R174 to R180. -/

namespace Sys2Proof.Machine

open Sys2Proof Sys2Proof.Config Sys2Proof.Safety

/-- With MAX_NODES unbounded there is always room (00_scope.md R4, log 7). -/
@[simp] theorem roomForNode_params (n : Nat) : roomForNode params n = true := rfl

/-- A node whose weights add up weighs what its leaves weigh (42_tree_builder.md R180 (a)). -/
theorem nodeWeight_eq {n : Node} (h : weightsAdd n = true) : nodeWeight n = totalCount (leaves n) := by
  induction n with
  | leaf s w => simp [nodeWeight, leaves, totalCount]
  | internal w l r hl hr =>
    simp only [weightsAdd, Bool.and_eq_true, decide_eq_true_eq] at h
    simp only [nodeWeight, leaves, totalCount, List.map_append, List.sum_append] at *
    rw [h.1.1, hl h.1.2, hr h.2]

/-- The entry of a Leaf (42_tree_builder.md R172, R175). -/
def leafEntry (e : Sym × Nat) : Entry := ⟨.leaf e.1 e.2, leafKey e.1 e.2⟩

/-- Loading puts one Leaf per key into the queue, in key order (42_tree_builder.md R175). -/
theorem loadLeaves_spec (t : List (Sym × Nat)) (b : Build) (hn : (t.map Prod.fst).Nodup) (hq : mqSorted b.mq)
    (hd : ∀ e ∈ t, ∀ x ∈ b.mq, x.key ≠ leafKey e.1 e.2) :
    ∃ b', loadLeaves params t b = .ok b' ∧ b'.mq.Perm (t.map leafEntry ++ b.mq) ∧ b'.seq = b.seq ∧
      mqSorted b'.mq := by
  induction t generalizing b with
  | nil => exact ⟨b, rfl, List.Perm.refl _, rfl, hq⟩
  | cons e t ih =>
    obtain ⟨s, w⟩ := e
    simp only [List.map_cons, List.nodup_cons] at hn
    obtain ⟨b', e1, e2, e3, e4⟩ := ih
      { b with mq := mqInsert ⟨.leaf s w, leafKey s w⟩ b.mq, used := b.used + 1 } hn.2
      (mqInsert_sorted hq fun x hx => hd (s, w) (by simp) x hx) (by
        intro e he x hx
        rcases List.mem_cons.mp ((mqInsert_perm _ _).mem_iff.mp hx) with rfl | hx
        · intro h
          simp only [leafKey, Key.mk.injEq] at h
          exact hn.1 (List.mem_map.mpr ⟨e, he, (BitVec.eq_of_toNat_eq h.2.2).symm⟩)
        · exact hd e (by simp [he]) x hx)
    refine ⟨b', by simp only [loadLeaves, roomForNode_params, if_true]; exact e1, ?_, e3, e4⟩
    refine e2.trans ?_
    rw [List.map_cons, List.cons_append]
    refine (List.Perm.append_left _ (mqInsert_perm _ _)).trans ?_
    exact List.perm_middle

/-- What a build keeps true of its queue. -/
structure BuildOk (t : List (Sym × Nat)) (b : Build) : Prop where
  sorted : mqSorted b.mq
  weight : ∀ e ∈ b.mq, e.key.weight = nodeWeight e.node
  tie : ∀ e ∈ b.mq, e.key.kind = 1 → e.key.tie < b.seq.toNat
  adds : ∀ e ∈ b.mq, weightsAdd e.node = true
  lighter : ∀ e ∈ b.mq, lighterLeft e.node = true
  leaves : (b.mq.flatMap fun e => leaves e.node).Perm t

/-- After loading. -/
theorem loadLeaves_buildOk {t : List (Sym × Nat)} (hn : (t.map Prod.fst).Nodup) :
    ∃ b, loadLeaves params t ⟨[], 0, 0⟩ = .ok b ∧ BuildOk t b ∧ b.mq.length = t.length ∧ b.seq = 0 := by
  obtain ⟨b, e1, e2, e3, e4⟩ := loadLeaves_spec t ⟨[], 0, 0⟩ hn List.Pairwise.nil (by simp)
  simp only [List.append_nil] at e2
  have hm : ∀ e ∈ b.mq, ∃ x ∈ t, leafEntry x = e := fun e he => List.mem_map.mp (e2.mem_iff.mp he)
  refine ⟨b, e1, ⟨e4, ?_, ?_, ?_, ?_, ?_⟩, by simpa using e2.length_eq, e3⟩
  · intro e he; obtain ⟨x, _, rfl⟩ := hm e he; rfl
  · intro e he; obtain ⟨x, _, rfl⟩ := hm e he; simp [leafEntry, leafKey]
  · intro e he; obtain ⟨x, _, rfl⟩ := hm e he; rfl
  · intro e he; obtain ⟨x, _, rfl⟩ := hm e he; rfl
  · refine (e2.flatMap_right _).trans ?_
    clear e1 e2 e3 e4 hm hn b
    induction t with
    | nil => simp
    | cons x t ih => simpa [leafEntry, Safety.leaves] using ih

/-- One merge (42_tree_builder.md R176, R179): the two least nodes become the children of the new one. -/
theorem mergeStep_eq {b : Build} {x y : Entry} {q : List Entry} (h : b.mq = x :: y :: q) :
    mergeStep params b =
      if 2 ^ params.weightW ≤ nodeWeight x.node + nodeWeight y.node then .error .weightOverflow
      else .ok
        { mq := mqInsert ⟨.internal (nodeWeight x.node + nodeWeight y.node) x.node y.node,
            internalKey (nodeWeight x.node + nodeWeight y.node) b.seq.toNat⟩ q
          seq := b.seq + 1
          used := b.used + 1 } := by
  simp [mergeStep, h, mqExtract]

/-- A merge keeps the build's invariant (42_tree_builder.md R180). -/
theorem mergeStep_keeps {t : List (Sym × Nat)} {b : Build} {x y : Entry} {q : List Entry} (hb : BuildOk t b)
    (h : b.mq = x :: y :: q) (hw : totalCount t < 2 ^ params.weightW) (hs : b.seq.toNat + 1 < 2 ^ 32) :
    ∃ b', mergeStep params b = .ok b' ∧ BuildOk t b' ∧ b'.mq.length = q.length + 1 ∧
      b'.seq.toNat = b.seq.toNat + 1 := by
  obtain ⟨h1, h2, h3, h4, h5, h6⟩ := hb
  rw [h] at h1 h2 h3 h4 h5 h6
  have hsum : totalCount (leaves x.node) + (totalCount (leaves y.node) +
      totalCount (q.flatMap fun e => leaves e.node)) = totalCount t := by
    have := (h6.map Prod.snd).sum_eq
    simpa [totalCount] using this
  have hx := nodeWeight_eq (h4 x (by simp))
  have hy := nodeWeight_eq (h4 y (by simp))
  have hlt : ¬ 2 ^ params.weightW ≤ nodeWeight x.node + nodeWeight y.node := by omega
  have hseq : (b.seq + 1).toNat = b.seq.toNat + 1 := by
    rw [BitVec.toNat_add]
    exact Nat.mod_eq_of_lt hs
  have hxy : x.key.lt y.key = true := (List.pairwise_cons.mp h1).1 y (by simp)
  have hle : nodeWeight x.node ≤ nodeWeight y.node := by
    have hk := (Key.lt_iff _ _).mp hxy
    rw [h2 x (by simp), h2 y (by simp)] at hk
    omega
  have hq : mqSorted q := ((List.pairwise_cons.mp h1).2 |> List.pairwise_cons.mp).2
  refine ⟨_, by rw [mergeStep_eq h, if_neg hlt], ⟨?_, ?_, ?_, ?_, ?_, ?_⟩, by simp, hseq⟩
  · refine mqInsert_sorted hq fun z hz hk => ?_
    have := h3 z (by simp [hz])
    rw [hk] at this
    simp [internalKey] at this
  · intro e he
    rcases List.mem_cons.mp ((mqInsert_perm _ _).mem_iff.mp he) with rfl | he
    · rfl
    · exact h2 e (by simp [he])
  · intro e he hk
    rw [hseq]
    rcases List.mem_cons.mp ((mqInsert_perm _ _).mem_iff.mp he) with rfl | he
    · simp [internalKey]
    · have := h3 e (by simp [he]) hk; omega
  · intro e he
    rcases List.mem_cons.mp ((mqInsert_perm _ _).mem_iff.mp he) with rfl | he
    · simp [weightsAdd, h4 x (by simp), h4 y (by simp)]
    · exact h4 e (by simp [he])
  · intro e he
    rcases List.mem_cons.mp ((mqInsert_perm _ _).mem_iff.mp he) with rfl | he
    · simp [lighterLeft, h5 x (by simp), h5 y (by simp), hle]
    · exact h5 e (by simp [he])
  · refine ((mqInsert_perm _ _).flatMap_right _).trans ?_
    simpa [Safety.leaves] using h6

/-- Merging until one node remains (42_tree_builder.md R174, R178). -/
theorem mergeAll_spec {t : List (Sym × Nat)} {fuel : Nat} {b : Build} (hb : BuildOk t b) (h0 : b.mq ≠ [])
    (hf : b.mq.length ≤ fuel + 1) (hw : totalCount t < 2 ^ params.weightW)
    (hs : b.seq.toNat + b.mq.length ≤ 2 ^ 32) :
    ∃ b' root, mergeAll params fuel b = .ok b' ∧ b'.mq = [root] ∧ BuildOk t b' ∧
      b'.seq.toNat + 1 = b.seq.toNat + b.mq.length := by
  induction fuel generalizing b with
  | zero =>
    match hm : b.mq, h0 with
    | [root], _ => exact ⟨b, root, rfl, hm, hb, by simp⟩
    | x :: y :: q, _ => rw [hm] at hf; simp at hf
  | succ fuel ih =>
    unfold mergeAll
    match hm : b.mq, h0 with
    | [root], _ => exact ⟨b, root, by simp, hm, hb, by simp⟩
    | x :: y :: q, _ =>
      rw [hm] at hf hs
      simp only [List.length_cons] at hf hs
      obtain ⟨b1, e1, k1, l1, s1⟩ := mergeStep_keeps hb hm hw (by omega)
      obtain ⟨b2, root, e2, r2, k2, s2⟩ := ih k1 (by intro h; rw [h] at l1; simp at l1) (by omega) (by omega)
      refine ⟨b2, root, ?_, r2, k2, by simp only [List.length_cons]; omega⟩
      have : ¬ (x :: y :: q).length ≤ 1 := by simp
      rw [if_neg this, e1]
      exact e2

/-- A build from a table of distinct symbols (42_tree_builder.md R174, R178, R180). -/
theorem buildTree_spec {t : List (Sym × Nat)} (hn : (t.map Prod.fst).Nodup) (h0 : t ≠ [])
    (hl : t.length ≤ 2 ^ 32) (hw : totalCount t < 2 ^ params.weightW) :
    ∃ b root, buildTree params t = .ok b ∧ b.mq = [root] ∧ (leaves root.node).Perm t ∧
      weightsAdd root.node = true ∧ lighterLeft root.node = true ∧ b.seq.toNat + 1 = t.length := by
  obtain ⟨b, e1, k1, l1, s1⟩ := loadLeaves_buildOk hn
  have hpos : 0 < t.length := List.length_pos_iff.mpr h0
  obtain ⟨b2, root, e2, r2, k2, s2⟩ := mergeAll_spec (fuel := b.mq.length) k1
    (by intro h; rw [h] at l1; simp at l1; omega) (by omega) hw (by rw [s1, l1]; simpa using hl)
  refine ⟨b2, root, by simp only [buildTree, e1]; exact e2, r2, ?_, ?_, ?_, ?_⟩
  · have := k2.leaves; rw [r2] at this; simpa using this
  · exact k2.adds root (by rw [r2]; simp)
  · exact k2.lighter root (by rw [r2]; simp)
  · rw [s2, s1, l1]; simp

/-- The weights in a queue, together. -/
def mqWeight (q : List Entry) : Nat := (q.map fun e => nodeWeight e.node).sum

/-- Loading adds one Leaf per entry, whatever the queue holds. -/
theorem loadLeaves_perm {t : List (Sym × Nat)} {b b' : Build} (h : loadLeaves params t b = .ok b') :
    b'.mq.Perm (t.map leafEntry ++ b.mq) := by
  induction t generalizing b with
  | nil => cases h; exact List.Perm.refl _
  | cons e t ih =>
    simp only [loadLeaves, roomForNode_params, if_true] at h
    exact (ih h).trans (((List.Perm.refl _).append (mqInsert_perm _ _)).trans List.perm_middle)

/-- Merging keeps the sum of the weights, and each weight within WEIGHT_W (42_tree_builder.md R176). -/
theorem mergeAll_weight {n : Nat} {b b' : Build} (h : mergeAll params n b = .ok b')
    (hw : ∀ e ∈ b.mq, nodeWeight e.node < 2 ^ params.weightW) (hn : b.mq.length ≤ n + 1) :
    mqWeight b'.mq = mqWeight b.mq ∧ (∀ e ∈ b'.mq, nodeWeight e.node < 2 ^ params.weightW) ∧
      b'.mq.length ≤ 1 := by
  induction n generalizing b with
  | zero => cases h; exact ⟨rfl, hw, hn⟩
  | succ n ih =>
    unfold mergeAll at h
    split at h
    · rename_i h1; cases h; exact ⟨rfl, hw, h1⟩
    · rename_i h1
      obtain ⟨mq, seq, used⟩ := b
      match mq, h1 with
      | [], h1 => exact absurd (by simp) h1
      | [_], h1 => exact absurd (by simp) h1
      | x :: y :: rest, _ =>
      rw [mergeStep_eq rfl] at h
      by_cases ho : 2 ^ params.weightW ≤ nodeWeight x.node + nodeWeight y.node
      · rw [if_pos ho] at h; cases h
      · rw [if_neg ho] at h
        have hp := mqInsert_perm ⟨.internal (nodeWeight x.node + nodeWeight y.node) x.node y.node,
          internalKey (nodeWeight x.node + nodeWeight y.node) seq.toNat⟩ rest
        obtain ⟨i1, i2, i3⟩ := ih h (by
          intro e he
          rcases List.mem_cons.mp (hp.mem_iff.mp he) with rfl | he
          · simp only [nodeWeight] at *; omega
          · exact hw e (by simp [he])) (by simp at hn ⊢; omega)
        refine ⟨i1.trans ?_, i2, i3⟩
        unfold mqWeight
        rw [(hp.map _).sum_eq]; simp [nodeWeight]; omega


/-- A build that succeeds had counts whose sum fits. -/
theorem buildTree_total {t : List (Sym × Nat)} {b : Build} (ht : tableOk t = true)
    (hb : buildTree params t = .ok b) : totalCount t < 2 ^ params.weightW := by
  obtain ⟨hs, hl, hk⟩ := (tableOk_iff _).mp ht
  unfold buildTree at hb
  cases h1 : loadLeaves params t ⟨[], 0, 0⟩ with
  | error c => rw [h1] at hb; cases hb
  | ok b0 =>
    rw [h1] at hb
    have hp := loadLeaves_perm h1
    rw [List.append_nil] at hp
    obtain ⟨m1, m2, m3⟩ := mergeAll_weight hb (by
      intro e he
      obtain ⟨x, hx, rfl⟩ := List.mem_map.mp (hp.mem_iff.mp he)
      exact (hk x hx).2.2) (by omega)
    have : mqWeight b0.mq = totalCount t := by
      unfold mqWeight; rw [(hp.map _).sum_eq, List.map_map]; rfl
    rw [this] at m1
    have hpos : 0 < 2 ^ params.weightW := Nat.two_pow_pos _
    clear hb
    generalize b.mq = q at *
    match q, m3 with
    | [], _ =>
      have : mqWeight [] = 0 := rfl
      omega
    | [e], _ =>
      have := m2 e (by simp)
      have h2 : mqWeight [e] = nodeWeight e.node := by simp [mqWeight]
      omega

theorem scalarLeaves_iff (n : Node) : scalarLeaves n = true ↔ ∀ e ∈ leaves n, isScalar e.1 = true := by
  induction n with
  | leaf s w => simp [scalarLeaves, leaves]
  | internal w l r hl hr =>
    simp only [scalarLeaves, leaves, Bool.and_eq_true, hl, hr, List.mem_append, or_imp, forall_and]

/-- A merge step lowers the size by one (42_tree_builder.md R178). -/
theorem mergeStep_length {b b' : Build} (h : mergeStep params b = .ok b') (h2 : 2 ≤ b.mq.length) :
    b'.mq.length + 1 = b.mq.length := by
  obtain ⟨mq, seq, used⟩ := b
  match mq, h2 with
  | x :: y :: q, _ =>
    rw [mergeStep_eq rfl] at h
    split at h <;> cases h
    simp [(mqInsert_perm _ _).length_eq]

/-- Merging until one entry remains is one merge step fewer than there are entries (42_tree_builder.md R174, R178). -/
theorem mergeAll_steps {fuel : Nat} {b b' : Build} (h : mergeAll params fuel b = .ok b')
    (hf : b.mq.length ≤ fuel + 1) : mergeSteps params (b.mq.length - 1) b = .ok b' := by
  induction fuel generalizing b with
  | zero =>
    cases h
    rw [show List.length b'.mq - 1 = 0 by omega]
    rfl
  | succ fuel ih =>
    unfold mergeAll at h
    split at h
    · cases h
      rw [show List.length b'.mq - 1 = 0 by omega]
      rfl
    · rename_i hl
      cases hs : mergeStep params b with
      | error c => rw [hs] at h; cases h
      | ok b1 =>
        rw [hs] at h
        have h1 := mergeStep_length hs (by omega)
        have := ih h (by omega)
        rw [show b.mq.length - 1 = (b1.mq.length - 1) + 1 by omega, mergeSteps, hs]
        exact this

end Sys2Proof.Machine
end

