-- ==== Sys2Proof/Laws/TreeHeader.lean ====
section
/-! SUPPORT. Laws of the TreeHeaderCodec: 44_tree_header.md R213, R214, R218 to R224. -/

namespace Sys2Proof.Machine

open Sys2Proof Sys2Proof.Config Sys2Proof.Safety

/-- Ser writes the tree's tokens, in pre-order (44_tree_header.md R213). -/
theorem ser_eq_writeAll (p : Params) (n : Node) (w : BW) : ser p n w = w.writeAll p (tokens n) := by
  induction n generalizing w with
  | leaf s x =>
    simp only [ser, writeLeaf, tokens, itemBits, BW.writeAll]
    cases w.writeBit p true <;> rfl
  | internal x l r hl hr =>
    simp only [ser, writeNode, tokens, itemBits, List.cons_append, List.nil_append, BW.writeAll]
    cases w.writeBit p false with
    | error c => rfl
    | ok w1 =>
      simp only [hl, writeAll_append]
      cases w1.writeAll p (tokens l) with
      | error c => rfl
      | ok w2 => simp only [hr]; rfl

/-- The size of a header in bits: 33 a leaf, 1 an internal node (44_tree_header.md R214). -/
theorem tokens_length (n : Node) : (tokens n).length + 1 = 34 * (leaves n).length := by
  induction n with
  | leaf s w => simp [tokens, itemBits, leaves]
  | internal w l r hl hr =>
    simp only [tokens, itemBits, leaves, List.length_append, List.length_cons, List.length_nil]
    omega

theorem depth_lt_tokens (n : Node) : depth n < (tokens n).length := by
  induction n with
  | leaf s w => simp [tokens, itemBits, depth]
  | internal w l r hl hr =>
    simp only [tokens, itemBits, depth, List.length_append, List.length_cons, List.length_nil]
    omega

/-- A LEAF's symbol field (44_tree_header.md R218 to R220): 32 bits that are a scalar. -/
theorem desLeaf_spec {r : BR} (h : brOk r = true) :
    (r.unread.length < 32 ∧ desLeaf r = .error .headerTruncated) ∨
    (∃ x r', r.unread = msbBits x 32 ++ r'.unread ∧ isScalar x = true ∧ desLeaf r = .ok (x, r') ∧ brOk r' = true ∧
      r'.buf = r.buf ∧ r'.len = r.len) ∨
    (∃ x rest, r.unread = msbBits x 32 ++ rest ∧ isScalar x = false ∧ desLeaf r = .error .invalidScalar) := by
  unfold desLeaf
  rw [remaining_eq h]
  by_cases hn : r.unread.length < 32
  · exact .inl ⟨hn, by simp [hn]⟩
  · rcases readBits_spec h 32 with ⟨h', _⟩ | ⟨_, r', e, u, k, b, l⟩
    · omega
    · have hm := msbBits_unbe32_packBits (r.unread.take 32) (by simp; omega)
      have hu : r.unread = msbBits (unbe32 (packBits (r.unread.take 32))) 32 ++ r'.unread := by
        rw [hm, u, List.take_append_drop]
      cases hs : isScalar (unbe32 (packBits (r.unread.take 32))) with
      | true => exact .inr (.inl ⟨_, r', hu, hs, by simp [hn, e, scalarOperand, hs], k, b, l⟩)
      | false => exact .inr (.inr ⟨_, _, hu, hs, by simp [hn, e, scalarOperand, hs]⟩)

theorem msbBits32_injective {x y : Word} (h : msbBits x 32 = msbBits y 32) : x = y := by
  rw [← unbe32_packBits_msbBits x, h, unbe32_packBits_msbBits]

/-- Des reads back the tokens of a tree and stops after them; weights are forgotten (44_tree_header.md R218, R221,
R222). -/
theorem des_tokens {n : Node} {fuel used : Nat} {r : BR} {rest : List Bool} (hr : brOk r = true)
    (hs : scalarLeaves n = true) (hu : r.unread = tokens n ++ rest) (hf : depth n < fuel) :
    ∃ used' r', des params fuel used r = .ok (forgetWeights n, used', r') ∧ r'.unread = rest ∧ brOk r' = true ∧
      r'.buf = r.buf ∧ r'.len = r.len := by
  induction n generalizing fuel used r rest with
  | leaf s w =>
    cases fuel with
    | zero => omega
    | succ fuel =>
      simp only [tokens, itemBits, List.cons_append] at hu
      obtain ⟨r1, e1, u1, k1, b1, l1⟩ := nextBit_of_cons hr hu
      rcases desLeaf_spec k1 with ⟨h, _⟩ | ⟨x, r2, u2, _, e2, k2, b2, l2⟩ | ⟨x, r2, u2, h2, _⟩
      · rw [u1] at h; simp at h
      · rw [u1] at u2
        have hx := List.append_inj u2 (by simp)
        rw [← msbBits32_injective hx.1] at e2
        exact ⟨used + 1, r2, by simp [des, e1, e2, forgetWeights], hx.2.symm, k2, b2.trans b1, l2.trans l1⟩
      · rw [u1] at u2
        rw [← msbBits32_injective (List.append_inj u2 (by simp)).1, show isScalar s = true from hs] at h2
        cases h2
  | internal w a b ha hb =>
    cases fuel with
    | zero => omega
    | succ fuel =>
      simp only [scalarLeaves, Bool.and_eq_true] at hs
      simp only [depth] at hf
      simp only [tokens, itemBits, List.cons_append, List.nil_append, List.append_assoc] at hu
      obtain ⟨r1, e1, u1, k1, b1, l1⟩ := nextBit_of_cons hr hu
      obtain ⟨n2, r2, e2, u2, k2, b2, l2⟩ := ha (fuel := fuel) (used := used + 1) k1 hs.1 u1 (by omega)
      obtain ⟨n3, r3, e3, u3, k3, b3, l3⟩ := hb (fuel := fuel) (used := n2) k2 hs.2 u2 (by omega)
      exact ⟨n3, r3, by simp [des, e1, e2, e3, forgetWeights], u3, k3, b3.trans (b2.trans b1), l3.trans (l2.trans l1)⟩

/-- Everything a completed Des is: it has read the tokens of the tree it gives, whose symbols are scalars. -/
theorem des_ok {fuel used used' : Nat} {r r' : BR} {n : Node} (hr : brOk r = true)
    (h : des params fuel used r = .ok (n, used', r')) :
    r.unread = tokens n ++ r'.unread ∧ scalarLeaves n = true ∧ forgetWeights n = n ∧ brOk r' = true ∧
      r'.buf = r.buf ∧ r'.len = r.len := by
  induction fuel generalizing used used' r r' n with
  | zero => cases h
  | succ fuel ih =>
    unfold des at h
    rcases nextBit_cases hr with ⟨_, e⟩ | ⟨b, r1, u1, e, k1, b1, l1⟩
    · rw [e] at h; cases h
    · rw [e] at h
      cases b with
      | true =>
        simp only at h
        rcases desLeaf_spec k1 with ⟨_, e2⟩ | ⟨x, r2, u2, s2, e2, k2, b2, l2⟩ | ⟨x, r2, _, _, e2⟩
        · rw [e2] at h; cases h
        · rw [e2] at h
          cases h
          refine ⟨?_, s2, rfl, k2, b2.trans b1, l2.trans l1⟩
          rw [u1, u2]; rfl
        · rw [e2] at h; cases h
      | false =>
        simp only [roomForNode_params, if_true] at h
        cases h2 : des params fuel (used + 1) r1 with
        | error c => rw [h2] at h; cases h
        | ok o2 =>
          obtain ⟨l, used2, r2⟩ := o2
          rw [h2] at h
          simp only at h
          cases h3 : des params fuel used2 r2 with
          | error c => rw [h3] at h; cases h
          | ok o3 =>
            obtain ⟨t, used3, r3⟩ := o3
            rw [h3] at h
            cases h
            obtain ⟨u2, s2, f2, k2, b2, l2⟩ := ih k1 h2
            obtain ⟨u3, s3, f3, k3, b3, l3⟩ := ih k2 h3
            refine ⟨?_, by simp [scalarLeaves, s2, s3], by simp [forgetWeights, f2, f3], k3, b3.trans (b2.trans b1),
              l3.trans (l2.trans l1)⟩
            rw [u1, u2, u3]
            simp [tokens, itemBits]

/-- The two ways a rebuild fails (44_tree_header.md R219, R220). -/
theorem des_error {fuel used : Nat} {r : BR} {c : Cause} (hr : brOk r = true)
    (h : des params fuel used r = .error c) : c = .headerTruncated ∨ c = .invalidScalar := by
  induction fuel generalizing used r with
  | zero => cases h; exact .inl rfl
  | succ fuel ih =>
    unfold des at h
    rcases nextBit_cases hr with ⟨_, e⟩ | ⟨b, r1, _, e, k1, _, _⟩
    · rw [e] at h; cases h; exact .inl rfl
    · rw [e] at h
      cases b with
      | true =>
        simp only [roomForNode_params, if_true] at h
        rcases desLeaf_spec k1 with ⟨_, e2⟩ | ⟨x, r2, _, _, e2, _⟩ | ⟨x, r2, _, _, e2⟩ <;> rw [e2] at h <;> cases h
        · exact .inl rfl
        · exact .inr rfl
      | false =>
        simp only [roomForNode_params, if_true] at h
        cases h2 : des params fuel (used + 1) r1 with
        | error x => rw [h2] at h; cases h; exact ih k1 h2
        | ok o2 =>
          obtain ⟨l, used2, r2⟩ := o2
          rw [h2] at h
          simp only at h
          cases h3 : des params fuel used2 r2 with
          | error x => rw [h3] at h; cases h; exact ih (des_ok k1 h2).2.2.2.1 h3
          | ok o3 => rw [h3] at h; cases h

/-- A tree's tokens, one after another (44_tree_header.md R213). -/
theorem tokens_eq_flatMap (n : Node) : tokens n = (tokenList n).flatMap itemBits := by
  induction n with
  | leaf s w => simp [tokens, tokenList]
  | internal w l r hl hr => simp [tokens, tokenList, hl, hr]

theorem scalarLeaves_tokenList (n : Node) : scalarLeaves n = true ↔ scalarTokens (tokenList n) := by
  induction n with
  | leaf s w => simp [scalarLeaves, scalarTokens, tokenList]
  | internal w l r hl hr =>
    simp only [scalarLeaves, Bool.and_eq_true, hl, hr, scalarTokens, tokenList, List.mem_cons, List.mem_append]
    exact ⟨fun h x hx => by rcases hx with hx | hx | hx; cases hx; exacts [h.1 x hx, h.2 x hx],
      fun h => ⟨fun x hx => h x (.inr (.inl hx)), fun x hx => h x (.inr (.inr hx))⟩⟩

/-- What HC.DES meets at a token and stops on: too few bits for it, or a LEAF whose field is no scalar
(44_tree_header.md R219, R220). -/
def stopsAt (tok : Instr) (rest : List Bool) (c : Cause) : Prop :=
  (rest <+: itemBits tok ∧ rest ≠ itemBits tok ∧ c = .headerTruncated) ∨
  (∃ x more, tok = .leaf x ∧ isScalar x = false ∧ rest = itemBits tok ++ more ∧ c = .invalidScalar)

/-- A leaf's bits that stop HC.DES. -/
theorem des_leaf_stops {fuel used : Nat} {r : BR} {s : Sym} {c : Cause} (hr : brOk r = true)
    (h : stopsAt (.leaf s) r.unread c) : des params (fuel + 1) used r = .error c := by
  rcases h with ⟨hp, hne, rfl⟩ | ⟨x, more, e, hx, hu, rfl⟩
  · unfold des
    rcases nextBit_cases hr with ⟨_, e⟩ | ⟨b, r1, u1, e, k1, _, _⟩
    · rw [e]
    · rw [e]
      rw [u1] at hp hne
      simp only [itemBits, List.cons_prefix_cons] at hp
      obtain ⟨rfl, hp⟩ := hp
      have hl : r1.unread.length < 32 := by
        have h1 := hp.length_le
        rw [msbBits_length] at h1
        rcases Nat.lt_or_ge r1.unread.length 32 with h | h
        · exact h
        · exact absurd (by rw [hp.eq_of_length (by rw [msbBits_length]; omega)]; rfl) hne
      rcases desLeaf_spec k1 with ⟨_, e2⟩ | ⟨x, r2, u2, _⟩ | ⟨x, rest, u2, _⟩
      · simp only [e2]
      · rw [u2] at hl; simp at hl
      · rw [u2] at hl; simp at hl
  · cases e
    simp only [itemBits, List.cons_append] at hu
    obtain ⟨r1, e1, u1, k1, b1, l1⟩ := nextBit_of_cons hr hu
    rcases desLeaf_spec k1 with ⟨h, _⟩ | ⟨x, r2, u2, h2, _⟩ | ⟨x, r2, u2, h2, e2⟩
    · rw [u1] at h; simp at h
    · rw [u1] at u2
      rw [← msbBits32_injective (List.append_inj u2 (by simp)).1, hx] at h2
      cases h2
    · simp [des, e1, e2]

/-- The first token in bit order on which HC.DES stops decides its fault (60_exceptions.md R292). -/
theorem des_stops {n : Node} {fuel used : Nat} {r : BR} {before after : List Instr} {tok : Instr} {rest : List Bool}
    {c : Cause} (hr : brOk r = true) (hf : r.unread.length < fuel) (hn : tokenList n = before ++ tok :: after)
    (hs : scalarTokens before) (hu : r.unread = before.flatMap itemBits ++ rest) (hc : stopsAt tok rest c) :
    des params fuel used r = .error c := by
  induction n generalizing fuel used r before after with
  | leaf s w =>
    obtain ⟨fuel, rfl⟩ : ∃ i, fuel = i + 1 := ⟨fuel - 1, by omega⟩
    cases before with
    | cons t before => simp [tokenList] at hn
    | nil =>
      cases hn
      exact des_leaf_stops hr (by rw [hu]; exact hc)
  | internal w a b ha hb =>
    obtain ⟨fuel, rfl⟩ : ∃ i, fuel = i + 1 := ⟨fuel - 1, by omega⟩
    cases before with
    | nil =>
      cases hn
      rcases hc with ⟨hp, hne, rfl⟩ | ⟨x, more, e, _⟩
      · have h0 : r.unread = [] := by
          rw [hu]
          cases rest with
          | nil => rfl
          | cons x rest =>
            simp only [itemBits, List.cons_prefix_cons, List.prefix_nil] at hp
            obtain ⟨rfl, rfl⟩ := hp
            exact absurd rfl hne
        rcases nextBit_cases hr with ⟨_, e⟩ | ⟨b, r1, u1, _⟩
        · simp [des, e]
        · rw [h0] at u1; cases u1
      · cases e
    | cons t before =>
      simp only [tokenList, List.cons_append, List.cons.injEq] at hn
      obtain ⟨rfl, hn⟩ := hn
      have hs' : scalarTokens before := fun x hx => hs x (List.mem_cons_of_mem _ hx)
      simp only [List.flatMap_cons, itemBits, List.cons_append, List.nil_append] at hu
      obtain ⟨r1, e1, u1, k1, b1, l1⟩ := nextBit_of_cons hr hu
      have hl : r1.unread.length < fuel := by rw [u1]; rw [hu] at hf; simpa using hf
      rcases append_eq_append_cons hn with ⟨x, e, _⟩ | ⟨x, rfl, e⟩
      · simp [des, e1, ha (used := used + 1) k1 hl e hs' u1]
      · rw [List.flatMap_append, ← tokens_eq_flatMap, List.append_assoc] at u1
        have hsa : scalarLeaves a = true :=
          (scalarLeaves_tokenList a).mpr fun y hy => hs' y (List.mem_append_left _ hy)
        have hd := depth_lt_tokens a
        have hlen := congrArg List.length u1
        simp only [List.length_append] at hlen
        obtain ⟨n2, r2, e2, u2, k2, b2, l2⟩ := des_tokens (fuel := fuel) (used := used + 1) k1 hsa u1 (by omega)
        have hl2 : r2.unread.length < fuel := by rw [u2, List.length_append]; omega
        simp [des, e1, e2,
          hb (used := n2) k2 hl2 e (fun y hy => hs' y (List.mem_append_right _ hy)) u2]

/-- The same of a whole header (44_tree_header.md R217). -/
theorem desHeader_stops {d : List Byte} {n : Node} {before after : List Instr} {tok : Instr} {rest : List Bool}
    {c : Cause} (hd : d.length ≤ params.maxBuf) (hn : tokenList n = before ++ tok :: after)
    (hs : scalarTokens before) (hu : bitsOfBytes d = before.flatMap itemBits ++ rest) (hc : stopsAt tok rest c) :
    desHeader params d = .error c := by
  unfold desHeader
  rw [des_stops (load_brOk d hd) (by simp) hn hs (by simpa using hu) hc]

/-- A header: the tree's tokens and whatever follows (44_tree_header.md R217, R222). -/
theorem desHeader_tokens {d : List Byte} {n : Node} {rest : List Bool} (hd : d.length ≤ params.maxBuf)
    (hs : scalarLeaves n = true) (hb : bitsOfBytes d = tokens n ++ rest) :
    ∃ r, desHeader params d = .ok (forgetWeights n, r) ∧ r.unread = rest ∧ brOk r = true ∧ r.buf = d := by
  have hl := congrArg List.length hb
  have hdt := depth_lt_tokens n
  rw [bitsOfBytes_length, List.length_append] at hl
  obtain ⟨u, r, e, hu, k, b, _⟩ := des_tokens (fuel := 8 * d.length + 1) (used := 0) (load_brOk d hd) hs
    (by rw [load_unread]; exact hb) (by omega)
  exact ⟨r, by simp [desHeader, e], hu, k, b⟩

/-- Everything a completed rebuild is. -/
theorem desHeader_ok {d : List Byte} {n : Node} {r : BR} (hd : d.length ≤ params.maxBuf)
    (h : desHeader params d = .ok (n, r)) :
    bitsOfBytes d = tokens n ++ r.unread ∧ scalarLeaves n = true ∧ forgetWeights n = n ∧ brOk r = true ∧ r.buf = d := by
  unfold desHeader at h
  cases h1 : des params (8 * d.length + 1) 0 (BR.load d) with
  | error c => rw [h1] at h; cases h
  | ok o =>
    obtain ⟨t, u, r'⟩ := o
    rw [h1] at h
    cases h
    obtain ⟨hu, hs, hf, k, b, _⟩ := des_ok (load_brOk d hd) h1
    exact ⟨by rw [← hu, load_unread], hs, hf, k, b⟩

theorem desHeader_error {d : List Byte} {c : Cause} (hd : d.length ≤ params.maxBuf)
    (h : desHeader params d = .error c) : c = .headerTruncated ∨ c = .invalidScalar := by
  unfold desHeader at h
  cases h1 : des params (8 * d.length + 1) 0 (BR.load d) with
  | error x => rw [h1] at h; cases h; exact des_error (load_brOk d hd) h1
  | ok o => rw [h1] at h; cases h

end Sys2Proof.Machine
end

