-- ==== Sys2Proof/Laws/Exec.lean ====
section
/-! SUPPORT. What exec does with a command, said once: the shared checks, then the command's own part. -/

namespace Sys2Proof.Machine

open Sys2Proof Sys2Proof.Config Sys2Proof.Safety

/-- A guarded command's own part: what it does once no fault is recorded and its precondition holds. -/
def ownPart (s : State) : Instr → Except Cause State
  | .bwClr => withWriter s (.ok BW.clear)
  | .bwWbit v => withWriter s ((bitOperand v).bind (s.bw.writeBit params))
  | .bwWbits n v => withWriter s ((countOperand n).bind (s.bw.writeBits params v))
  | .bwFlush => withWriter s (s.bw.flush params)
  | .bwPos => .ok (answer (BitVec.ofNat 32 s.bw.cnt.val) [] s)
  | .bwRdbuf => .ok (answer (BitVec.ofNat 32 s.bw.buf.length) s.bw.buf s)
  | .brLoad d => .ok (answer 0 [] { s with br := BR.load d })
  | .brNext => .ok (brNext s)
  | .brRbits n => brRbits n.toNat s
  | .brPos => .ok (answer s.br.byte [BitVec.ofNat 8 s.br.bit.val] s)
  | .ftClr => .ok (answer 0 [] { s with ft := { table := [], inc := [], done := false } })
  | .ftUpd d => ftUpd params d s
  | .ftEnd => ftEnd s
  | .ftRd v => .ok (answer 0 (beBytes (byteCount params.weightW) ((mapGet v s.ft.table).getD 0)) s)
  | .tbBuild => tbBuild params s
  | .pgGen => pgGen s
  | .pgInv => pgInv s
  | .pgRd v => .ok (pgRd v s)
  | .hcSer => hcSer params s
  | .hcDes d => hcDes params d s
  | .dcEbeg => .ok (dcEbeg s)
  | .dcEupd d => dcEupd params d s
  | .dcEend => dcEend params s
  | .dcDec d => dcDec params d s
  | .sysReset | .sysStat | .node | .leaf _ | .codeword _ _ | .ctrl _ | .container _ _ | .response _ _ _ | .ftCount _
  | .cxEncode _ | .cxDecode _ => .ok s

/-- Every command but the two system commands is its own part behind the shared checks (60_exceptions.md R288, R291). -/
theorem exec_command {i : Instr} (h : isCommand i = true) (h1 : i ≠ .sysReset) (h2 : i ≠ .sysStat) (s : State) :
    exec i s = .next (command (precondition s i) (ownPart s i) s) := by
  cases i <;> first | rfl | contradiction

/-! ### What a completed own part leaves alone, and what it answers -/

/-- Nothing but units and one more response: FLT and the interface stay. -/
structure Completed (s t : State) (r : Response) : Prop where
  resps : t.resps = s.resps ++ [r]
  flt : t.flt = s.flt
  cmdIn : t.cmdIn = s.cmdIn
  resetIn : t.resetIn = s.resetIn
  hostOut : t.hostOut = s.hostOut
  freeCtr : t.freeCtr = s.freeCtr

theorem withWriter_ok {s t : State} {o : Except Cause BW} (h : withWriter s o = .ok t) :
    ∃ w, o = .ok w ∧ t = answer 0 [] { s with bw := w } := by
  cases o with
  | error c => cases h
  | ok w => cases h; exact ⟨w, rfl, rfl⟩

theorem withWriter_error {s : State} {o : Except Cause BW} {c : Cause} (h : withWriter s o = .error c) :
    o = .error c := by
  cases o with
  | error c => cases h; rfl
  | ok w => cases h

theorem brRbits_ok {s t : State} {n : Nat} (h : brRbits n s = .ok t) :
    ∃ out r, s.br.readBits n = .ok (out, r) ∧ t = answer 0 out { s with br := r } := by
  unfold brRbits at h
  cases hr : s.br.readBits n with
  | error c => rw [hr] at h; cases h
  | ok o => obtain ⟨out, r⟩ := o; rw [hr] at h; cases h; exact ⟨out, r, rfl, rfl⟩

theorem ftUpd_ok {s t : State} {d : List Byte} (h : ftUpd params d s = .ok t) :
    ∃ table rest, feed (countSym params) (s.ft.inc ++ d).length (s.ft.inc ++ d) s.ft.table = .ok (table, rest) ∧
      t = answer (BitVec.ofNat 32 rest.length) [] { s with ft := { s.ft with table := table, inc := rest } } := by
  unfold ftUpd at h
  cases hf : feed (countSym params) (s.ft.inc ++ d).length (s.ft.inc ++ d) s.ft.table with
  | error c => rw [hf] at h; cases h
  | ok o => obtain ⟨table, rest⟩ := o; rw [hf] at h; cases h; exact ⟨table, rest, rfl, rfl⟩

theorem ftEnd_ok {s t : State} (h : ftEnd s = .ok t) :
    s.ft.inc = [] ∧ t = answer 0 [] { s with ft := { s.ft with done := true } } := by
  unfold ftEnd at h
  split at h
  · rename_i hi; cases h; exact ⟨hi, rfl⟩
  · cases h

theorem tbBuild_ok {s t : State} (h : tbBuild params s = .ok t) :
    ∃ b root q, buildTree params s.ft.table = .ok b ∧ b.mq = root :: q ∧
      t = answer (BitVec.ofNat 32 s.ft.table.length) []
        { s with
          tb := { tree := some root.node, treeV := true, mq := q, mqSeq := b.seq }
          pg := { s.pg with ptV := false, iptV := false } } := by
  unfold tbBuild at h
  split at h
  · cases h
  · cases hb : buildTree params s.ft.table with
    | error c => rw [hb] at h; cases h
    | ok b =>
      rw [hb] at h
      simp only at h
      cases hq : b.mq with
      | nil => rw [hq] at h; cases h
      | cons root q => rw [hq] at h; cases h; exact ⟨b, root, q, rfl, hq, rfl⟩

theorem pgGen_ok {s t : State} (h : pgGen s = .ok t) :
    ∃ n m, s.tb.tree = some n ∧ genTable n = .ok m ∧
      t = answer (BitVec.ofNat 32 m.length) [] { s with pg := { s.pg with pt := m, ptV := true, iptV := false } } := by
  unfold pgGen at h
  cases hn : s.tb.tree with
  | none => rw [hn] at h; cases h
  | some n =>
    rw [hn] at h
    simp only at h
    cases hm : genTable n with
    | error c => rw [hm] at h; cases h
    | ok m => rw [hm] at h; cases h; exact ⟨n, m, rfl, hm, rfl⟩

theorem pgInv_ok {s t : State} (h : pgInv s = .ok t) :
    ∃ inv, invertTable s.pg.pt [] = .ok inv ∧
      t = answer 0 [] { s with pg := { s.pg with ipt := inv, iptV := true } } := by
  unfold pgInv at h
  cases hi : invertTable s.pg.pt [] with
  | error c => rw [hi] at h; cases h
  | ok inv => rw [hi] at h; cases h; exact ⟨inv, rfl, rfl⟩

/-- The header's bits in a clear writer, flushed (44_tree_header.md R212 to R214). -/
theorem serialise_eq (n : Node) :
    (ser params n BW.clear).bind (BW.flush params) =
      (BW.clear.writeAll params (tokens n)).bind (BW.flush params) := by rw [ser_eq_writeAll]

theorem hcSer_ok {s t : State} (h : hcSer params s = .ok t) :
    ∃ n w, s.tb.tree = some n ∧ (BW.clear.writeAll params (tokens n)).bind (BW.flush params) = .ok w ∧
      t = answer (BitVec.ofNat 32 w.buf.length) w.buf { s with bw := w } := by
  unfold hcSer at h
  cases hn : s.tb.tree with
  | none => rw [hn] at h; cases h
  | some n =>
    rw [hn] at h
    simp only [serialise_eq] at h
    cases hw : (BW.clear.writeAll params (tokens n)).bind (BW.flush params) with
    | error c => rw [hw] at h; cases h
    | ok w => rw [hw] at h; cases h; exact ⟨n, w, rfl, hw, rfl⟩

theorem hcDes_ok {s t : State} {d : List Byte} (h : hcDes params d s = .ok t) :
    ∃ n r, desHeader params d = .ok (n, r) ∧
      t = answer 0 []
        { s with
          br := r
          tb := { s.tb with tree := some n, treeV := true }
          pg := { s.pg with ptV := false, iptV := false } } := by
  unfold hcDes at h
  cases hd : desHeader params d with
  | error c => rw [hd] at h; cases h
  | ok o => obtain ⟨n, r⟩ := o; rw [hd] at h; cases h; exact ⟨n, r, rfl, rfl⟩

theorem dcEupd_ok {s t : State} {d : List Byte} (h : dcEupd params d s = .ok t) :
    ∃ w rest, feed (encodeSym params s.pg.pt) (s.dc.inc ++ d).length (s.dc.inc ++ d) s.bw = .ok (w, rest) ∧
      t = answer (BitVec.ofNat 32 rest.length) [] { s with bw := w, dc := { s.dc with inc := rest } } := by
  unfold dcEupd at h
  cases hf : feed (encodeSym params s.pg.pt) (s.dc.inc ++ d).length (s.dc.inc ++ d) s.bw with
  | error c => rw [hf] at h; cases h
  | ok o => obtain ⟨w, rest⟩ := o; rw [hf] at h; cases h; exact ⟨w, rest, rfl, rfl⟩

theorem dcEend_ok {s t : State} (h : dcEend params s = .ok t) :
    ∃ w, s.dc.inc = [] ∧ closePayload params s.bw = .ok w ∧
      t = answer (BitVec.ofNat 32 w.buf.length) w.buf { s with bw := w, dc := { s.dc with encAct := false } } := by
  unfold dcEend at h
  split at h
  · rename_i hi
    cases hw : closePayload params s.bw with
    | error c => rw [hw] at h; cases h
    | ok w => rw [hw] at h; cases h; exact ⟨w, hi, rfl, rfl⟩
  · cases h

theorem dcDec_ok {s t : State} {d : List Byte} (h : dcDec params d s = .ok t) :
    ∃ out r, decodePayload params s.pg.ipt d = .ok (out, r) ∧
      t = answer 0 out { s with br := r, dc := { s.dc with daccCode := 0, daccLen := 0 } } := by
  unfold dcDec at h
  cases hd : decodePayload params s.pg.ipt d with
  | error c => rw [hd] at h; cases h
  | ok o => obtain ⟨out, r⟩ := o; rw [hd] at h; cases h; exact ⟨out, r, rfl, rfl⟩

/-- A completed command has answered once, OK but for the EOS of BR.NEXT and the ABSENT of PG.RD, and left FLT and the
interface alone (30_encoding.md R88, R89). -/
theorem ownPart_completed {s t : State} {i : Instr} (hi : isCommand i = true) (h1 : i ≠ .sysReset) (h2 : i ≠ .sysStat)
    (h : ownPart s i = .ok t) :
    ∃ r, Completed s t r ∧
      (r.status = 0x00#8 ∨ (r.status = 0x01#8 ∧ i = .brNext ∧ r.value = 0 ∧ r.data = []) ∨
        (r.status = 0x02#8 ∧ (∃ v, i = .pgRd v) ∧ r.value = 0 ∧ r.data = [])) := by
  have ok : ∀ (v : Word) (d : List Byte) (s' : State), s'.resps = s.resps → s'.flt = s.flt → s'.cmdIn = s.cmdIn →
      s'.resetIn = s.resetIn → s'.hostOut = s.hostOut → s'.freeCtr = s.freeCtr →
      ∃ r, Completed s (answer v d s') r ∧
        (r.status = 0x00#8 ∨ (r.status = 0x01#8 ∧ i = .brNext ∧ r.value = 0 ∧ r.data = []) ∨
          (r.status = 0x02#8 ∧ (∃ v, i = .pgRd v) ∧ r.value = 0 ∧ r.data = [])) :=
    fun v d s' e1 e2 e3 e4 e5 e6 =>
      ⟨⟨0x00#8, v, d⟩, ⟨by simp [e1], e2, e3, e4, e5, e6⟩, .inl rfl⟩
  cases i with
  | sysReset => exact absurd rfl h1
  | sysStat => exact absurd rfl h2
  | node | leaf | codeword | ctrl | container | response | ftCount | cxEncode | cxDecode => cases hi
  | bwClr => cases h; exact ok _ _ _ rfl rfl rfl rfl rfl rfl
  | bwWbit v => obtain ⟨w, _, rfl⟩ := withWriter_ok h; exact ok _ _ _ rfl rfl rfl rfl rfl rfl
  | bwWbits n v => obtain ⟨w, _, rfl⟩ := withWriter_ok h; exact ok _ _ _ rfl rfl rfl rfl rfl rfl
  | bwFlush => obtain ⟨w, _, rfl⟩ := withWriter_ok h; exact ok _ _ _ rfl rfl rfl rfl rfl rfl
  | bwPos => cases h; exact ok _ _ _ rfl rfl rfl rfl rfl rfl
  | bwRdbuf => cases h; exact ok _ _ _ rfl rfl rfl rfl rfl rfl
  | brLoad d => cases h; exact ok _ _ _ rfl rfl rfl rfl rfl rfl
  | brNext =>
    cases h
    unfold brNext
    cases s.br.nextBit with
    | none => exact ⟨⟨0x01#8, 0, []⟩, ⟨rfl, rfl, rfl, rfl, rfl, rfl⟩, .inr (.inl ⟨rfl, rfl, rfl, rfl⟩)⟩
    | some o => exact ok _ _ _ rfl rfl rfl rfl rfl rfl
  | brRbits n => obtain ⟨_, _, _, rfl⟩ := brRbits_ok h; exact ok _ _ _ rfl rfl rfl rfl rfl rfl
  | brPos => cases h; exact ok _ _ _ rfl rfl rfl rfl rfl rfl
  | ftClr => cases h; exact ok _ _ _ rfl rfl rfl rfl rfl rfl
  | ftUpd d => obtain ⟨_, _, _, rfl⟩ := ftUpd_ok h; exact ok _ _ _ rfl rfl rfl rfl rfl rfl
  | ftEnd => obtain ⟨_, rfl⟩ := ftEnd_ok h; exact ok _ _ _ rfl rfl rfl rfl rfl rfl
  | ftRd v => cases h; exact ok _ _ _ rfl rfl rfl rfl rfl rfl
  | tbBuild => obtain ⟨_, _, _, _, _, rfl⟩ := tbBuild_ok h; exact ok _ _ _ rfl rfl rfl rfl rfl rfl
  | pgGen => obtain ⟨_, _, _, _, rfl⟩ := pgGen_ok h; exact ok _ _ _ rfl rfl rfl rfl rfl rfl
  | pgInv => obtain ⟨_, _, rfl⟩ := pgInv_ok h; exact ok _ _ _ rfl rfl rfl rfl rfl rfl
  | pgRd v =>
    cases h
    unfold pgRd
    cases mapGet v s.pg.pt with
    | none => exact ⟨⟨0x02#8, 0, []⟩, ⟨rfl, rfl, rfl, rfl, rfl, rfl⟩, .inr (.inr ⟨rfl, ⟨v, rfl⟩, rfl, rfl⟩)⟩
    | some c => exact ok _ _ _ rfl rfl rfl rfl rfl rfl
  | hcSer => obtain ⟨_, _, _, _, rfl⟩ := hcSer_ok h; exact ok _ _ _ rfl rfl rfl rfl rfl rfl
  | hcDes d => obtain ⟨_, _, _, rfl⟩ := hcDes_ok h; exact ok _ _ _ rfl rfl rfl rfl rfl rfl
  | dcEbeg => cases h; exact ok _ _ _ rfl rfl rfl rfl rfl rfl
  | dcEupd d => obtain ⟨_, _, _, rfl⟩ := dcEupd_ok h; exact ok _ _ _ rfl rfl rfl rfl rfl rfl
  | dcEend => obtain ⟨_, _, _, rfl⟩ := dcEend_ok h; exact ok _ _ _ rfl rfl rfl rfl rfl rfl
  | dcDec d => obtain ⟨_, _, _, rfl⟩ := dcDec_ok h; exact ok _ _ _ rfl rfl rfl rfl rfl rfl

/-! ### Which faults an own part raises -/

theorem append_error {p : Params} {w : BW} {b : Byte} {c : Cause} (h : w.append p b = .error c) :
    c = .sizeOverflow := by
  rcases append_eq p w b with ⟨_, e⟩ | ⟨_, e⟩ <;> rw [e] at h <;> cases h
  rfl

theorem flush_error {p : Params} {w : BW} {c : Cause} (h : w.flush p = .error c) : c = .sizeOverflow := by
  rcases flush_cases p w with ⟨_, e⟩ | ⟨_, _, e⟩ | ⟨_, _, e⟩ <;> rw [e] at h <;> cases h
  rfl

theorem writeBit_error {p : Params} {w : BW} {b : Bool} {c : Cause} (h : w.writeBit p b = .error c) :
    c = .sizeOverflow := by
  rcases writeBit_cases p w b with ⟨_, e⟩ | ⟨_, _, e⟩ | ⟨_, _, e⟩ <;> rw [e] at h <;> cases h
  rfl

theorem bind_error {α β : Type} {o : Except Cause α} {f : α → Except Cause β} {c : Cause}
    (h : o.bind f = .error c) : o = .error c ∨ ∃ a, o = .ok a ∧ f a = .error c := by
  cases o with
  | error x => cases h; exact .inl rfl
  | ok a => exact .inr ⟨a, rfl, h⟩

theorem bind_ok {α β : Type} {o : Except Cause α} {f : α → Except Cause β} {b : β} (h : o.bind f = .ok b) :
    ∃ a, o = .ok a ∧ f a = .ok b := by
  cases o with
  | error x => cases h
  | ok a => exact ⟨a, rfl, h⟩

theorem readBits_error {r : BR} {n : Nat} {c : Cause} (h : r.readBits n = .error c) : c = .readPastEnd := by
  unfold BR.readBits at h
  split at h
  · cases h; rfl
  · cases hb : BR.nextBits n r with
    | none => rw [hb] at h; cases h; rfl
    | some o => rw [hb] at h; cases h

theorem feed_error {σ : Type} {f : σ → Sym → Except Cause σ} {n : Nat} {bs : List Byte} {st : σ} {c : Cause}
    (h : feed f n bs st = .error c) : c = .invalidUtf8 ∨ ∃ st x, f st x = .error c := by
  induction n generalizing bs st with
  | zero => cases h
  | succ n ih =>
    cases bs with
    | nil => cases h
    | cons b bs =>
      unfold feed at h
      cases hh : head (b :: bs) with
      | incomplete => rw [hh] at h; cases h
      | invalid => rw [hh] at h; cases h; exact .inl rfl
      | complete x k =>
        rw [hh] at h
        simp only at h
        cases hf : f st x with
        | error e => rw [hf] at h; cases h; exact .inr ⟨st, x, hf⟩
        | ok st' => rw [hf] at h; exact ih h

theorem countSym_error {t : List (Sym × Nat)} {s : Sym} {c : Cause} (h : countSym params t s = .error c) :
    c = .capacityExceeded ∨ c = .weightOverflow := by
  unfold countSym at h
  cases hg : mapGet s t with
  | none => rw [hg] at h; simp only at h; split at h <;> cases h; exact .inl rfl
  | some v => rw [hg] at h; simp only at h; split at h <;> cases h; exact .inr rfl

theorem encodeSym_error {pt : List (Sym × Code)} {w : BW} {s : Sym} {c : Cause}
    (h : encodeSym params pt w s = .error c) : c = .symbolNotInTable ∨ c = .sizeOverflow := by
  unfold encodeSym at h
  cases hg : mapGet s pt with
  | none => rw [hg] at h; cases h; exact .inl rfl
  | some v => rw [hg] at h; exact .inr (writeAll_error h)

theorem loadLeaves_error {t : List (Sym × Nat)} {b : Build} {c : Cause} (h : loadLeaves params t b = .error c) :
    False := by
  induction t generalizing b with
  | nil => cases h
  | cons e t ih =>
    obtain ⟨s, w⟩ := e
    simp only [loadLeaves, roomForNode_params, if_true] at h
    exact ih h

theorem mergeStep_error {b : Build} {c : Cause} (h : mergeStep params b = .error c) : c = .weightOverflow := by
  unfold mergeStep at h
  cases h1 : mqExtract b.mq with
  | none => rw [h1] at h; cases h
  | some o =>
    obtain ⟨x, q⟩ := o
    rw [h1] at h
    simp only at h
    cases h2 : mqExtract q with
    | none => rw [h2] at h; cases h
    | some o =>
      obtain ⟨y, q'⟩ := o
      rw [h2] at h
      simp only [roomForNode_params, if_true] at h
      split at h <;> cases h
      rfl

theorem mergeAll_error {n : Nat} {b : Build} {c : Cause} (h : mergeAll params n b = .error c) :
    c = .weightOverflow := by
  induction n generalizing b with
  | zero => cases h
  | succ n ih =>
    unfold mergeAll at h
    split at h
    · cases h
    · cases hm : mergeStep params b with
      | error e => rw [hm] at h; cases h; exact mergeStep_error hm
      | ok b' => rw [hm] at h; exact ih h

theorem buildTree_error {t : List (Sym × Nat)} {c : Cause} (h : buildTree params t = .error c) :
    c = .weightOverflow := by
  unfold buildTree at h
  cases hl : loadLeaves params t ⟨[], 0, 0⟩ with
  | error e => exact (loadLeaves_error hl).elim
  | ok b => rw [hl] at h; exact mergeAll_error h

theorem genTable_error {n : Node} {c : Cause} (h : genTable n = .error c) : c = .codeTooLong ∨ c = .duplicateSymbol := by
  cases n with
  | leaf s w => cases h
  | internal w l r => exact walk_error h

theorem desLeaf_error {r : BR} {c : Cause} (h : desLeaf r = .error c) :
    c = .headerTruncated ∨ c = .readPastEnd ∨ c = .invalidScalar := by
  unfold desLeaf at h
  split at h
  · cases h; exact .inl rfl
  · cases hr : r.readBits 32 with
    | error e => rw [hr] at h; cases h; exact .inr (.inl (readBits_error hr))
    | ok o =>
      obtain ⟨out, r'⟩ := o
      rw [hr] at h
      simp only [scalarOperand] at h
      split at h
      · rename_i e; split at e <;> cases e; cases h; exact .inr (.inr rfl)
      · cases h

theorem des_error_any {fuel used : Nat} {r : BR} {c : Cause} (h : des params fuel used r = .error c) :
    c = .headerTruncated ∨ c = .readPastEnd ∨ c = .invalidScalar := by
  induction fuel generalizing used r with
  | zero => cases h; exact .inl rfl
  | succ fuel ih =>
    unfold des at h
    cases hn : r.nextBit with
    | none => rw [hn] at h; cases h; exact .inl rfl
    | some o =>
      obtain ⟨b, r1⟩ := o
      rw [hn] at h
      cases b with
      | true =>
        simp only [roomForNode_params, if_true] at h
        cases hl : desLeaf r1 with
        | error e => rw [hl] at h; cases h; exact desLeaf_error hl
        | ok o => rw [hl] at h; cases h
      | false =>
        simp only [roomForNode_params, if_true] at h
        cases h2 : des params fuel (used + 1) r1 with
        | error x => rw [h2] at h; cases h; exact ih h2
        | ok o2 =>
          obtain ⟨l, used2, r2⟩ := o2
          rw [h2] at h
          simp only at h
          cases h3 : des params fuel used2 r2 with
          | error x => rw [h3] at h; cases h; exact ih h3
          | ok o3 => rw [h3] at h; cases h

theorem decodeBits_error {ipt : List (Code × Sym)} {n : Nat} {r : BR} {acc : Code} {out : List Byte} {c : Cause}
    (h : decodeBits params ipt n r acc out = .error c) :
    c = .exhaustedMidSymbol ∨ c = .sizeOverflow ∨ c = .noMatch := by
  induction n generalizing r acc out with
  | zero => cases h
  | succ n ih =>
    unfold decodeBits at h
    cases hn : r.nextBit with
    | none => rw [hn] at h; cases h; exact .inl rfl
    | some o =>
      obtain ⟨b, r'⟩ := o
      rw [hn] at h
      simp only at h
      split at h
      · split at h
        · cases h; exact .inr (.inl rfl)
        · exact ih h
      · split at h
        · cases h; exact .inr (.inr rfl)
        · exact ih h

/-- A command's own part raises a cause the block knows, and SequenceError only when `TREE_V` lies
(60_exceptions.md R287). -/
theorem ownPart_error {s : State} {i : Instr} {c : Cause} (h : ownPart s i = .error c) :
    c ∈ blockCauses ∧ (c = .sequenceError → s.tb.tree = none ∧ (i = .pgGen ∨ i = .hcSer)) := by
  have ok : ∀ c : Cause, c ∈ blockCauses → c ≠ .sequenceError →
      c ∈ blockCauses ∧ (c = .sequenceError → s.tb.tree = none ∧ (i = .pgGen ∨ i = .hcSer)) :=
    fun c h1 h2 => ⟨h1, fun e => absurd e h2⟩
  cases i with
  | sysReset | sysStat | node | leaf | codeword | ctrl | container | response | ftCount | cxEncode | cxDecode
  | bwPos | bwRdbuf | brLoad | brNext | brPos | ftClr | ftRd | pgRd | dcEbeg | bwClr => cases h
  | bwWbit v =>
    rcases bind_error (withWriter_error h) with h | ⟨_, _, h⟩
    · unfold bitOperand at h; split at h <;> cases h; exact ok _ (by decide) (by decide)
    · rw [writeBit_error h]; exact ok _ (by decide) (by decide)
  | bwWbits n v =>
    rcases bind_error (withWriter_error h) with h | ⟨_, _, h⟩
    · unfold countOperand at h; split at h <;> cases h; exact ok _ (by decide) (by decide)
    · rw [writeAll_error h]; exact ok _ (by decide) (by decide)
  | bwFlush => rw [flush_error (withWriter_error h)]; exact ok _ (by decide) (by decide)
  | brRbits n =>
    simp only [ownPart, brRbits] at h
    split at h
    · cases h
    · rename_i e; cases h; rw [readBits_error e]; exact ok _ (by decide) (by decide)
  | ftUpd d =>
    simp only [ownPart, ftUpd] at h
    split at h
    · cases h
    · rename_i e
      cases h
      rcases feed_error e with rfl | ⟨_, _, e⟩
      · exact ok _ (by decide) (by decide)
      · rcases countSym_error e with rfl | rfl <;> exact ok _ (by decide) (by decide)
  | ftEnd =>
    simp only [ownPart, ftEnd] at h
    split at h <;> cases h
    exact ok _ (by decide) (by decide)
  | tbBuild =>
    simp only [ownPart, tbBuild] at h
    split at h
    · cases h; exact ok _ (by decide) (by decide)
    · split at h
      · rename_i e; cases h; rw [buildTree_error e]; exact ok _ (by decide) (by decide)
      · split at h <;> cases h
        exact ok _ (by decide) (by decide)
  | pgGen =>
    simp only [ownPart, pgGen] at h
    split at h
    · rename_i e; cases h; exact ⟨by decide, fun _ => ⟨e, .inl rfl⟩⟩
    · split at h
      · cases h
      · rename_i e; cases h
        rcases genTable_error e with rfl | rfl <;> exact ok _ (by decide) (by decide)
  | pgInv =>
    simp only [ownPart, pgInv] at h
    split at h
    · cases h
    · rename_i e; cases h; rw [invertTable_error e]; exact ok _ (by decide) (by decide)
  | hcSer =>
    simp only [ownPart, hcSer] at h
    split at h
    · rename_i e; cases h; exact ⟨by decide, fun _ => ⟨e, .inr rfl⟩⟩
    · split at h
      · cases h
      · rename_i e
        cases h
        rw [serialise_eq] at e
        rcases bind_error e with e | ⟨_, _, e⟩
        · rw [writeAll_error e]; exact ok _ (by decide) (by decide)
        · rw [flush_error e]; exact ok _ (by decide) (by decide)
  | hcDes d =>
    simp only [ownPart, hcDes, desHeader] at h
    split at h
    · cases h
    · rename_i e
      cases h
      split at e
      · cases e
      · rename_i e'
        cases e
        rcases des_error_any e' with rfl | rfl | rfl <;> exact ok _ (by decide) (by decide)
  | dcEupd d =>
    simp only [ownPart, dcEupd] at h
    split at h
    · cases h
    · rename_i e
      cases h
      rcases feed_error e with rfl | ⟨_, _, e⟩
      · exact ok _ (by decide) (by decide)
      · rcases encodeSym_error e with rfl | rfl <;> exact ok _ (by decide) (by decide)
  | dcEend =>
    simp only [ownPart, dcEend] at h
    split at h
    · split at h
      · cases h
      · rename_i e
        cases h
        rcases bind_error e with e | ⟨_, _, e⟩
        · rw [flush_error e]; exact ok _ (by decide) (by decide)
        · rw [append_error e]; exact ok _ (by decide) (by decide)
    · cases h; exact ok _ (by decide) (by decide)
  | dcDec d =>
    simp only [ownPart, dcDec] at h
    split at h
    · cases h
    · rename_i e
      cases h
      unfold decodePayload at e
      split at e
      · cases e; exact ok _ (by decide) (by decide)
      · unfold ctrlOperand at e
        split at e
        · rename_i e'
          split at e' <;> first | cases e' | skip
          split at e' <;> cases e'
          cases e
          exact ok _ (by decide) (by decide)
        · split at e
          · rename_i e'
            cases e
            rcases decodeBits_error e' with rfl | rfl | rfl <;> exact ok _ (by decide) (by decide)
          · split at e <;> cases e
            exact ok _ (by decide) (by decide)

/-! ### From exec to the own part and back -/

/-- A command that completes was in sequence, and its next state is its own part's. -/
theorem exec_completed {i : Instr} {s t : State} (hi : isCommand i = true) (h1 : i ≠ .sysReset) (h2 : i ≠ .sysStat)
    (he : exec i s = .next t) (ht : t.faulted = false) :
    s.faulted = false ∧ precondition s i = true ∧ ownPart s i = .ok t := by
  rw [exec_command hi h1 h2] at he
  cases he
  exact command_completed ht

theorem exec_of_ok {i : Instr} {s t : State} (hi : isCommand i = true) (h1 : i ≠ .sysReset) (h2 : i ≠ .sysStat)
    (hf : s.faulted = false) (hp : precondition s i = true) (ho : ownPart s i = .ok t) : exec i s = .next t := by
  rw [exec_command hi h1 h2, command_of_ok hf hp ho]

theorem exec_of_error {i : Instr} {s : State} {c : Cause} (hi : isCommand i = true) (h1 : i ≠ .sysReset)
    (h2 : i ≠ .sysStat) (hf : s.faulted = false) (hp : precondition s i = true) (ho : ownPart s i = .error c) :
    exec i s = .next (raise c s) := by
  rw [exec_command hi h1 h2, command_of_error hf hp ho]

/-- A command answers a next state and leaves the command stream, the reset input and the host's record alone. -/
theorem exec_interface {i : Instr} (hi : isCommand i = true) (s : State) :
    ∃ t, exec i s = .next t ∧ t.cmdIn = s.cmdIn ∧ t.resetIn = s.resetIn ∧ t.hostOut = s.hostOut := by
  by_cases h1 : i = .sysReset
  · subst h1; exact ⟨_, rfl, rfl, rfl, rfl⟩
  by_cases h2 : i = .sysStat
  · subst h2; exact ⟨_, rfl, rfl, rfl, rfl⟩
  refine ⟨_, exec_command hi h1 h2 s, ?_⟩
  rcases command_cases (precondition s i) (ownPart s i) s with ⟨_, e⟩ | ⟨_, _, e⟩ | ⟨c, _, _, _, e⟩ | ⟨t, _, _, ho, e⟩ <;>
    rw [e]
  · exact ⟨rfl, rfl, rfl⟩
  · exact ⟨rfl, rfl, rfl⟩
  · exact ⟨rfl, rfl, rfl⟩
  · obtain ⟨r, hr, _⟩ := ownPart_completed hi h1 h2 ho
    exact ⟨hr.cmdIn, hr.resetIn, hr.hostOut⟩

end Sys2Proof.Machine
end

