-- ==== Sys2Proof/Laws/Invariant.lean ====
section
/-! SUPPORT. The units' invariants as plain propositions, and STATUS as a number. -/

namespace Sys2Proof.Machine

open Sys2Proof Sys2Proof.Config Sys2Proof.Safety

theorem bwOk_iff (w : BW) : bwOk w = true ↔ w.acc.toNat < 2 ^ w.cnt.val ∧ w.buf.length ≤ params.maxBuf := by
  simp [bwOk]

theorem ftOk_iff (f : FT) :
    ftOk f = true ↔ tableOk f.table = true ∧ head f.inc = .incomplete ∧ (f.done = true → f.inc = []) := by
  simp only [ftOk, incOk, Bool.and_eq_true, Bool.or_eq_true, Bool.not_eq_true', decide_eq_true_eq, and_assoc]
  cases f.done <;> simp

theorem tbOk_iff (t : TB) :
    tbOk t = true ↔ t.treeV = t.tree.isSome ∧ t.mq = [] ∧ ∀ n, t.tree = some n → scalarLeaves n = true := by
  simp only [tbOk, Bool.and_eq_true, decide_eq_true_eq, and_assoc, Option.all_eq_true]

theorem dcOk_iff (g : PG) (d : DC) :
    dcOk g d = true ↔
      head d.inc = .incomplete ∧ (d.encAct = true → g.ptV = true) ∧ (d.encAct = false → d.inc = []) ∧
        d.daccCode = 0 ∧ d.daccLen = 0 := by
  simp only [dcOk, incOk, Bool.and_eq_true, Bool.or_eq_true, Bool.not_eq_true', decide_eq_true_eq, and_assoc]
  cases d.encAct <;> simp

@[simp] theorem atReset_resetBlock (s : State) : atReset (resetBlock s) := by
  simp [atReset, State.reset, statusWord, State.faulted]

@[simp] theorem atReset_hardReset (s : State) : atReset (hardReset s) := atReset_resetBlock s

/-- STATUS as a number, one summand a field (10_state.md R26). -/
theorem statusWord_toNat (s : State) :
    (statusWord s).toNat =
      s.flt.kind.toNat * 65536 + s.flt.cause.toNat * 256 + s.faulted.toNat * 32 + s.dc.encAct.toNat * 16 +
        s.pg.iptV.toNat * 8 + s.pg.ptV.toNat * 4 + s.tb.treeV.toNat * 2 + s.ft.done.toNat := by
  unfold statusWord
  simp only [toNat_append', BitVec.toNat_ofBool]
  simp
  omega

end Sys2Proof.Machine
end

