-- ==== Sys2Proof/Laws/Macros.lean ====
section
/-! SUPPORT. Sequences of commands, as the macros and the encode pass run them. -/

namespace Sys2Proof.Machine

open Sys2Proof Sys2Proof.Config Sys2Proof.Safety

@[simp] theorem lastResponse_answer (v : Word) (d : List Byte) (s : State) :
    lastResponse (answer v d s) = ⟨0x00#8, v, d⟩ := by simp [lastResponse]

theorem faulted_of_flt {t : State} {c : Cause} (h : t.flt = c.flt) : t.faulted = true := by
  simp only [State.faulted, h, decide_eq_true_eq]
  exact kind_ne_zero c

/-- A command that faults ends the sequence (46_system_and_macros.md R265). -/
theorem runCommands_fault {f : State → Result} {fs : List (State → Result)} {s t : State} (h : f s = .next t)
    (ht : t.faulted = true) : runCommands (f :: fs) s = .next t := by
  simp [runCommands, h, ht]

/-- A command that completes hands its state to the rest. -/
theorem runCommands_next {f : State → Result} {fs : List (State → Result)} {s t : State} (h : f s = .next t)
    (ht : t.faulted = false) : runCommands (f :: fs) s = runCommands fs t := by
  simp [runCommands, h, ht]

theorem runCommands_append {a b : List (State → Result)} {s t : State} (h : runCommands a s = .next t)
    (ht : t.faulted = false) : runCommands (a ++ b) s = runCommands b t := by
  induction a generalizing s with
  | nil => cases h; rfl
  | cons f a ih =>
    simp only [List.cons_append, runCommands] at h ⊢
    cases hf : f s with
    | next u =>
      rw [hf] at h
      simp only at h ⊢
      split at h
      · cases h; rw [ht] at *; contradiction
      · rename_i hu; rw [if_neg hu]; exact ih h
    | fault r => rw [hf] at h; cases h
    | refused r => rw [hf] at h; cases h

theorem runCommands_append_fault {a b : List (State → Result)} {s t : State} (h : runCommands a s = .next t)
    (ht : t.faulted = true) (ha : a ≠ []) : runCommands (a ++ b) s = .next t := by
  induction a generalizing s with
  | nil => exact absurd rfl ha
  | cons f a ih =>
    simp only [List.cons_append, runCommands] at h ⊢
    cases hf : f s with
    | next u =>
      rw [hf] at h
      simp only at h ⊢
      split at h
      · rename_i hu; rw [if_pos hu]; exact h
      · rename_i hu; rw [if_neg hu]
        cases a with
        | nil => cases h; rw [ht] at hu; contradiction
        | cons g a => exact ih h (by simp)
    | fault r => rw [hf] at h; cases h
    | refused r => rw [hf] at h; cases h

/-- A sequence of commands always answers a next state, and the interface is as it was. -/
theorem runCommands_total {cs : List Instr} (hc : ∀ i ∈ cs, isCommand i = true) (s : State) :
    ∃ t, runCommands (cs.map exec) s = .next t ∧ t.resetIn = s.resetIn ∧ t.hostOut = s.hostOut := by
  induction cs generalizing s with
  | nil => exact ⟨s, rfl, rfl, rfl⟩
  | cons i cs ih =>
    obtain ⟨u, hu, _, h2, h3⟩ := exec_interface (hc i (by simp)) s
    cases hf : u.faulted with
    | true => exact ⟨u, runCommands_fault hu hf, h2, h3⟩
    | false =>
      obtain ⟨t, ht, k2, k3⟩ := ih (fun j hj => hc j (by simp [hj])) u
      exact ⟨t, (runCommands_next hu hf).trans ht, k2.trans h2, k3.trans h3⟩

/-- Commands that run without a FAULT hand their last state on. -/
theorem runCommands_of_runsTo {before : List Instr} {s mid : State} (h : runsTo before s mid)
    (after : List Instr) : runCommands ((before ++ after).map exec) s = runCommands (after.map exec) mid := by
  induction before generalizing s with
  | nil => cases h; rfl
  | cons i before ih =>
    obtain ⟨u, hu, hf, hr⟩ := h
    exact (runCommands_next hu hf).trans (ih hr)

/-- The first command to answer FAULT ends the sequence (46_system_and_macros.md R265). -/
theorem runCommands_stops {before after : List Instr} {i : Instr} {s mid v : State} (h : runsTo before s mid)
    (he : exec i mid = .next v) (hf : v.faulted = true) :
    runCommands ((before ++ i :: after).map exec) s = .next v :=
  (runCommands_of_runsTo h _).trans (runCommands_fault he hf)

/-- Running commands leaves the host's record alone. -/
theorem runsTo_hostOut {cs : List Instr} (hc : ∀ i ∈ cs, isCommand i = true) {s t : State} (h : runsTo cs s t) :
    t.hostOut = s.hostOut := by
  induction cs generalizing s with
  | nil => cases h; rfl
  | cons i cs ih =>
    obtain ⟨u, hu, _, hr⟩ := h
    obtain ⟨u', hu', _, _, h3⟩ := exec_interface (hc i (by simp)) s
    rw [hu] at hu'
    cases hu'
    exact (ih (fun j hj => hc j (by simp [hj])) hr).trans h3

/-- The macros' command lists are their expansions (46_system_and_macros.md R265, R266). -/
theorem countCommands_eq (d : List Byte) : countCommands params d = (countExpansion d).map exec := by
  simp only [countCommands, countExpansion, passChunks, List.map_cons, List.map_append, List.map_map]
  rfl

theorem encodeCommands_eq (d : List Byte) :
    headerCommands params d ++ payloadCommands params d = (encodeExpansion d).map exec := by
  simp only [headerCommands, payloadCommands, countCommands_eq, encodeExpansion, passChunks, List.map_cons,
    List.map_append, List.map_map]
  rfl

/-- Cutting into chunks loses nothing. -/
theorem chunksOf_flatten {n : Nat} (hn : 0 < n) {fuel : Nat} {t : List Byte} (h : t.length ≤ fuel) :
    (chunksOf n fuel t).flatten = t := by
  induction fuel generalizing t with
  | zero => simp at h; simp [chunksOf, h]
  | succ fuel ih =>
    cases t with
    | nil => rfl
    | cons b t =>
      simp only [chunksOf, List.flatten_cons]
      rw [ih (by simp at h ⊢; omega), List.take_append_drop]


/-- Everything the chunks of a counting pass and its end can do: the same as the whole bytes at once. -/
theorem countChunks_spec (chunks : List (List Byte)) (s : State) (hf : s.faulted = false) (hd : s.ft.done = false)
    (hi : head s.ft.inc = .incomplete) :
    ∃ t, runCommands (chunks.map execFtUpd ++ [execFtEnd]) s = .next t ∧
      match feed (countSym params) (s.ft.inc ++ chunks.flatten).length (s.ft.inc ++ chunks.flatten) s.ft.table with
      | .error c => t.flt = c.flt
      | .ok (table, rest) =>
        if rest = [] then t = { s with ft := ⟨table, [], true⟩, resps := t.resps }
        else t.flt = Cause.incompleteTail.flt := by
  induction chunks generalizing s with
  | nil =>
    simp only [List.flatten_nil, List.append_nil, feed_incomplete _ _ hi]
    by_cases h : s.ft.inc = []
    · have := exec_of_ok (i := .ftEnd) rfl (by simp) (by simp) hf (by simp [precondition, hd])
        (t := answer 0 [] { s with ft := { s.ft with done := true } }) (by simp [ownPart, ftEnd, h])
      refine ⟨_, (runCommands_next (f := execFtEnd) this hf).trans rfl, ?_⟩
      simp only [h, if_true]; rfl
    · have := exec_of_error (i := .ftEnd) rfl (by simp) (by simp) hf (by simp [precondition, hd])
        (c := .incompleteTail) (by simp [ownPart, ftEnd, h])
      refine ⟨_, runCommands_fault (f := execFtEnd) this (raise_faulted _ _), ?_⟩
      simp [h]
  | cons d chunks ih =>
    simp only [List.flatten_cons, ← List.append_assoc]
    rw [feed_append]
    cases h : feed (countSym params) (s.ft.inc ++ d).length (s.ft.inc ++ d) s.ft.table with
    | error c =>
      have := exec_of_error (i := .ftUpd d) rfl (by simp) (by simp) hf (by simp [precondition, hd]) (c := c)
          (by simp only [ownPart, ftUpd, h])
      exact ⟨_, runCommands_fault (f := execFtUpd d) this (raise_faulted _ _), rfl⟩
    | ok o =>
      obtain ⟨table, rest⟩ := o
      have := exec_of_ok (i := .ftUpd d) rfl (by simp) (by simp) hf (by simp [precondition, hd]) (t := answer
          (BitVec.ofNat 32 rest.length) [] { s with ft := { s.ft with table := table, inc := rest } })
              (by simp only [ownPart, ftUpd, h])
      obtain ⟨_, _, _, hr, _⟩ := feed_ok _ h
      obtain ⟨t, ht, hm⟩ := ih _ (show (answer
          (BitVec.ofNat 32 rest.length) [] { s with ft := { s.ft with table := table, inc := rest } }).faulted = false from hf) hd hr
      refine ⟨t, (runCommands_next (f := execFtUpd d) this hf).trans ht, hm⟩

/-- Everything the chunks of an encode pass and its end can do. -/
theorem encodeChunks_spec (chunks : List (List Byte)) (s : State) (hf : s.faulted = false)
    (hd : s.dc.encAct = true) (hi : head s.dc.inc = .incomplete) :
    ∃ t, runCommands (chunks.map execDcEupd ++ [execDcEend]) s = .next t ∧
      match feed (encodeSym params s.pg.pt) (s.dc.inc ++ chunks.flatten).length
          (s.dc.inc ++ chunks.flatten) s.bw with
      | .error c => t.flt = c.flt
      | .ok (w, rest) =>
        if rest = [] then
          match closePayload params w with
          | .error c => t.flt = c.flt
          | .ok w' =>
            lastResponse t = ⟨0x00#8, BitVec.ofNat 32 w'.buf.length, w'.buf⟩ ∧
              t = { s with bw := w', dc := { s.dc with inc := [], encAct := false }, resps := t.resps }
        else t.flt = Cause.incompleteTail.flt := by
  induction chunks generalizing s with
  | nil =>
    simp only [List.flatten_nil, List.append_nil, feed_incomplete _ _ hi]
    by_cases h : s.dc.inc = []
    · cases hc : closePayload params s.bw with
      | ok w =>
        have := exec_of_ok (i := .dcEend) rfl (by simp) (by simp) hf (by simp [precondition, hd]) (t := answer
            (BitVec.ofNat 32 w.buf.length) w.buf { s with bw := w, dc := { s.dc with encAct := false } })
                (by simp [ownPart, dcEend, h, hc])
        refine ⟨_, (runCommands_next (f := execDcEend) this hf).trans rfl, ?_⟩
        simp only [h, if_true]
        exact ⟨lastResponse_answer _ _ _, rfl⟩
      | error c =>
        have := exec_of_error (i := .dcEend) rfl (by simp) (by simp) hf (by simp [precondition, hd]) (c := c)
            (by simp [ownPart, dcEend, h, hc])
        refine ⟨_, runCommands_fault (f := execDcEend) this (raise_faulted _ _), ?_⟩
        simp only [h, if_true]; rfl
    · have := exec_of_error (i := .dcEend) rfl (by simp) (by simp) hf (by simp [precondition, hd])
        (c := .incompleteTail) (by simp [ownPart, dcEend, h])
      refine ⟨_, runCommands_fault (f := execDcEend) this (raise_faulted _ _), ?_⟩
      simp [h]
  | cons d chunks ih =>
    simp only [List.flatten_cons, ← List.append_assoc]
    rw [feed_append]
    cases h : feed (encodeSym params s.pg.pt) (s.dc.inc ++ d).length (s.dc.inc ++ d) s.bw with
    | error c =>
      have := exec_of_error (i := .dcEupd d) rfl (by simp) (by simp) hf (by simp [precondition, hd]) (c := c)
          (by simp only [ownPart, dcEupd, h])
      exact ⟨_, runCommands_fault (f := execDcEupd d) this (raise_faulted _ _), rfl⟩
    | ok o =>
      obtain ⟨w, rest⟩ := o
      have := exec_of_ok (i := .dcEupd d) rfl (by simp) (by simp) hf (by simp [precondition, hd]) (t := answer
          (BitVec.ofNat 32 rest.length) [] { s with bw := w, dc := { s.dc with inc := rest } })
              (by simp only [ownPart, dcEupd, h])
      obtain ⟨_, _, _, hr, _⟩ := feed_ok _ h
      obtain ⟨t, ht, hm⟩ := ih _ (show (answer
          (BitVec.ofNat 32 rest.length) [] { s with bw := w, dc := { s.dc with inc := rest } }).faulted = false from hf) hd hr
      refine ⟨t, (runCommands_next (f := execDcEupd d) this hf).trans ht, hm⟩

/-- A tree of a text: what was counted, and what was built of it. -/
theorem textTree_eq_some {t : List Sym} {n : Node} (h : textTree t = some n) :
    ∃ table b e q, t.foldlM (countSym params) [] = .ok table ∧ buildTree params table = .ok b ∧ b.mq = e :: q ∧
      e.node = n := by
  unfold textTree at h
  cases h1 : t.foldlM (countSym params) [] with
  | error c => rw [h1] at h; cases h
  | ok table =>
    rw [h1] at h
    simp only at h
    cases h2 : buildTree params table with
    | error c => rw [h2] at h; cases h
    | ok b =>
      rw [h2] at h
      simp only at h
      cases h3 : b.mq with
      | nil => rw [h3] at h; cases h
      | cons e q => rw [h3] at h; cases h; exact ⟨table, b, e, q, rfl, h2, h3, rfl⟩

end Sys2Proof.Machine
end

