-- ==== Sys2Proof/Laws/Memory.lean ====
section
/-! SUPPORT. Every command keeps the canonical form of the buffers and tables (Memory.wf). -/

namespace Sys2Proof.Machine

open Sys2Proof Sys2Proof.Config Sys2Proof.Safety

theorem wf_iff (s : State) :
    Memory.wf s = true ↔
      s.bw.buf.length ≤ params.maxBuf ∧ s.br.buf.length ≤ params.maxBuf ∧ s.br.len.toNat = s.br.buf.length ∧
        mapSorted symRank s.ft.table = true ∧ mapSorted symRank s.pg.pt = true ∧
        mapSorted codeRank s.pg.ipt = true := by
  simp [Memory.wf, and_assoc]

/-- Reset memory has the form. -/
theorem wf_reset : Memory.wf State.reset = true := by decide

/-- The form is about the writer, the reader, the frequency table and the prefix tables only. -/
theorem wf_congr {s t : State} (h1 : t.bw.buf = s.bw.buf) (h2 : t.br = s.br) (h3 : t.ft.table = s.ft.table)
    (h4 : t.pg.pt = s.pg.pt) (h5 : t.pg.ipt = s.pg.ipt) : Memory.wf t = Memory.wf s := by
  simp [Memory.wf, h1, h2, h3, h4, h5]

@[simp] theorem wf_respond (st : Byte) (v : Word) (d : List Byte) (s : State) :
    Memory.wf (respond st v d s) = Memory.wf s := rfl

@[simp] theorem wf_answer (v : Word) (d : List Byte) (s : State) : Memory.wf (answer v d s) = Memory.wf s := rfl

@[simp] theorem wf_refuse (s : State) : Memory.wf (refuse s) = Memory.wf s := rfl

@[simp] theorem wf_report (r : HostResult) (s : State) : Memory.wf (report r s) = Memory.wf s := rfl

@[simp] theorem wf_resetBlock (s : State) : Memory.wf (resetBlock s) = true := wf_reset

@[simp] theorem wf_hardReset (s : State) : Memory.wf (hardReset s) = true := wf_reset

/-- A new writer within MAX_BUF. -/
theorem wf_writer {s : State} {w : BW} (h : Memory.wf s = true) (hw : w.buf.length ≤ params.maxBuf) :
    Memory.wf { s with bw := w } = true := by
  rw [wf_iff] at h ⊢
  exact ⟨hw, h.2⟩

/-- A reader whose length register is its buffer's length, within MAX_BUF. -/
theorem wf_reader {s : State} {r : BR} (h : Memory.wf s = true) (hl : r.buf.length ≤ params.maxBuf)
    (hr : r.len.toNat = r.buf.length) : Memory.wf { s with br := r } = true := by
  rw [wf_iff] at h ⊢
  exact ⟨h.1, hl, hr, h.2.2.2⟩

/-- A new frequency table in rising order. -/
theorem wf_table {s : State} {f : FT} (h : Memory.wf s = true) (hf : mapSorted symRank f.table = true) :
    Memory.wf { s with ft := f } = true := by
  rw [wf_iff] at h ⊢
  exact ⟨h.1, h.2.1, h.2.2.1, hf, h.2.2.2.2⟩

/-- New prefix tables in rising order. -/
theorem wf_prefixTables {s : State} {g : PG} (h : Memory.wf s = true) (h1 : mapSorted symRank g.pt = true)
    (h2 : mapSorted codeRank g.ipt = true) : Memory.wf { s with pg := g } = true := by
  rw [wf_iff] at h ⊢
  exact ⟨h.1, h.2.1, h.2.2.1, h.2.2.2.1, h1, h2⟩

/-! ### The writer stays within MAX_BUF -/

theorem writeBit_length {w w' : BW} {b : Bool} (hw : w.buf.length ≤ params.maxBuf)
    (h : w.writeBit params b = .ok w') : w'.buf.length ≤ params.maxBuf := by
  rcases writeBit_cases params w b with ⟨_, e⟩ | ⟨_, hl, e⟩ | ⟨_, _, e⟩ <;> rw [e] at h <;> cases h
  · exact hw
  · simpa using hl

theorem writeAll_length {w w' : BW} {bs : List Bool} (hw : w.buf.length ≤ params.maxBuf)
    (h : w.writeAll params bs = .ok w') : w'.buf.length ≤ params.maxBuf := by
  induction bs generalizing w with
  | nil => cases h; exact hw
  | cons b bs ih =>
    simp only [BW.writeAll] at h
    cases hb : w.writeBit params b with
    | error c => rw [hb] at h; cases h
    | ok w1 => rw [hb] at h; exact ih (writeBit_length hw hb) h

theorem append_length {w w' : BW} {b : Byte} (h : w.append params b = .ok w') : w'.buf.length ≤ params.maxBuf := by
  rcases append_eq params w b with ⟨hl, e⟩ | ⟨_, e⟩ <;> rw [e] at h <;> cases h
  simpa using hl

theorem flush_length {w w' : BW} (hw : w.buf.length ≤ params.maxBuf) (h : w.flush params = .ok w') :
    w'.buf.length ≤ params.maxBuf := by
  rcases flush_cases params w with ⟨_, e⟩ | ⟨_, hl, e⟩ | ⟨_, _, e⟩ <;> rw [e] at h <;> cases h
  · exact hw
  · simpa using hl

/-! ### The frequency table stays in order -/

theorem countSym_sorted {t t' : List (Sym × Nat)} {x : Sym} (ht : mapSorted symRank t = true)
    (h : countSym params t x = .ok t') : mapSorted symRank t' = true := by
  unfold countSym at h
  cases hg : mapGet x t <;> rw [hg] at h <;> simp only at h <;> split at h <;> cases h <;>
    exact mapPut_sorted symRank symRank_injective _ _ ht

theorem countText_sorted {text : List Sym} {t t' : List (Sym × Nat)} (ht : mapSorted symRank t = true)
    (h : text.foldlM (countSym params) t = .ok t') : mapSorted symRank t' = true := by
  induction text generalizing t with
  | nil => cases h; exact ht
  | cons x text ih =>
    rw [List.foldlM_cons] at h
    cases hc : countSym params t x with
    | error c => rw [hc] at h; cases h
    | ok t1 => rw [hc] at h; exact ih (countSym_sorted ht hc) h

/-- Every well-formed command's own part keeps the form. -/
theorem ownPart_wf {i : Instr} {s t : State} (hi : isCommand i = true) (hw : i.wf = true) (h : Memory.wf s = true)
    (ho : ownPart s i = .ok t) : Memory.wf t = true := by
  have h' := (wf_iff s).mp h
  obtain ⟨hb, hr, hl, hf, hp, hinv⟩ := h'
  cases i with
  | node | leaf | codeword | ctrl | container | response | ftCount | cxEncode | cxDecode => cases hi
  | sysReset | sysStat => cases ho; exact h
  | bwClr => cases ho; exact wf_writer (s := s) (w := BW.clear) h (by decide)
  | bwWbit v =>
    obtain ⟨w, hw, rfl⟩ := withWriter_ok ho
    obtain ⟨_, _, hw⟩ := bind_ok hw
    exact wf_writer (s := s) h (writeBit_length hb hw)
  | bwWbits n v =>
    obtain ⟨w, hw, rfl⟩ := withWriter_ok ho
    obtain ⟨_, _, hw⟩ := bind_ok hw
    exact wf_writer (s := s) h (writeAll_length hb hw)
  | bwFlush =>
    obtain ⟨w, hw, rfl⟩ := withWriter_ok ho
    exact wf_writer (s := s) h (flush_length hb hw)
  | bwPos | bwRdbuf | brPos | ftRd => cases ho; exact h
  | brLoad d =>
    cases ho
    have hd : d.length ≤ params.maxBuf := by simpa [Instr.wf, fitsLength] using hw
    exact wf_reader (s := s) (r := BR.load d) h hd ((brOk_iff _).mp (load_brOk d hd)).1
  | brNext =>
    cases ho
    unfold brNext
    split
    · exact h
    · rename_i b r hn
      obtain ⟨e1, e2⟩ := nextBit_keeps hn
      exact wf_reader (s := s) (r := r) h (by rw [e1]; exact hr) (by rw [e1, e2]; exact hl)
  | brRbits n =>
    obtain ⟨out, r, hn, rfl⟩ := brRbits_ok ho
    unfold BR.readBits at hn
    split at hn
    · cases hn
    · split at hn
      · cases hn
      · rename_i hn'
        cases hn
        obtain ⟨e1, e2⟩ := nextBits_keeps hn'
        exact wf_reader (s := s) (r := r) h (by rw [e1]; exact hr) (by rw [e1, e2]; exact hl)
  | ftClr => cases ho; exact wf_table (s := s) (f := ⟨[], [], false⟩) h rfl
  | ftUpd d =>
    obtain ⟨table, rest, hn, rfl⟩ := ftUpd_ok ho
    obtain ⟨text, _, _, _, hn⟩ := feed_ok _ hn
    exact wf_table (s := s) (f := { s.ft with table := table, inc := rest }) h (countText_sorted hf hn)
  | ftEnd => obtain ⟨_, rfl⟩ := ftEnd_ok ho; exact wf_table (s := s) (f := { s.ft with done := true }) h hf
  | tbBuild =>
    obtain ⟨b, root, q, _, _, rfl⟩ := tbBuild_ok ho
    exact (wf_congr rfl rfl rfl rfl rfl).trans h
  | pgGen =>
    obtain ⟨n, m, _, hm, rfl⟩ := pgGen_ok ho
    exact wf_prefixTables (s := s) (g := { s.pg with pt := m, ptV := true, iptV := false }) h (genTable_ok hm).1 hinv
  | pgInv =>
    obtain ⟨inv, hm, rfl⟩ := pgInv_ok ho
    exact wf_prefixTables (s := s) (g := { s.pg with ipt := inv, iptV := true }) h hp (invertTable_sorted rfl hm)
  | pgRd v => cases ho; unfold pgRd; split <;> exact h
  | hcSer =>
    obtain ⟨n, w, _, hw, rfl⟩ := hcSer_ok ho
    obtain ⟨w1, h1, h2⟩ := bind_ok hw
    exact wf_writer (s := s) h (flush_length (writeAll_length (by decide) h1) h2)
  | hcDes d =>
    obtain ⟨n, r, hn, rfl⟩ := hcDes_ok ho
    have hd : d.length ≤ params.maxBuf := by simpa [Instr.wf, fitsLength] using hw
    obtain ⟨_, _, _, hk, hbuf⟩ := desHeader_ok hd hn
    rw [wf_iff]
    exact ⟨hb, by simpa [hbuf] using hd, by simpa using ((brOk_iff r).mp hk).1, hf, hp, hinv⟩
  | dcEbeg => cases ho; rw [wf_iff]; exact ⟨Nat.zero_le _, hr, hl, hf, hp, hinv⟩
  | dcEupd d =>
    obtain ⟨w, rest, hn, rfl⟩ := dcEupd_ok ho
    obtain ⟨text, _, _, _, hn⟩ := feed_ok _ hn
    rw [encodeText params _ (encodeText_known hn)] at hn
    rw [wf_iff]
    exact ⟨writeAll_length hb hn, hr, hl, hf, hp, hinv⟩
  | dcEend =>
    obtain ⟨w, _, hn, rfl⟩ := dcEend_ok ho
    obtain ⟨w1, _, h2⟩ := bind_ok hn
    rw [wf_iff]
    exact ⟨append_length h2, hr, hl, hf, hp, hinv⟩
  | dcDec d =>
    obtain ⟨out, r, hn, rfl⟩ := dcDec_ok ho
    have hd : d.length ≤ params.maxBuf := by simpa [Instr.wf, fitsLength] using hw
    obtain ⟨hk, hbuf⟩ := decodePayload_reader hd hn
    rw [wf_iff]
    exact ⟨hb, by simp [hbuf]; omega, by simpa using ((brOk_iff r).mp hk).1, hf, hp, hinv⟩

end Sys2Proof.Machine
end

