-- ==== Sys2Proof/Laws/PerInstr.lean ====
section
/-! SUPPORT. One lemma per instruction: how many bytes its encoding has (30_encoding.md R79 to R83, R88, R94, R95, R99,
R106). -/

namespace Sys2Proof.Laws.Size

open Sys2Proof Sys2Proof.Machine

/-- The bytes of an encoding, from the layouts of 30_encoding.md: six for a command word, then its attached data; a
lone bit-stream item in whole bytes; none for a pseudo-instruction. -/
def bytes : Instr → Nat
  | .brLoad d | .ftUpd d | .hcDes d | .dcEupd d | .dcDec d => 6 + d.length
  | .node | .ctrl _ => 1
  | .leaf _ => 5
  | .codeword _ l => byteCount l.toNat
  | .container h p => 8 + h.length + p.length
  | .response _ _ d => 9 + d.length
  | .ftCount _ | .cxEncode _ | .cxDecode _ => 0
  | .sysReset | .sysStat | .bwClr | .bwWbit _ | .bwWbits _ _ | .bwFlush | .bwPos | .bwRdbuf | .brNext | .brRbits _
  | .brPos | .ftClr | .ftEnd | .ftRd _ | .tbBuild | .pgGen | .pgInv | .pgRd _ | .hcSer | .dcEbeg | .dcEend => 6

/-- An instruction's encoding has the length its layout gives. -/
def Statement (i : Instr) : Prop := (encode i).length = bytes i

theorem sysReset : Statement .sysReset := rfl

theorem sysStat : Statement .sysStat := rfl

theorem bwClr : Statement .bwClr := rfl

theorem bwWbit (v : Word) : Statement (.bwWbit v) := rfl

theorem bwWbits (n : Byte) (v : Word) : Statement (.bwWbits n v) := rfl

theorem bwFlush : Statement .bwFlush := rfl

theorem bwPos : Statement .bwPos := rfl

theorem bwRdbuf : Statement .bwRdbuf := rfl

theorem brLoad (d : List Byte) : Statement (.brLoad d) := by
  simp [Statement, bytes, encode, encodeData, encodeOp, CmdWord.bytes]; omega

theorem brNext : Statement .brNext := rfl

theorem brRbits (n : Byte) : Statement (.brRbits n) := rfl

theorem brPos : Statement .brPos := rfl

theorem ftClr : Statement .ftClr := rfl

theorem ftUpd (d : List Byte) : Statement (.ftUpd d) := by
  simp [Statement, bytes, encode, encodeData, encodeOp, CmdWord.bytes]; omega

theorem ftEnd : Statement .ftEnd := rfl

theorem ftRd (v : Word) : Statement (.ftRd v) := rfl

theorem tbBuild : Statement .tbBuild := rfl

theorem pgGen : Statement .pgGen := rfl

theorem pgInv : Statement .pgInv := rfl

theorem pgRd (v : Word) : Statement (.pgRd v) := rfl

theorem hcSer : Statement .hcSer := rfl

theorem hcDes (d : List Byte) : Statement (.hcDes d) := by
  simp [Statement, bytes, encode, encodeData, encodeOp, CmdWord.bytes]; omega

theorem dcEbeg : Statement .dcEbeg := rfl

theorem dcEupd (d : List Byte) : Statement (.dcEupd d) := by
  simp [Statement, bytes, encode, encodeData, encodeOp, CmdWord.bytes]; omega

theorem dcEend : Statement .dcEend := rfl

theorem dcDec (d : List Byte) : Statement (.dcDec d) := by
  simp [Statement, bytes, encode, encodeData, encodeOp, CmdWord.bytes]; omega

theorem node : Statement .node := by
  simp [Statement, bytes, encode, itemBits, packBits_length, byteCount]

theorem leaf (s : Sym) : Statement (.leaf s) := by
  simp [Statement, bytes, encode, itemBits, packBits_length, byteCount]

theorem codeword (c : Word) (l : Byte) : Statement (.codeword c l) := by
  simp [Statement, bytes, encode, itemBits, packBits_length]

theorem ctrl (k : Byte) : Statement (.ctrl k) := rfl

theorem container (h : List Byte) (p : List Byte) : Statement (.container h p) := by
  simp [Statement, bytes, encode, pack]; omega

theorem response (st : Byte) (v : Word) (d : List Byte) : Statement (.response st v d) := by
  simp [Statement, bytes, encode, responseBytes]; omega

theorem ftCount (t : List Byte) : Statement (.ftCount t) := rfl

theorem cxEncode (t : List Byte) : Statement (.cxEncode t) := rfl

theorem cxDecode (c : List Byte) : Statement (.cxDecode c) := rfl

end Sys2Proof.Laws.Size
end

