-- ==== Sys2Proof/Laws/Step.lean ====
section
/-! SUPPORT. What a step does, said once: reset, waiting, and the admission of a command word (60_exceptions.md R291). -/

namespace Sys2Proof.Machine

open Sys2Proof Sys2Proof.Config Sys2Proof.Safety

/-- The state a command runs on: its bytes have been taken from the command stream. -/
def State.took (s : State) (rest : List Byte) : State := { s with cmdIn := rest }

@[simp] theorem took_faulted (s : State) (rest : List Byte) : (s.took rest).faulted = s.faulted := rfl
@[simp] theorem took_flt (s : State) (rest : List Byte) : (s.took rest).flt = s.flt := rfl

theorem step_reset {s : State} (h : s.resetIn = true) : step s = .next (resetBlock s) := by simp [step, h]

theorem step_wait {s : State} (h : s.resetIn = false) (ht : takeCommand s.cmdIn = none) : step s = .next s := by
  simp [step, h, ht]

theorem step_take {s : State} {w : CmdWord} {d rest : List Byte} (h : s.resetIn = false)
    (ht : takeCommand s.cmdIn = some (w, d, rest)) :
    step s = perform (s.took rest) (admission (s.took rest) w d) := by
  unfold step
  rw [ht, if_neg (by rw [h]; simp)]
  rfl

/-- Checks 2 and 3 passed. -/
theorem admission_run {s : State} {w : CmdWord} {d : List Byte} {i : Instr} (h : s.faulted = false)
    (hd : decodeWord w d = .ok i) : admission s w d = .run i := by simp [admission, h, hd]

theorem admission_illegal {s : State} {w : CmdWord} {d : List Byte} (h : s.faulted = false)
    (ho : Op.ofByte w.op = none) : admission s w d = .fault .illegalOpcode := by
  simp [admission, h, decodeWord, ho]

theorem admission_reserved {s : State} {w : CmdWord} {d : List Byte} {b : Byte} (h : s.faulted = false)
    (hd : decodeWord w d = .error (.reservedField b)) : admission s w d = .fault .reservedField := by
  simp [admission, h, hd]

/-- Check 1: with a fault recorded the two system commands run and every other word is refused. -/
theorem admission_faulted {s : State} (w : CmdWord) (d : List Byte) (h : s.faulted = true) :
    (w.op = 0x01#8 ∧ admission s w d = .run .sysReset) ∨ (w.op = 0x02#8 ∧ admission s w d = .run .sysStat) ∨
    (w.op ≠ 0x01#8 ∧ w.op ≠ 0x02#8 ∧ admission s w d = .refuse) := by
  unfold admission
  rw [if_pos h]
  cases ho : Op.ofByte w.op with
  | none =>
    refine .inr (.inr ⟨fun e => ?_, fun e => ?_, rfl⟩)
    · rw [e, show (0x01#8 : Byte) = Op.sysReset.code from rfl, Op.ofByte_code] at ho; cases ho
    · rw [e, show (0x02#8 : Byte) = Op.sysStat.code from rfl, Op.ofByte_code] at ho; cases ho
  | some o =>
    have hc := Op.ofByte_eq_some.mp ho
    cases o
    case sysReset => exact .inl ⟨hc.symm, rfl⟩
    case sysStat => exact .inr (.inl ⟨hc.symm, rfl⟩)
    all_goals exact .inr (.inr ⟨by rw [← hc]; decide, by rw [← hc]; decide, rfl⟩)

/-- A word that decodes is a command, with the system opcodes for the system commands. -/
theorem decodeWord_ok {w : CmdWord} {d : List Byte} {i : Instr} (h : decodeWord w d = .ok i) :
    isCommand i = true ∧ (i = .sysReset ↔ w.op = 0x01#8) ∧ (i = .sysStat ↔ w.op = 0x02#8) := by
  unfold decodeWord at h
  cases ho : Op.ofByte w.op with
  | none => rw [ho] at h; cases h
  | some o =>
    rw [ho] at h
    rw [← Op.ofByte_eq_some.mp ho]
    cases o <;> simp only [noOperand, valueOperand, countOnly] at h <;> (try split at h) <;> cases h <;>
      exact ⟨rfl, by simp [Op.code], by simp [Op.code]⟩

/-- Everything a step can do: stay in reset, wait, run a command, refuse a word, or raise one of the two word faults. -/
theorem step_cases (s : State) :
    (s.resetIn = true ∧ step s = .next (resetBlock s)) ∨
    step s = .next s ∨
    (∃ w d rest, s.resetIn = false ∧ takeCommand s.cmdIn = some (w, d, rest) ∧
      ((∃ i, isCommand i = true ∧ decodeWord w d = .ok i ∧ s.faulted = false ∧ step s = exec i (s.took rest)) ∨
       (s.faulted = true ∧ w.op = 0x01#8 ∧ step s = exec .sysReset (s.took rest)) ∨
       (s.faulted = true ∧ w.op = 0x02#8 ∧ step s = exec .sysStat (s.took rest)) ∨
       (s.faulted = true ∧ step s = .next (refuse (s.took rest))) ∨
       (s.faulted = false ∧ step s = .next (raise .illegalOpcode (s.took rest))) ∨
       (s.faulted = false ∧ step s = .next (raise .reservedField (s.took rest))))) := by
  cases hr : s.resetIn with
  | true => exact .inl ⟨rfl, step_reset hr⟩
  | false =>
    cases ht : takeCommand s.cmdIn with
    | none => exact .inr (.inl (step_wait hr ht))
    | some o =>
      obtain ⟨w, d, rest⟩ := o
      refine .inr (.inr ⟨w, d, rest, rfl, rfl, ?_⟩)
      rw [step_take hr ht]
      cases hf : s.faulted with
      | true =>
        rcases admission_faulted w d (s := s.took rest) hf with ⟨h, e⟩ | ⟨h, e⟩ | ⟨_, _, e⟩
        · exact .inr (.inl ⟨rfl, h, by rw [e]; rfl⟩)
        · exact .inr (.inr (.inl ⟨rfl, h, by rw [e]; rfl⟩))
        · exact .inr (.inr (.inr (.inl ⟨rfl, by rw [e]; rfl⟩)))
      | false =>
        cases hd : decodeWord w d with
        | ok i => exact .inl ⟨i, (decodeWord_ok hd).1, rfl, rfl, by rw [admission_run (s := s.took rest) hf hd]; rfl⟩
        | error e =>
          rcases decodeWord_error hd with rfl | rfl
          · refine .inr (.inr (.inr (.inr (.inl ⟨rfl, ?_⟩))))
            simp [admission, hf, hd, perform]
          · refine .inr (.inr (.inr (.inr (.inr ⟨rfl, ?_⟩))))
            rw [admission_reserved (s := s.took rest) hf hd]; rfl

end Sys2Proof.Machine
end

