-- ==== Sys2Proof/Tests/Slice0.lean ====
section
/-! SUPPORT. Tests: ill-formed terms, words written out from the encoding tables, single steps with the expected results
of 95_test_vectors.md and of the rules' own examples, and a witness for the hypotheses of every statement. -/

namespace Sys2Proof.Tests

open Sys2Proof Sys2Proof.Machine Sys2Proof.Config Sys2Proof.Safety

/-! ### Well-formedness: each check refuses an ill-formed term -/

/-- A length field counts up to 2^32 - 1 (20_memory.md R61). -/
theorem test_wf_length (d : List Byte) (h : d.length = 4294967296) :
    (Instr.brLoad d).wf = false ∧ (Instr.ftUpd d).wf = false ∧ (Instr.hcDes d).wf = false ∧
      (Instr.dcEupd d).wf = false ∧ (Instr.dcDec d).wf = false ∧ (Instr.container [] d).wf = false ∧
      (Instr.container d []).wf = false ∧ (Instr.response 0 0 d).wf = false := by
  simp [Instr.wf, responseWf, fitsLength, params, h]

/-- A surrogate is no scalar (30_encoding.md R96). -/
theorem test_wf_leaf : (Instr.leaf 0xD800#32).wf = false ∧ (Instr.leaf 0x110000#32).wf = false := by decide

/-- A codeword has 1 to 32 bits and a code that fits (30_encoding.md R99). -/
theorem test_wf_codeword :
    (Instr.codeword 0 0).wf = false ∧ (Instr.codeword 0 33).wf = false ∧ (Instr.codeword 4 2).wf = false := by decide

/-- A control byte is 1 to 8 (30_encoding.md R102). -/
theorem test_wf_ctrl : (Instr.ctrl 0).wf = false ∧ (Instr.ctrl 9).wf = false := by decide

/-- A status outside R89, and data beside FAULT. -/
theorem test_wf_response : (Instr.response 3 0 []).wf = false ∧ (Instr.response 0xFF#8 0 [0]).wf = false := by decide

/-! ### Decoding: words written out from 30_encoding.md R80 to R86 -/

theorem test_decode_sys :
    decode [0x01#8, 0, 0, 0, 0, 0, 0x7F#8] = .ok (.sysReset, [0x7F#8]) ∧
    decode [0x02#8, 0, 0, 0, 0, 0] = .ok (.sysStat, []) := by decide

theorem test_decode_bw :
    decode [0x10#8, 0, 0, 0, 0, 0] = .ok (.bwClr, []) ∧
    decode [0x11#8, 0, 0, 0, 0, 1] = .ok (.bwWbit 1, []) ∧
    decode [0x12#8, 0xFF#8, 0x12#8, 0x34#8, 0x56#8, 0x78#8] = .ok (.bwWbits 255 0x12345678, []) ∧
    decode [0x13#8, 0, 0, 0, 0, 0] = .ok (.bwFlush, []) ∧
    decode [0x14#8, 0, 0, 0, 0, 0] = .ok (.bwPos, []) ∧
    decode [0x15#8, 0, 0, 0, 0, 0] = .ok (.bwRdbuf, []) := by decide

theorem test_decode_br :
    decode [0x20#8, 0, 0, 0, 0, 2, 0xA5#8, 0xC0#8, 0x21#8] = .ok (.brLoad [0xA5#8, 0xC0#8], [0x21#8]) ∧
    decode [0x21#8, 0, 0, 0, 0, 0] = .ok (.brNext, []) ∧
    decode [0x22#8, 0x28#8, 0, 0, 0, 0] = .ok (.brRbits 40, []) ∧
    decode [0x23#8, 0, 0, 0, 0, 0] = .ok (.brPos, []) := by decide

theorem test_decode_ft :
    decode [0x30#8, 0, 0, 0, 0, 0] = .ok (.ftClr, []) ∧
    decode [0x31#8, 0, 0, 0, 0, 0] = .ok (.ftUpd [], []) ∧
    decode [0x32#8, 0, 0, 0, 0, 0] = .ok (.ftEnd, []) ∧
    decode [0x33#8, 0, 0, 0x01#8, 0xF6#8, 0x00#8] = .ok (.ftRd 0x1F600, []) := by decide

theorem test_decode_tree :
    decode [0x40#8, 0, 0, 0, 0, 0] = .ok (.tbBuild, []) ∧
    decode [0x50#8, 0, 0, 0, 0, 0] = .ok (.pgGen, []) ∧
    decode [0x51#8, 0, 0, 0, 0, 0] = .ok (.pgInv, []) ∧
    decode [0x52#8, 0, 0, 0, 0xD8#8, 0] = .ok (.pgRd 0xD800, []) := by decide

theorem test_decode_codecs :
    decode [0x60#8, 0, 0, 0, 0, 0] = .ok (.hcSer, []) ∧
    decode [0x61#8, 0, 0, 0, 0, 1, 0x40#8] = .ok (.hcDes [0x40#8], []) ∧
    decode [0x70#8, 0, 0, 0, 0, 0] = .ok (.dcEbeg, []) ∧
    decode [0x71#8, 0, 0, 0, 0, 1, 0x61#8] = .ok (.dcEupd [0x61#8], []) ∧
    decode [0x72#8, 0, 0, 0, 0, 0] = .ok (.dcEend, []) ∧
    decode [0x73#8, 0, 0, 0, 0, 2, 0xC0#8, 0x03#8] = .ok (.dcDec [0xC0#8, 0x03#8], []) := by decide

/-- Reserved and illegal words, and a word cut short (30_encoding.md R85, R86; 46_system_and_macros.md R273). -/
theorem test_decode_refuses :
    decode [0x11#8, 1, 0, 0, 0, 1] = .error (.reservedField 0x11#8) ∧
    decode [0x22#8, 1, 0, 0, 0, 1] = .error (.reservedField 0x22#8) ∧
    decode [0x13#8, 0, 0, 0, 0, 1] = .error (.reservedField 0x13#8) ∧
    decode [0x00#8, 0, 0, 0, 0, 0] = .error (.illegalOpcode 0x00#8) ∧
    decode [0x74#8, 0, 0, 0, 0, 0] = .error (.illegalOpcode 0x74#8) ∧
    decode [0x20#8, 0, 0, 0, 0, 2, 0xA5#8] = .error .incomplete ∧
    decode [0x20#8, 0, 0, 0, 0] = .error .incomplete := by decide

/-- A LEAF token, a codeword, a container and a response (30_encoding.md R95, R99, R106, R88). -/
theorem test_decode_items :
    decodeToken (true :: bitsOfBytes [0, 0, 0, 0x61#8]) = .ok (.leaf 0x61, []) ∧
    decodeToken (true :: bitsOfBytes [0, 0, 0xD8#8, 0]) = .error (.invalidScalar 0xD800) ∧
    decodeCodeword 3 [true, false, true, true] = .ok (.codeword 5 3, [true]) ∧
    decodeCtrl 0 = .ok (.ctrl 8) ∧ decodeCtrl 9 = .error (.badControl 9) ∧
    decodeContainer [0, 0, 0, 1, 0x80#8, 0, 0, 0, 2, 0, 3] = .ok (.container [0x80#8] [0, 3]) ∧
    decodeResponse [0, 0, 0, 0, 3, 0, 0, 0, 1, 2] = .ok (.response 0 3 [2], []) := by decide

/-- The opcode table's numbering (log 15): BR.RBITS 5 is 0x220500000000, LEAF U+0061 the 33 bits 1 0000_0061. -/
theorem test_decode_table :
    decodeTableWord 48 0x220500000000 = some (.brRbits 5) ∧ decodeTableWord 48 0x310000000002 = some (.ftUpd [0, 0]) ∧
    decodeTableWord 48 0x220500000001 = none ∧ decodeTableWord 40 0x100000061 = some (.leaf 0x61) ∧
    decodeTableWord 8 0 = some .node ∧ decodeTableWord 8 4 = some (.ctrl 4) ∧ decodeTableWord 16 0 = none := by decide

/-- The next step after reset runs the word that stands on the command stream. -/
theorem test_withFetchWord :
    step (State.reset.withFetchWord 48 0x110000000001) = exec (.bwWbit 1) State.reset := rfl

/-! ### Small states -/

/-- The state after some instructions. -/
def run (is : List Instr) (s : State) : State :=
  is.foldl (fun s i => match exec i s with | .next t => t | .fault _ => s | .refused _ => s) s

/-- The response of an instruction that follows others after reset. -/
def answers (before : List Instr) (i : Instr) : Response := lastResponse (run (before ++ [i]) State.reset)

/-- The instruction completes: a next state with no fault recorded. -/
def completes (i : Instr) (s : State) : Bool :=
  match exec i s with
  | .next t => !t.faulted
  | .fault _ => false
  | .refused _ => false

/-- "aaabcccc" -/
def sampleText : List Byte := [0x61, 0x61, 0x61, 0x62, 0x63, 0x63, 0x63, 0x63]

/-- Setup Q of 95_test_vectors.md 2.7. -/
def setupQ : List Instr := [.ftUpd sampleText, .ftEnd, .tbBuild, .pgGen, .pgInv]

/-- The tree of "aaabcccc" (42_tree_builder.md R181). -/
def sampleTree : Node := .internal 8 (.leaf 0x63 4) (.internal 4 (.leaf 0x62 1) (.leaf 0x61 3))

/-- Its prefix table (43_prefix_table.md R191). -/
def sampleTable : List (Sym × Code) := [(0x61, ⟨3, 2⟩), (0x62, ⟨2, 2⟩), (0x63, ⟨0, 1⟩)]

/-- Its header (95_test_vectors.md S3). -/
def sampleHeader : List Byte := [0x40, 0, 0, 0x18, 0xD0, 0, 0, 0x06, 0x28, 0, 0, 0x03, 0x08]

def closed : State := run [.ftUpd sampleText, .ftEnd] State.reset
def built : State := run [.ftUpd sampleText, .ftEnd, .tbBuild] State.reset
def ready : State := run setupQ State.reset
def encoding : State := run (setupQ ++ [.dcEbeg]) State.reset
def broken : State := run [.bwWbit 2] State.reset

/-! ### One step of each instruction -/

theorem test_sysReset : answers [.ftUpd [0xFF]] .sysReset = ⟨0, 0, []⟩ := by decide
theorem test_sysStat : answers setupQ .sysStat = ⟨0, 15, []⟩ := by decide
/-- After a fault only bits 31:5 of STATUS are determined: 0x000445xx, bit 5 set (95_test_vectors.md 2.4). -/
theorem test_sysStat_faulted : (answers [.ftEnd, .tbBuild] .sysStat).value.toNat / 32 = 0x44520 / 32 := by
  have h : (statusWord (run [.ftEnd, .tbBuild] State.reset)).toNat = _ := statusWord_toNat _
  have hk : (run [.ftEnd, .tbBuild] State.reset).flt = ⟨4, 0x45⟩ := rfl
  have hf : (run [.ftEnd, .tbBuild] State.reset).faulted = true := rfl
  have hv : (answers [.ftEnd, .tbBuild] .sysStat).value = statusWord (run [.ftEnd, .tbBuild] State.reset) := rfl
  rw [hk, hf] at h
  rw [hv]
  generalize run [.ftEnd, .tbBuild] State.reset = s at *
  have b1 := Bool.toNat_le s.dc.encAct
  have b2 := Bool.toNat_le s.pg.iptV
  have b3 := Bool.toNat_le s.pg.ptV
  have b4 := Bool.toNat_le s.tb.treeV
  have b5 := Bool.toNat_le s.ft.done
  simp at h
  omega
theorem test_bwClr : (run [.bwWbits 3 5, .bwClr] State.reset).bw = ⟨0, 0, []⟩ := by decide
theorem test_bwWbit : (run [.bwWbit 1, .bwWbit 0, .bwWbit 1] State.reset).bw = ⟨5, 3, []⟩ := by decide
theorem test_bwWbit_bad : answers [] (.bwWbit 2) = ⟨0xFF, 0x442, []⟩ := by decide
theorem test_bwWbits : (run [.bwWbit 1, .bwWbits 32 0x61] State.reset).bw = ⟨1, 1, [0x80, 0, 0, 0x30]⟩ := by decide
theorem test_bwWbits_bad : answers [] (.bwWbits 33 0) = ⟨0xFF, 0x443, []⟩ := by decide
theorem test_bwFlush : (run [.bwWbits 3 1, .bwFlush] State.reset).bw = ⟨0, 0, [0x20]⟩ := by decide
theorem test_bwFlush_empty : (run [.bwFlush] State.reset).bw = ⟨0, 0, []⟩ := by decide
theorem test_bwPos : answers [.bwWbits 12 0xABC] .bwPos = ⟨0, 4, []⟩ := by decide
theorem test_bwRdbuf : answers [.bwWbit 1, .bwWbits 32 0x61] .bwRdbuf = ⟨0, 4, [0x80, 0, 0, 0x30]⟩ := by decide
theorem test_brLoad : (run [.brLoad [0xA0], .brNext, .brLoad [0xA5, 0xC0]] State.reset).br = ⟨[0xA5, 0xC0], 2, 0, 0⟩ := by decide
theorem test_brNext : answers [.brLoad [0xA0], .brNext, .brNext] .brNext = ⟨0, 1, []⟩ := by decide
theorem test_brNext_end : answers [.brLoad []] .brNext = ⟨1, 0, []⟩ := by decide
theorem test_brRbits : answers [.brLoad [0x80, 0, 0, 0x30, 0x80], .brNext] (.brRbits 32) = ⟨0, 0, [0, 0, 0, 0x61]⟩ := by decide
theorem test_brRbits_past : answers [.brLoad [0xA5, 0xC0], .brRbits 8] (.brRbits 9) = ⟨0xFF, 0x119, []⟩ := by decide
theorem test_brPos : answers [.brLoad [0x80, 0, 0, 0x30, 0x80], .brRbits 33] .brPos = ⟨0, 4, [1]⟩ := by decide
theorem test_ftClr : answers [.ftUpd [0x61, 0x62], .ftEnd, .ftClr] (.ftRd 0x61) = ⟨0, 0, [0, 0, 0, 0, 0, 0, 0, 0]⟩ := by decide
theorem test_ftUpd : (run [.ftUpd [0x68, 0xC3], .ftUpd [0xA9]] State.reset).ft = ⟨[(0x68, 1), (0xE9, 1)], [], false⟩ := by decide
theorem test_ftUpd_invalid : answers [.ftUpd [0xE0]] (.ftUpd [0x80]) = ⟨0xFF, 0x221, []⟩ := by decide
theorem test_ftEnd : (run [.ftUpd [0x61], .ftEnd] State.reset).ft = ⟨[(0x61, 1)], [], true⟩ := by decide
theorem test_ftEnd_tail : answers [.ftUpd [0x61, 0xF0, 0x9F]] .ftEnd = ⟨0xFF, 0x220, []⟩ := by decide
theorem test_ftRd : answers [.ftUpd [0x61, 0x61, 0x62]] (.ftRd 0x61) = ⟨0, 0, [0, 0, 0, 0, 0, 0, 0, 2]⟩ := by decide
theorem test_tbBuild : built.tb = ⟨some sampleTree, true, [], 2⟩ := by decide
theorem test_tbBuild_empty : answers [.ftEnd] .tbBuild = ⟨0xFF, 0x445, []⟩ := by decide
theorem test_pgGen : (run [.pgGen] built).pg = ⟨sampleTable, true, [], false⟩ := by decide
theorem test_pgGen_duplicate :
    answers [.hcDes [0x40, 0, 0, 0x18, 0x60, 0, 0, 0x0C, 0x20]] .pgGen = ⟨0xFF, 0x118, []⟩ := by decide
theorem test_pgInv : ready.pg.ipt = [(⟨0, 1⟩, 0x63), (⟨2, 2⟩, 0x62), (⟨3, 2⟩, 0x61)] := by decide
theorem test_pgRd : answers setupQ (.pgRd 0x61) = ⟨0, 3, [2]⟩ := by decide
theorem test_pgRd_absent : answers setupQ (.pgRd 0x7A) = ⟨2, 0, []⟩ := by decide
theorem test_hcSer : answers setupQ .hcSer = ⟨0, 13, sampleHeader⟩ := by decide
theorem test_hcDes : (run [.hcDes [0x40, 0, 0, 0x18, 0xA0, 0, 0, 0x0C, 0x20]] State.reset).tb.tree =
    some (.internal 0 (.leaf 0x62 0) (.leaf 0x61 0)) := by decide
theorem test_hcDes_surrogate : answers [] (.hcDes [0x40, 0, 0x37, 0xFF, 0xC0]) = ⟨0xFF, 0x111, []⟩ := by decide
theorem test_dcEbeg : answers (setupQ ++ [.dcEbeg]) .sysStat = ⟨0, 31, []⟩ := by decide
theorem test_dcEupd : (run [.dcEupd [0x61, 0x61, 0x61, 0x62, 0xC3]] encoding).bw = ⟨0, 0, [0xFE]⟩ := by decide
theorem test_dcEupd_unknown : answers (setupQ ++ [.dcEbeg]) (.dcEupd [0x61, 0x64]) = ⟨0xFF, 0x447, []⟩ := by decide
theorem test_dcEend : answers (setupQ ++ [.dcEbeg, .dcEupd sampleText]) .dcEend = ⟨0, 3, [0xFE, 0, 4]⟩ := by decide
theorem test_dcEend_empty : answers (setupQ ++ [.dcEbeg]) .dcEend = ⟨0, 1, [8]⟩ := by decide
theorem test_dcDec : answers setupQ (.dcDec [0xFE, 0, 4]) = ⟨0, 0, sampleText⟩ := by decide
theorem test_dcDec_midSymbol : answers setupQ (.dcDec [0xFE, 0, 9]) = ⟨0xFF, 0x116, []⟩ := by decide
theorem test_node : (run [.bwWbit 1, .node] State.reset).bw = ⟨2, 2, []⟩ := by decide
theorem test_leaf : (run [.leaf 0x61] State.reset).bw = ⟨1, 1, [0x80, 0, 0, 0x30]⟩ := by decide
theorem test_codeword : (run [.codeword 3 2, .codeword 2 2] State.reset).bw = ⟨0x0E, 4, []⟩ := by decide
theorem test_ctrl : (run [.ctrl 4, .ctrl 0] State.reset).bw.buf = [4, 8] := by decide
theorem test_container : (run [.container [0x80] [0, 3]] State.reset).hostOut =
    [.container [0, 0, 0, 1, 0x80, 0, 0, 0, 2, 0, 3]] := by decide
theorem test_response : (run [.response 0 3 [2]] State.reset).resps = [⟨0, 3, [2]⟩] := by decide
theorem test_ftCount : (run [.ftCount [0x61, 0x61, 0x62]] State.reset).ft = ⟨[(0x61, 2), (0x62, 1)], [], true⟩ := by decide
/-- The container of W5 (95_test_vectors.md 2.0). -/
theorem test_cxEncode : (run [.cxEncode [0x61, 0x61, 0x62]] State.reset).hostOut =
    [.container [0, 0, 0, 9, 0x40, 0, 0, 0x18, 0xA0, 0, 0, 0x0C, 0x20, 0, 0, 0, 2, 0xC0, 3]] := by decide
theorem test_cxDecode :
    (run [.cxDecode [0, 0, 0, 9, 0x40, 0, 0, 0x18, 0xA0, 0, 0, 0x0C, 0x20, 0, 0, 0, 2, 0xC0, 3]] State.reset).hostOut =
      [.text [0x61, 0x61, 0x62]] := by decide
theorem test_cxDecode_short : (run [.cxDecode [0, 0, 0, 9, 0x40]] State.reset).hostOut =
    [.failed Cause.containerTruncated.flt] := by decide

/-- The reset input abandons the command in progress unanswered and drops a partly received one (R272, R320). -/
theorem test_reset_abandons :
    let s := (State.reset.send [0x14#8, 0, 0, 0, 0, 0, 0x20#8, 0, 0, 0, 0, 1, 0xA5#8, 0x31#8, 0]).assertReset
    s.resps = [] ∧ s.cmdIn = [0x20#8, 0, 0, 0, 0, 1, 0xA5#8] ∧ step s = .next s := ⟨rfl, rfl, rfl⟩

/-- While the reset input is asserted the state is the reset state, and neither a command nor a macro runs (R320). -/
theorem test_reset_held :
    (run [.bwWbit 1] State.reset).assertReset = { State.reset with resps := [⟨0, 0, []⟩], resetIn := true } ∧
    step (State.reset.assertReset.send [0x14#8, 0, 0, 0, 0, 0]) =
      .next (State.reset.assertReset.send [0x14#8, 0, 0, 0, 0, 0]) ∧
    exec (.ftCount [0x61]) State.reset.assertReset = .next State.reset.assertReset := by
  exact ⟨rfl, rfl, rfl⟩

/-! ### The tables of the exception rules and the worked traces -/

/-- Vectors DS-4 to DS-6: a `1` under a single-symbol table, then the end before or at the 32nd bit. -/
theorem test_single_symbol :
    let q : List Instr := [.hcDes [0x80, 0, 0, 0x30, 0x80], .pgGen, .pgInv]
    answers q (.dcDec [0x80, 1]) = ⟨0xFF, 0x113, []⟩ ∧ answers q (.dcDec [0x80, 0, 0, 0, 7]) = ⟨0xFF, 0x113, []⟩ ∧
      answers q (.dcDec [0x80, 0, 0, 0, 8]) = ⟨0xFF, 0x117, []⟩ := by decide

/-- Every row of 60_exceptions.md R287, as `(kind << 8) | cause`. -/
theorem test_causes :
    ([.headerTruncated, .invalidScalar, .payloadTooShort, .exhaustedMidSymbol, .duplicateCode, .containerTruncated,
      .badControl, .noMatch, .duplicateSymbol, .readPastEnd, .incompleteTail, .invalidUtf8, .hostIo, .illegalOpcode,
      .reservedField, .badBit, .badCount, .sequenceError, .emptyAlphabet, .codeTooLong, .symbolNotInTable,
      .weightOverflow, .sizeOverflow, .capacityExceeded].map fun c : Cause => c.flt.value) =
    [0x110, 0x111, 0x112, 0x113, 0x114, 0x115, 0x116, 0x117, 0x118, 0x119, 0x220, 0x221, 0x330, 0x440, 0x441, 0x442,
      0x443, 0x444, 0x445, 0x446, 0x447, 0x448, 0x449, 0x44A] := by decide

/-- The traces of 42_tree_builder.md R181: all ties, and "abracadabra". -/
theorem test_traces :
    (buildTree params [(0x61, 1), (0x62, 1), (0x63, 1), (0x64, 1)]).toOption.map (fun b => b.mq.map Entry.node) =
      some [.internal 4 (.internal 2 (.leaf 0x61 1) (.leaf 0x62 1)) (.internal 2 (.leaf 0x63 1) (.leaf 0x64 1))] ∧
    (buildTree params [(0x61, 5), (0x62, 2), (0x63, 1), (0x64, 1), (0x72, 2)]).toOption.map
      (fun b => b.mq.map Entry.node) =
      some [.internal 11 (.leaf 0x61 5)
        (.internal 6 (.internal 2 (.leaf 0x63 1) (.leaf 0x64 1)) (.internal 4 (.leaf 0x62 2) (.leaf 0x72 2)))] := by
  decide

/-- The ill-formed inputs of 95_test_vectors.md FT-4. -/
theorem test_utf8_invalid :
    ∀ d ∈ [[0xFF], [0xF5], [0x80], [0xC0, 0x80], [0xE0, 0x80], [0xED, 0xA0, 0x80], [0xF4, 0x90, 0x80, 0x80]],
      head d = .invalid := by decide

/-- The boundary scalars of every row of the table (95_test_vectors.md FT-3). -/
theorem test_utf8_boundaries :
    (utf8Split [0x7F, 0xC2, 0x80, 0xDF, 0xBF, 0xE0, 0xA0, 0x80, 0xED, 0x9F, 0xBF, 0xEE, 0x80, 0x80, 0xEF, 0xBF, 0xBF,
      0xF0, 0x90, 0x80, 0x80, 0xF4, 0x8F, 0xBF, 0xBF]).toOption =
      some ([0x7F, 0x80, 0x7FF, 0x800, 0xD7FF, 0xE000, 0xFFFF, 0x10000, 0x10FFFF], []) := by decide

/-! ### Witnesses: concrete states and operands that meet the hypotheses of the statements -/

theorem witness_ResetValues : State.reset.assertReset.resetIn = true := rfl

theorem reset_inv : Inv State.reset :=
  ⟨rfl, nofun, fun _ => by decide +kernel, fun _ => by decide +kernel, fun _ => by decide +kernel, fun _ => by decide +kernel, fun _ => by decide +kernel,
    fun _ => ⟨nofun, nofun⟩, fun _ => by decide +kernel⟩

theorem witness_StepKeepsInv : Inv (State.reset.send [0x40#8, 0, 0, 0, 0, 0]) ∧
    ∃ t, step (State.reset.send [0x40#8, 0, 0, 0, 0, 0]) = .next t ∧ t.faulted = true :=
  ⟨⟨rfl, nofun, fun _ => by decide +kernel, fun _ => by decide +kernel, fun _ => by decide +kernel, fun _ => by decide +kernel, fun _ => by decide +kernel,
    fun _ => ⟨nofun, nofun⟩, fun _ => by decide +kernel⟩, _, rfl, rfl⟩

theorem witness_StepRunsDecodedCommand :
    (State.reset.send [0x20#8, 0, 0, 0, 0, 1, 0xA5#8, 0x21#8]).resetIn = false ∧
    decode (State.reset.send [0x20#8, 0, 0, 0, 0, 1, 0xA5#8, 0x21#8]).cmdIn = .ok (.brLoad [0xA5], [0x21]) ∧
    (State.reset.send [0x20#8, 0, 0, 0, 0, 1]).resetIn = false ∧
    decode (State.reset.send [0x20#8, 0, 0, 0, 0, 1]).cmdIn = .error .incomplete := by decide

theorem witness_StepRunsDecodedCommand_reset :
    (State.reset.send [0x14#8, 0, 0, 0, 0, 0, 0x20#8, 0, 0, 0, 0, 1, 0xA5#8, 0x31#8]).resetIn = false ∧
    (∀ c ∈ [(⟨0x14, 0, 0⟩, []), (⟨0x20, 0, 1⟩, [0xA5#8])], List.length c.2 = CmdWord.dataLength c.1) ∧
    takeCommand [0x31#8] = none ∧
    (State.reset.send [0x14#8, 0, 0, 0, 0, 0, 0x20#8, 0, 0, 0, 0, 1, 0xA5#8, 0x31#8]).cmdIn =
      [((⟨0x14, 0, 0⟩, []) : CmdWord × List Byte), (⟨0x20, 0, 1⟩, [0xA5#8])].flatMap
        (fun c => commandBytes c.1 c.2) ++ [0x31] ∧ State.reset.assertReset.resetIn = true := by decide

theorem witness_IllegalOpcode :
    (State.reset.send [0xFF#8, 0, 0, 0, 0, 0]).resetIn = false ∧
    (State.reset.send [0xFF#8, 0, 0, 0, 0, 0]).faulted = false ∧
    (State.reset.send [0xFF#8, 0, 0, 0, 0, 0]).cmdIn = [0xFF#8, 0, 0, 0, 0, 0] ∧ Op.ofByte 0xFF#8 = none := by decide

theorem witness_ReservedField :
    (State.reset.send [0x11#8, 1, 0, 0, 0, 1]).resetIn = false ∧
    (State.reset.send [0x11#8, 0, 0, 0, 0, 1]).resetIn = false ∧
    (State.reset.send [0x11#8, 0, 0, 0, 0, 1]).faulted = false ∧
    (State.reset.send [0x11#8, 1, 0, 0, 0, 1]).faulted = false ∧
    takeCommand (State.reset.send [0x11#8, 1, 0, 0, 0, 1]).cmdIn = some (⟨0x11, 1, 1⟩, [], []) ∧
    Op.ofByte 0x11#8 = some .bwWbit ∧ reservedClear ⟨0x11, 1, 1⟩ .bwWbit = false ∧
    takeCommand (State.reset.send [0x11#8, 0, 0, 0, 0, 1]).cmdIn = some (⟨0x11, 0, 1⟩, [], []) ∧
    reservedClear ⟨0x11, 0, 1⟩ .bwWbit = true ∧
    msbBits (0xFF#32 : Word) 4 = msbBits (0xF#32 : Word) 4 := by decide

theorem witness_SequencingPreconditions :
    isCommand .tbBuild = true ∧ State.reset.faulted = false ∧ precondition State.reset .tbBuild = false ∧
    precondition closed .tbBuild = true ∧ closed.faulted = false ∧ tbOk closed.tb = true ∧
    completes .tbBuild closed = true := by decide

/-- A writer filled to MAX_BUF. -/
def full (cnt : Fin 8) : State := { State.reset with bw := ⟨0, cnt, List.replicate params.maxBuf 0⟩ }

theorem witness_WriterFaults :
    State.reset.faulted = false ∧ State.reset.dc.encAct = false ∧ 1 < (2#32).toNat ∧ 32 < (33#8).toNat ∧
    (full 7).faulted = false ∧ (full 7).dc.encAct = false ∧ (full 7).bw.buf.length = params.maxBuf ∧
    (1#32).toNat ≤ 1 ∧ (full 7).bw.cnt.val = 7 ∧ (full 7).bw.cnt.val ≠ 0 :=
  ⟨rfl, rfl, by decide, by decide, rfl, rfl, List.length_replicate, by decide, rfl, show (7 : Nat) ≠ 0 by decide⟩

/-- One byte short of full: the ninth of 32 bits does not fit. -/
theorem witness_WriterFaults_group :
    ∃ w : BW, w.buf.length < params.maxBuf ∧ params.maxBuf < (w.content.length + (32#8).toNat) / 8 := by
  refine ⟨⟨0, 7, List.replicate (params.maxBuf - 1) 0⟩, ?_⟩
  have h : params.maxBuf = 4294967295 := rfl
  have h32 : (32#8).toNat = 32 := rfl
  have h7 : (7 : Fin 8).val = 7 := rfl
  rw [content_length, List.length_replicate]
  simp only [h32, h7]
  omega

theorem witness_FaultEntry : isCommand .tbBuild = true ∧ State.reset.faulted = false ∧
    ∃ t, exec .tbBuild State.reset = .next t ∧ t.faulted = true := ⟨rfl, rfl, _, rfl, rfl⟩

theorem witness_RefusalWhileFaulted :
    (broken.send [0x31#8, 0, 0, 0, 0, 1, 0x61#8]).resetIn = false ∧
    (broken.send [0x31#8, 0, 0, 0, 0, 1, 0x61#8]).faulted = true ∧
    takeCommand (broken.send [0x31#8, 0, 0, 0, 0, 1, 0x61#8]).cmdIn = some (⟨0x31, 0, 1⟩, [0x61], []) ∧
    (0x31#8 ≠ 0x01#8) ∧ (0x31#8 ≠ 0x02#8) := by decide

theorem witness_OnlyResetClearsFault : (broken.send [0x01#8, 0xFF#8, 0, 0, 0, 7]).faulted = true ∧
    (broken.send [0x01#8, 0xFF#8, 0, 0, 0, 7]).resetIn = false ∧
    (broken.send [0x01#8, 0xFF#8, 0, 0, 0, 7]).cmdIn = [0x01#8, 0xFF#8, 0, 0, 0, 7] ∧
    ∃ t, step (broken.send [0x01#8, 0xFF#8, 0, 0, 0, 7]) = .next t ∧ t.faulted = false := ⟨rfl, rfl, rfl, _, rfl, rfl⟩

theorem witness_StatusRegister :
    (broken.send [0x02#8, 1, 0, 0, 0, 1]).resetIn = false ∧ (broken.send [0x02#8, 1, 0, 0, 0, 1]).faulted = true ∧
    (broken.send [0x02#8, 1, 0, 0, 0, 1]).cmdIn = [0x02#8, 1, 0, 0, 0, 1] := by decide

theorem witness_OneResponsePerCommand : isCommand .brNext = true ∧ ∃ t, exec .brNext State.reset = .next t ∧
    (lastResponse t).status = 1 := ⟨rfl, _, rfl, rfl⟩

theorem witness_FlagTable : isCommand .tbBuild = true ∧ ready.faulted = false ∧ completes .tbBuild ready = true ∧
    (run [.tbBuild] ready).pg.ptV = false := by decide +kernel

theorem witness_Frames :
    (∀ i ∈ [Instr.sysStat, .bwPos, .bwRdbuf, .brPos, .ftRd 0x61, .pgRd 0x61], completes i ready = true) ∧
    (∀ i ∈ [Instr.bwClr, .bwWbit 1, .bwWbits 32 7, .bwFlush], completes i ready = true) ∧
    (∀ i ∈ [Instr.brLoad [1], .brNext, .brRbits 0], completes i ready = true) ∧
    (∀ i ∈ [Instr.ftClr, .ftUpd [0x61], .ftEnd], completes i State.reset = true) ∧
    (∀ i ∈ [Instr.tbBuild, .pgGen, .pgInv], completes i ready = true) ∧
    (∀ i ∈ [Instr.hcSer, .hcDes sampleHeader, .dcEbeg, .dcDec [0xFE, 0, 4]], completes i ready = true) ∧
    (∀ i ∈ [Instr.dcEupd [0x61], .dcEend], completes i encoding = true) := by decide +kernel

theorem witness_ClearAndLoad : ready.faulted = false ∧ ready.dc.encAct = false ∧ ready.pg.ptV = true := by decide

theorem witness_WriteBit : State.reset.faulted = false ∧ State.reset.dc.encAct = false ∧ (1#32).toNat ≤ 1 ∧
    (State.reset.bw.content.length + 1) / 8 ≤ params.maxBuf := by decide

theorem witness_WriteBits : State.reset.faulted = false ∧ State.reset.dc.encAct = false ∧ (32#8).toNat ≤ 32 ∧
    (State.reset.bw.content.length + (32#8).toNat) / 8 ≤ params.maxBuf := by decide

theorem witness_Flush : (run [.bwWbit 1] State.reset).faulted = false ∧
    (run [.bwWbit 1] State.reset).dc.encAct = false ∧ (run [.bwWbit 1] State.reset).bw.buf.length < params.maxBuf ∧
    State.reset.bw.cnt.val = 0 := by decide

theorem witness_ReadBacks : ready.faulted = false := by decide

theorem witness_WriterReaderSymmetry :
    (writeMix params BW.clear [.bit true, .group 5 3, .group 0 0]).toOption = some ⟨0xD, 4, []⟩ ∧
    ((⟨0xD, 4, []⟩ : BW).flush params).toOption = some ⟨0, 0, [0xD0]⟩ := by decide

theorem witness_ReadBit :
    (run [.brLoad [0xA5]] State.reset).faulted = false ∧ brOk (run [.brLoad [0xA5]] State.reset).br = true ∧
    (run [.brLoad [0xA5]] State.reset).br.unread = true :: [false, true, false, false, true, false, true] ∧
    State.reset.br.unread = [] := by decide

theorem witness_ReadBits :
    (8#8).toNat ≤ (run [.brLoad [0xA5]] State.reset).br.unread.length ∧
    (run [.brLoad [0xA5]] State.reset).br.unread.length < (9#8).toNat ∧
    brOk (run [.brLoad [0xA5]] State.reset).br = true := by decide

/-- A text of one scalar stays within the counts, from an empty table. -/
theorem count_one (y x : Sym) : countIn [] x + [y].count x < 2 ^ params.weightW := by
  have := List.count_le_length (a := x) (l := [y])
  have : countIn [] x = 0 := rfl
  have : 2 ≤ 2 ^ params.weightW := by decide
  simp at *
  omega

theorem witness_CountChunk :
    State.reset.faulted = false ∧ State.reset.ft.done = false ∧ tableOk State.reset.ft.table = true ∧
    (∀ x ∈ [0x68#32], isScalar x = true) ∧ head [0xC3#8] = .incomplete ∧
    State.reset.ft.inc ++ [0x68#8, 0xC3#8] = textBytes [0x68] ++ [0xC3] ∧
    ∀ x, countIn State.reset.ft.table x + [0x68#32].count x < 2 ^ params.weightW :=
  ⟨by decide, by decide, by decide, List.all_eq_true.mp (by decide), by decide, by decide, count_one _⟩

theorem witness_TextFaults :
    (State.reset.faulted = false ∧ State.reset.ft.done = false ∧ tableOk State.reset.ft.table = true ∧
      (∀ y ∈ [0x61#32], isScalar y = true) ∧
      State.reset.ft.inc ++ [0x61#8, 0xC3#8, 0x41#8] = textBytes [0x61] ++ [0xC3, 0x41] ∧
      head [0xC3#8, 0x41#8] = .invalid ∧
      ∀ y, countIn State.reset.ft.table y + [0x61#32].count y < 2 ^ params.weightW) ∧
    (encoding.faulted = false ∧ encoding.dc.encAct = true ∧
      encoding.dc.inc ++ [0x61#8, 0x64#8] = textBytes [0x61] ++ [0x64] ∧
      (∀ y ∈ [0x61#32], (mapGet y encoding.pg.pt).isSome = true) ∧
      (encoding.bw.content.length + (encodedBits encoding.pg.pt [0x61]).length) / 8 ≤ params.maxBuf ∧
      head [0x64#8] = .complete 0x64 1 ∧ mapGet 0x64 encoding.pg.pt = none ∧
      encoding.dc.inc ++ [0x61#8, 0xFF#8] = textBytes [0x61] ++ [0xFF] ∧ head [0xFF#8] = .invalid) :=
  ⟨⟨by decide, by decide, by decide, List.all_eq_true.mp (by decide), by decide, by decide, count_one _⟩, by decide, by decide, by decide, List.all_eq_true.mp (by decide),
    by decide, by decide, by decide, by decide, by decide⟩

/-- A frequency table whose one count is the greatest. -/
def counted : State := { State.reset with ft := ⟨[(0x61, 2 ^ 64 - 1)], [], false⟩ }

/-- An open encode pass over a full WBUF. -/
def fullEncoding (cnt : Fin 8) : State :=
  { full cnt with pg := ⟨[(0x61, ⟨0, 1⟩)], true, [], false⟩, dc := ⟨[], true, 0, 0⟩ }

theorem fullEncoding_content (cnt : Fin 8) :
    (fullEncoding cnt).bw.content.length = 8 * params.maxBuf + cnt.val := by
  rw [content_length]
  exact congrArg (fun n => 8 * n + cnt.val) List.length_replicate

theorem witness_TextFaults_overflow :
    (counted.faulted = false ∧ counted.ft.done = false ∧ tableOk counted.ft.table = true ∧
      counted.ft.inc ++ [0x61#8] = textBytes [] ++ [0x61] ∧ head [0x61#8] = .complete 0x61 1 ∧
      (∀ y, countIn counted.ft.table y + [].count y < 2 ^ params.weightW) ∧
      countIn counted.ft.table 0x61 + [].count 0x61 = 2 ^ params.weightW - 1) ∧
    ((fullEncoding 7).faulted = false ∧ (fullEncoding 7).dc.encAct = true ∧
      (fullEncoding 7).dc.inc ++ [0x61#8] = textBytes [] ++ [0x61] ∧
      mapGet 0x61 (fullEncoding 7).pg.pt = some ⟨0, 1⟩ ∧
      ((fullEncoding 7).bw.content.length + (encodedBits (fullEncoding 7).pg.pt []).length) / 8 ≤ params.maxBuf ∧
      params.maxBuf <
        ((fullEncoding 7).bw.content.length + (encodedBits (fullEncoding 7).pg.pt []).length + 1) / 8) := by
  refine ⟨⟨rfl, rfl, by decide +kernel, rfl, by decide, fun y => ?_, by decide +kernel⟩, rfl, rfl, rfl, rfl, ?_, ?_⟩
  · simp only [countIn, counted, mapGet, List.count_nil]
    split <;> decide
  · rw [fullEncoding_content]; decide
  · rw [fullEncoding_content]; decide

theorem witness_EndCount : State.reset.faulted = false ∧ State.reset.ft.done = false ∧ State.reset.ft.inc = [] ∧
    (run [.ftUpd [0xC3]] State.reset).ft.inc ≠ [] ∧ (run [.ftUpd [0xC3]] State.reset).faulted = false := by decide

theorem witness_TableReads : ready.faulted = false ∧ ready.pg.ptV = true ∧
    countIn ready.ft.table 0x61 < 2 ^ params.weightW ∧ mapGet 0x61 ready.pg.pt = some ⟨3, 2⟩ ∧
    mapGet 0x7A ready.pg.pt = none := by decide +kernel

theorem witness_BuildTree : closed.faulted = false ∧ closed.ft.done = true ∧ closed.dc.encAct = false ∧
    tableOk closed.ft.table = true ∧ closed.ft.table ≠ [] ∧ totalCount closed.ft.table < 2 ^ params.weightW := by decide +kernel

/-- A queue of two leaves of a given weight. -/
def twoLeaves (w : Nat) : Build := ⟨[⟨.leaf 0x61 w, leafKey 0x61 w⟩, ⟨.leaf 0x62 w, leafKey 0x62 w⟩], 0, 2⟩

theorem witness_MergeTakesTwoLeast_sums :
    nodeWeight (.leaf 0x61 1) + nodeWeight (.leaf 0x62 1) < 2 ^ params.weightW ∧
    2 ^ params.weightW ≤ nodeWeight (.leaf 0x61 (2 ^ 63)) + nodeWeight (.leaf 0x62 (2 ^ 63)) := by decide

theorem witness_MergeTakesTwoLeast : ∀ w ∈ [1, 2 ^ 63], mqSorted (twoLeaves w).mq ∧ 2 ≤ (twoLeaves w).mq.length ∧
    (∀ e ∈ (twoLeaves w).mq, e.key.kind = 1 → e.key.tie < (twoLeaves w).seq.toNat) := by
  intro w _
  refine ⟨?_, Nat.le_refl 2, ?_⟩
  · simp [mqSorted, twoLeaves, leafKey, Key.lt]
  · simp [twoLeaves, leafKey]

/-- A closed pass over no text, and one whose counts reach 2^64 together. -/
def overflowing : State := { State.reset with ft := ⟨[(0x61, 2 ^ 64 - 1), (0x62, 1)], [], true⟩ }

theorem witness_BuildFaults :
    (run [.ftEnd] State.reset).faulted = false ∧ (run [.ftEnd] State.reset).ft.done = true ∧
    (run [.ftEnd] State.reset).dc.encAct = false ∧ (run [.ftEnd] State.reset).ft.table = [] ∧
    overflowing.faulted = false ∧ overflowing.ft.done = true ∧ overflowing.dc.encAct = false ∧
    tableOk overflowing.ft.table = true ∧ 2 ^ params.weightW ≤ totalCount overflowing.ft.table := by decide +kernel

/-- A left-deep chain of `k + 1` leaves: U+0041 + 0 deepest; every symbol the same when `step` is 0. -/
def chain (step : Nat) : Nat → Node
  | 0 => .leaf 0x41 0
  | k + 1 => .internal 0 (chain step k) (.leaf (BitVec.ofNat 32 (0x41 + step * (k + 1))) 0)

/-- Visits are clean when these checks say so. -/
theorem visitsClean_of {vs : List Visit}
    (h : (vs.all fun v => match v with | .node k => decide (k < 32) | .leaf _ => true) = true)
    (hn : (vs.filterMap Visit.symbol).Nodup) : visitsClean vs :=
  ⟨fun k hk => by simpa using List.all_eq_true.mp h _ hk, hn⟩

/-- A state whose tree is given. -/
def withTree (n : Node) : State := { State.reset with tb := ⟨some n, true, [], 0⟩ }

theorem witness_GenerateTable : (withTree (chain 1 32)).faulted = false ∧ (withTree (chain 1 32)).tb.treeV = true ∧
    (withTree (chain 1 32)).dc.encAct = false ∧ (withTree (chain 1 32)).tb.tree = some (chain 1 32) ∧
    depth (chain 1 32) ≤ 32 ∧ (symbols (chain 1 32)).Nodup := by decide +kernel

theorem witness_GenerateFaults :
    (∀ n ∈ [chain 1 33, chain 0 1, chain 0 33], (withTree n).faulted = false ∧ (withTree n).tb.treeV = true ∧
      (withTree n).dc.encAct = false ∧ (withTree n).tb.tree = some n) ∧
    (32 < depth (chain 1 33) ∧ (symbols (chain 1 33)).Nodup) ∧
    (depth (chain 0 1) ≤ 32 ∧ ¬ (symbols (chain 0 1)).Nodup) ∧
    (32 < depth (chain 0 33) ∧ ¬ (symbols (chain 0 33)).Nodup) := by decide +kernel

/-- A tree too deep on the right whose left subtree repeats a symbol. -/
def twins : Node := .internal 0 (chain 0 1) (chain 1 33)

theorem witness_GenerateFaults_order :
    (visits (chain 0 33) 0 = (List.range 32).map Visit.node ++ .node 32 :: (visits (chain 0 33) 0).drop 33 ∧
      visitsClean ((List.range 32).map Visit.node)) ∧
    (visits twins 0 = [.node 0, .node 1, .leaf 0x41] ++ .leaf 0x41 :: (visits twins 0).drop 4 ∧
      visitsClean [.node 0, .node 1, .leaf 0x41] ∧ Visit.leaf 0x41 ∈ [Visit.node 0, .node 1, .leaf 0x41] ∧
      32 < depth twins) :=
  ⟨⟨by decide +kernel, visitsClean_of (by decide +kernel) (by decide +kernel)⟩,
    by decide +kernel, visitsClean_of (by decide) (by decide), by decide, by decide +kernel⟩

theorem witness_TableLaws : (genTable (chain 1 32)).toOption.isSome = true ∧
    (genTable (.leaf 0x61 3)).toOption = some [(0x61, ⟨0, 1⟩)] ∧
    genTable sampleTree = .ok sampleTable := by decide +kernel

/-- The tables of the sample text belong to its tree. -/
theorem ready_tables : tablesOf sampleTree ready.pg := by
  unfold tablesOf
  decide +kernel

theorem ready_pgOk : pgOk ready.tb ready.pg :=
  ⟨fun _ => ⟨sampleTree, by decide +kernel, by decide +kernel⟩, fun _ => by decide +kernel⟩

/-- A table that gives two symbols the same code: no run reaches it. -/
def doubled : State := { State.reset with pg := ⟨[(0x61, ⟨0, 1⟩), (0x62, ⟨0, 1⟩)], true, [], false⟩ }

theorem witness_InvertTable : (ready.faulted = false ∧ ready.pg.ptV = true ∧ pgOk ready.tb ready.pg) ∧
    (doubled.faulted = false ∧ doubled.pg.ptV = true ∧ mapSorted symRank doubled.pg.pt = true ∧
      ∃ x y c, x ≠ y ∧ mapGet x doubled.pg.pt = some c ∧ mapGet y doubled.pg.pt = some c) :=
  ⟨⟨by decide +kernel, by decide +kernel, ready_pgOk⟩, by decide +kernel, by decide +kernel, by decide +kernel, 0x61, 0x62, ⟨0, 1⟩, by decide +kernel⟩

theorem witness_SerialiseHeader : built.faulted = false ∧ built.tb.treeV = true ∧ built.dc.encAct = false ∧
    built.tb.tree = some sampleTree ∧ (tokens sampleTree).length ≤ 8 * params.maxBuf := by decide +kernel

/-- A tree of 2^k leaves: at k = 30 its header does not fit in MAX_BUF bytes. -/
def fullTree : Nat → Node
  | 0 => .leaf 0x61 0
  | k + 1 => .internal 0 (fullTree k) (fullTree k)

theorem fullTree_leaves (k : Nat) : (leaves (fullTree k)).length = 2 ^ k := by
  induction k with
  | zero => rfl
  | succ k ih => rw [fullTree, leaves, List.length_append, ih, Nat.pow_succ]; omega

theorem withTree_ready (n : Node) : (withTree n).faulted = false ∧ (withTree n).tb.treeV = true ∧
    (withTree n).dc.encAct = false ∧ (withTree n).tb.tree = some n := ⟨rfl, rfl, rfl, rfl⟩

theorem witness_SerialiseHeader_overflow : ∃ n, (withTree n).faulted = false ∧ (withTree n).tb.treeV = true ∧
    (withTree n).dc.encAct = false ∧ (withTree n).tb.tree = some n ∧ 8 * params.maxBuf < (tokens n).length := by
  obtain ⟨h1, h2, h3, h4⟩ := withTree_ready (fullTree 30)
  refine ⟨fullTree 30, h1, h2, h3, h4, ?_⟩
  have h := tokens_length (fullTree 30)
  rw [fullTree_leaves] at h
  have : params.maxBuf = 4294967295 := rfl
  omega

theorem witness_DeserialiseHeader : State.reset.faulted = false ∧ State.reset.dc.encAct = false ∧
    sampleHeader.length ≤ params.maxBuf ∧ scalarLeaves sampleTree = true ∧
    bitsOfBytes sampleHeader = tokens sampleTree ++ [false, false, false] := by decide

theorem witness_HeaderFaults :
    (tokenList (.leaf 0x61 0) = [] ++ .leaf 0x61 :: [] ∧ scalarTokens [] ∧ ([] : List Bool) <+: itemBits (.leaf 0x61) ∧
      [] ≠ itemBits (.leaf 0x61) ∧ bitsOfBytes [] = [].flatMap itemBits ++ []) ∧
    (tokenList sampleTree = [.node] ++ .leaf 0x63 :: [.node, .leaf 0x62, .leaf 0x61] ∧ scalarTokens [.node] ∧
      (true :: List.replicate 6 false) <+: itemBits (.leaf 0x63) ∧
      (true :: List.replicate 6 false) ≠ itemBits (.leaf 0x63) ∧
      bitsOfBytes [0x40] = [.node].flatMap itemBits ++ true :: List.replicate 6 false) ∧
    (tokenList (.internal 0 (.leaf 0xDFFF 0) (.leaf 0x61 0)) = [.node] ++ .leaf 0xDFFF :: [.leaf 0x61] ∧
      isScalar 0xDFFF = false ∧ bitsOfBytes [0x40, 0, 0x37, 0xFF, 0xC0] =
        [.node].flatMap itemBits ++ (itemBits (.leaf 0xDFFF) ++ List.replicate 6 false)) ∧
    (run [.hcDes []] State.reset).faulted = true := by
  have h0 : scalarTokens [] := fun x hx => by cases hx
  have h1 : scalarTokens [.node] := fun x hx => by simp at hx
  exact ⟨⟨rfl, h0, by decide, by decide, rfl⟩, ⟨rfl, h1, by decide, by decide, by decide⟩,
    ⟨rfl, by decide, by decide⟩, rfl⟩

theorem witness_HeaderRoundTrip : built.faulted = false ∧ built.tb.tree = some sampleTree ∧
    scalarLeaves sampleTree = true ∧ completes .hcSer built = true ∧
    completes (.hcDes [0x80, 0, 0, 0x30, 0xFF]) State.reset = true := by decide +kernel

theorem witness_EncodeChunk : encoding.faulted = false ∧ encoding.dc.encAct = true ∧
    (∀ x ∈ [0x61#32, 0x63#32], isScalar x = true) ∧ head [0xC3#8] = .incomplete ∧
    encoding.dc.inc ++ [0x61#8, 0x63#8, 0xC3#8] = textBytes [0x61, 0x63] ++ [0xC3] ∧
    (∀ x ∈ [0x61#32, 0x63#32], (mapGet x encoding.pg.pt).isSome = true) ∧
    (encoding.bw.content.length + (encodedBits encoding.pg.pt [0x61, 0x63]).length) / 8 ≤ params.maxBuf :=
  ⟨by decide, by decide, List.all_eq_true.mp (by decide), by decide, by decide, List.all_eq_true.mp (by decide), by decide⟩

theorem witness_EndEncode : encoding.faulted = false ∧ encoding.dc.encAct = true ∧ encoding.dc.inc = [] ∧
    encoding.bw.content.length + 8 ≤ 8 * params.maxBuf ∧ (run [.dcEupd [0xC3]] encoding).dc.inc ≠ [] ∧
    (run [.dcEupd [0xC3]] encoding).faulted = false ∧ (run [.dcEupd [0xC3]] encoding).dc.encAct = true := by decide +kernel

theorem witness_EndEncode_overflow : (fullEncoding 0).faulted = false ∧ (fullEncoding 0).dc.encAct = true ∧
    (fullEncoding 0).dc.inc = [] ∧ 8 * params.maxBuf < (fullEncoding 0).bw.content.length + 8 := by
  refine ⟨rfl, rfl, rfl, ?_⟩
  rw [fullEncoding_content]
  decide

theorem witness_DecodePayload : ready.faulted = false ∧ ready.pg.iptV = true ∧ tablesOf sampleTree ready.pg ∧
    [0xFE#8, 0].length < params.maxBuf ∧ (∀ x ∈ [0x61#32, 0x61, 0x61, 0x62, 0x63, 0x63, 0x63, 0x63],
      (mapGet x ready.pg.pt).isSome = true) ∧
    decodedBits [0xFE, 0] 4 = encodedBits ready.pg.pt [0x61, 0x61, 0x61, 0x62, 0x63, 0x63, 0x63, 0x63] ∧
    decodedBits [0xFF] 8 = encodedBits ready.pg.pt [0x61, 0x61, 0x61, 0x61] ∧
    decodedBits [0xFF] 0 = encodedBits ready.pg.pt [0x61, 0x61, 0x61, 0x61] ∧
    decodedBits [] 8 = encodedBits ready.pg.pt [] ∧ (8#8).toNat ≤ 8 ∧
    (textBytes [0x61, 0x61, 0x61, 0x62, 0x63, 0x63, 0x63, 0x63]).length ≤ params.maxBuf :=
  ⟨by decide, by decide, ready_tables, by decide, List.all_eq_true.mp (by decide), by decide, by decide, by decide,
    by decide, by decide, by decide⟩

/-- The tables of a single-leaf tree. -/
def single : State := run [.hcDes [0x80, 0, 0, 0x30, 0x80], .pgGen, .pgInv] State.reset

theorem witness_DecodeFaults :
    (ready.faulted = false ∧ ready.pg.iptV = true ∧ 8 < (9#8).toNat ∧ [0xE4#8].length < params.maxBuf ∧
      (6#8).toNat ≤ 8 ∧ (textBytes [0x61, 0x62, 0x63]).length ≤ params.maxBuf) ∧
    (decodedBits [0xE4] 6 = encodedBits ready.pg.pt [0x61, 0x62, 0x63] ++ [true] ∧
      decodedBits [0x80] 1 = encodedBits ready.pg.pt [] ++ [true] ∧
      ((0x61#32 : Sym), [true] ++ [true]) ∈ codewords sampleTree) ∧
    (single.faulted = false ∧ single.pg.iptV = true ∧
      decodedBits [0xFF, 0xFF, 0xFF, 0xFF] 8 = encodedBits single.pg.pt [] ++ true :: List.replicate 31 true) := by
  decide

/-- A `1` and fewer than 31 more bits, none and 30 of them (vectors DS-4, DS-5). -/
theorem witness_DecodeFaults_single : decodedBits [0x80] 1 = encodedBits single.pg.pt [] ++ true :: [] ∧
    decodedBits [0x80, 0, 0, 0] 7 = encodedBits single.pg.pt [] ++ true :: List.replicate 30 false := by decide

theorem bitsOfBytes_zeros (n : Nat) : bitsOfBytes (List.replicate n 0) = List.replicate (8 * n) false := by
  induction n with
  | zero => rfl
  | succ n ih =>
    rw [List.replicate_succ, show 8 * (n + 1) = 8 + 8 * n by omega, List.replicate_add, ← ih]
    rfl

theorem single_text (n : Nat) : encodedBits single.pg.pt (List.replicate n 0x61) = List.replicate n false ∧
    textBytes (List.replicate n 0x61) = List.replicate n 0x61 := by
  have hp : single.pg.pt = [(0x61, ⟨0, 1⟩)] := by decide
  rw [hp]
  induction n with
  | zero => exact ⟨rfl, rfl⟩
  | succ n ih =>
    simp only [List.replicate_succ, encodedBits, textBytes, List.flatMap_cons] at ih ⊢
    rw [ih.1, ih.2]
    exact ⟨rfl, rfl⟩

theorem decodedBits_zeros (n : Nat) : decodedBits (List.replicate (n + 1) 0) 8 = List.replicate (8 * (n + 1)) false := by
  have : meaningfulBits (n + 1 + 1) 8 = 8 * (n + 1) := by simp [meaningfulBits]; omega
  simp only [decodedBits, List.length_replicate, bitsOfBytes_zeros]
  exact List.take_of_length_le (by rw [List.length_replicate]; exact Nat.le_of_eq this.symm)

/-- 2^32 zero bits under a single-symbol table: the text would have one byte more than MAX_BUF. -/
theorem witness_DecodeFaults_overflow : ∃ body t, List.length body < params.maxBuf ∧ (8#8).toNat ≤ 8 ∧
    (∀ x ∈ t, (mapGet x single.pg.pt).isSome = true) ∧ (textBytes t).length ≤ params.maxBuf ∧
    decodedBits body 8 = encodedBits single.pg.pt t ++ (codeBits ⟨0, 1⟩ ++ []) ∧
    mapGet 0x61 single.pg.pt = some ⟨0, 1⟩ ∧ params.maxBuf < (textBytes t).length + (utf8Enc 0x61).length := by
  have hm : params.maxBuf = 4294967295 := rfl
  obtain ⟨he, ht⟩ := single_text params.maxBuf
  refine ⟨List.replicate (536870911 + 1) 0, List.replicate params.maxBuf 0x61, ?_, by decide, fun x hx => ?_, ?_, ?_,
    by decide, ?_⟩
  · rw [List.length_replicate, hm]; decide
  · rw [(List.mem_replicate.mp hx).2]; decide
  · exact Nat.le_of_eq (by rw [ht, List.length_replicate])
  · rw [he, decodedBits_zeros, show 8 * (536870911 + 1) = params.maxBuf + 1 from rfl, List.replicate_succ']
    rfl
  · rw [ht, List.length_replicate]; exact Nat.lt_succ_self _

theorem witness_DecodeFaults_tables : tablesOf sampleTree ready.pg ∧ tablesOf (.leaf 0x61 0) single.pg ∧
    ∀ x ∈ [0x61#32, 0x62, 0x63], (mapGet x ready.pg.pt).isSome = true :=
  ⟨ready_tables, by unfold tablesOf; decide, List.all_eq_true.mp (by decide)⟩

theorem witness_DecodeOnlyCodewords : ready.faulted = false ∧ tablesOf sampleTree ready.pg ∧
    [0xFE#8, 0, 4].length ≤ params.maxBuf ∧ completes (.dcDec [0xFE, 0, 4]) ready = true := by
  unfold tablesOf
  decide +kernel

theorem witness_PayloadRoundTrip : ready.faulted = false ∧ ready.pg.iptV = true ∧ pgOk ready.tb ready.pg ∧
    (∀ x ∈ [0x61#32, 0x63#32], isScalar x = true) ∧ (∀ x ∈ [0x61#32, 0x63#32], (mapGet x ready.pg.pt).isSome = true) ∧
    [[0x61#8], [], [0x63#8]].flatten = textBytes [0x61, 0x63] ∧
    (textBytes [0x61, 0x63]).length ≤ params.maxBuf ∧
    ∃ t, runCommands (execDcEbeg :: ([[0x61#8], [], [0x63#8]].map execDcEupd ++ [execDcEend])) ready = .next t ∧
      t.faulted = false :=
  ⟨by decide, by decide, ready_pgOk, List.all_eq_true.mp (by decide), List.all_eq_true.mp (by decide), by decide, by decide,
    _, rfl, rfl⟩

theorem witness_BitStreamItems : State.reset.assertReset.resetIn = true ∧
    .codeword 5 0 ∈ [Instr.node, .leaf 0x61, .codeword 5 0, .ctrl 1] ∧ State.reset.resetIn = false ∧
    State.reset.faulted = false ∧
    (State.reset.bw.content.length + 1) / 8 ≤ params.maxBuf ∧ isScalar 0x10FFFF#32 = true ∧
    (State.reset.bw.content.length + 33) / 8 ≤ params.maxBuf ∧ isScalar 0x110000#32 = false ∧
    (32#8).toNat ≤ 32 ∧ (State.reset.bw.content.length + (32#8).toNat) / 8 ≤ params.maxBuf ∧ 32 < (33#8).toNat ∧
    (8#8).toNat ≤ 8 ∧ State.reset.bw.buf.length < params.maxBuf ∧ 8 < (9#8).toNat := by decide

theorem witness_RecordItems : sampleHeader.length ≤ params.maxBuf ∧ [0xFE#8, 0, 4].length ≤ params.maxBuf ∧
    State.reset.resetIn = false ∧ State.reset.assertReset.resetIn = true := by decide

theorem witness_CountText : State.reset.resetIn = false ∧ State.reset.faulted = false ∧ (∀ x ∈ [0x20AC#32], isScalar x = true) ∧
    ∀ x, [0x20AC#32].count x < 2 ^ params.weightW :=
  ⟨rfl, by decide, List.all_eq_true.mp (by decide), fun x => Nat.lt_of_le_of_lt (Nat.le_add_left _ _) (count_one _ x)⟩

/-- The second command of each expansion is the first to answer FAULT: InvalidUtf8, EmptyAlphabet, HeaderTruncated. -/
theorem witness_stopsAtFault :
    (countExpansion [0xFF] = [.ftClr] ++ .ftUpd [0xFF] :: [.ftEnd] ∧
      runsTo [.ftClr] State.reset (run [.ftClr] State.reset) ∧
      (run [.ftUpd [0xFF]] (run [.ftClr] State.reset)).flt = Cause.invalidUtf8.flt) ∧
    (encodeExpansion [] = [.sysReset, .ftClr, .ftEnd] ++ .tbBuild :: [.pgGen, .hcSer, .dcEbeg, .dcEend] ∧
      runsTo [.sysReset, .ftClr, .ftEnd] State.reset (run [.sysReset, .ftClr, .ftEnd] State.reset) ∧
      (run [.tbBuild] (run [.sysReset, .ftClr, .ftEnd] State.reset)).flt = Cause.emptyAlphabet.flt) ∧
    (unpack [0, 0, 0, 0, 0, 0, 0, 0] = .ok ([], []) ∧
      decodeExpansion [] [] = [.sysReset] ++ .hcDes [] :: [.pgGen, .pgInv, .dcDec []] ∧
      runsTo [.sysReset] State.reset (run [.sysReset] State.reset) ∧
      (run [.hcDes []] (run [.sysReset] State.reset)).flt = Cause.headerTruncated.flt) :=
  ⟨⟨rfl, ⟨_, rfl, rfl, rfl⟩, rfl⟩, ⟨rfl, ⟨_, rfl, rfl, _, rfl, rfl, _, rfl, rfl, rfl⟩, rfl⟩,
    rfl, rfl, ⟨_, rfl, rfl, rfl⟩, rfl⟩

theorem witness_EncodeText : State.reset.resetIn = false ∧ (∀ x ∈ [0x61#32, 0x61, 0x61, 0x62, 0x63, 0x63, 0x63, 0x63], isScalar x = true) ∧
    textTree [0x61, 0x61, 0x61, 0x62, 0x63, 0x63, 0x63, 0x63] = some sampleTree ∧
    genTable sampleTree = .ok sampleTable ∧ (tokens sampleTree).length ≤ 8 * params.maxBuf ∧
    (encodedBits sampleTable [0x61, 0x61, 0x61, 0x62, 0x63, 0x63, 0x63, 0x63]).length + 8 ≤ 8 * params.maxBuf :=
  ⟨rfl, List.all_eq_true.mp (by decide), by decide, by decide, by decide, by decide⟩

theorem witness_DecodeContainer :
    (State.reset.resetIn = false ∧ sampleHeader.length ≤ params.maxBuf ∧ [0xFE#8, 0].length < params.maxBuf ∧ scalarLeaves sampleTree = true ∧
      bitsOfBytes sampleHeader = tokens sampleTree ++ [false, false, false] ∧
      genTable sampleTree = .ok sampleTable ∧ (4#8).toNat ≤ 8 ∧
      (∀ y ∈ [0x61#32, 0x61, 0x61, 0x62, 0x63, 0x63, 0x63, 0x63], (mapGet y sampleTable).isSome = true) ∧
      decodedBits [0xFE, 0] 4 = encodedBits sampleTable [0x61, 0x61, 0x61, 0x62, 0x63, 0x63, 0x63, 0x63]) ∧
    unpack [0, 0, 0, 1] = .error .containerTruncated :=
  ⟨⟨rfl, by decide, by decide, by decide, by decide, by decide, by decide, List.all_eq_true.mp (by decide), by decide⟩,
    by decide⟩

theorem witness_WholeFlowRoundTrip : State.reset.resetIn = false ∧ (∀ x ∈ [0x61#32], isScalar x = true) ∧
    (textBytes [0x61]).length ≤ params.maxBuf ∧ completes (.cxEncode (textBytes [0x61])) State.reset = true :=
  ⟨rfl, List.all_eq_true.mp (by decide), by decide, by decide⟩

theorem witness_DecodeEncode : isCommand (.bwWbits 0xFF 0xFFFFFFFF) = true ∧ (Instr.bwWbits 0xFF 0xFFFFFFFF).wf = true ∧
    isCommand (.hcDes sampleHeader) = true ∧ (Instr.hcDes sampleHeader).wf = true ∧
    decode [0x13#8, 0, 0, 0, 0, 0, 9] = .ok (.bwFlush, [9]) := by decide

theorem witness_FormatRoundTrip : (Instr.leaf 0x10FFFF).wf = true ∧ (Instr.codeword 0xFFFFFFFF 32).wf = true ∧
    (Instr.codeword 0 1).wf = true ∧ (Instr.ctrl 8).wf = true ∧ encode (.ctrl 8) = [8] ∧
    (Instr.container sampleHeader []).wf = true ∧ (Instr.response 0xFF 0x444 []).wf = true := by decide

end Sys2Proof.Tests
end

section
/-! PROOF. The family of 10_state.md: every step keeps the invariant, the flag table, the frames, reset and STATUS. -/

namespace Sys2Proof.Proofs

open Sys2Proof Sys2Proof.Machine Sys2Proof.Config Sys2Proof.Safety

/-! ### Facts of the operations that the invariant and the frames share -/

/-- BR.NEXT answers without data and moves the reader at most by one NextBit (40_bitstream.md R131). -/
theorem brNext_eq (s : State) :
    ∃ st v r, brNext s = respond st v [] { s with br := r } ∧ (r = s.br ∨ ∃ b, s.br.nextBit = some (b, r)) := by
  unfold brNext
  cases h : s.br.nextBit with
  | none => exact ⟨_, _, s.br, rfl, .inl rfl⟩
  | some o => exact ⟨_, _, o.2, rfl, .inr ⟨o.1, rfl⟩⟩

/-- PG.RD only answers (43_prefix_table.md R197). -/
theorem pgRd_eq (v : Word) (s : State) : ∃ st a d, pgRd v s = respond st a d s := by
  unfold pgRd
  cases mapGet v s.pg.pt with
  | none => exact ⟨_, _, _, rfl⟩
  | some c => exact ⟨_, _, _, rfl⟩

theorem readBits_keeps {r r' : BR} {n : Nat} {out : List Byte} (h : r.readBits n = .ok (out, r')) :
    r'.buf = r.buf ∧ r'.len = r.len := by
  unfold BR.readBits at h
  split at h
  · cases h
  · split at h
    · cases h
    · rename_i hn; cases h; exact nextBits_keeps hn

/-- A chunk that DC.EUPD takes writes some bits and leaves an incomplete sequence (45_data_codec.md R233, R234). -/
theorem feed_encodeSym_ok {pt : List (Sym × Code)} {bs rest : List Byte} {w w' : BW}
    (h : feed (encodeSym params pt) bs.length bs w = .ok (w', rest)) :
    head rest = .incomplete ∧ ∃ bits, w.writeAll params bits = .ok w' := by
  obtain ⟨text, _, _, hrest, hfold⟩ := feed_ok _ h
  rw [encodeText params _ (encodeText_known hfold)] at hfold
  exact ⟨hrest, _, hfold⟩

theorem closePayload_prefix {w w' : BW} (h : closePayload params w = .ok w') : w.buf <+: w'.buf := by
  obtain ⟨w1, hflush, happend⟩ := bind_ok h
  exact (flush_prefix hflush).trans (append_prefix happend)

theorem append_bwOk {w w' : BW} {b : Byte} (hw : bwOk w = true) (h : w.append params b = .ok w') :
    bwOk w' = true := by
  rw [bwOk_iff] at hw ⊢
  refine ⟨?_, append_length h⟩
  rcases append_eq params w b with ⟨_, e⟩ | ⟨_, e⟩ <;> rw [e] at h <;> cases h
  exact hw.1

theorem closePayload_bwOk {w w' : BW} (hw : bwOk w = true) (h : closePayload params w = .ok w') :
    bwOk w' = true := by
  obtain ⟨w1, hflush, happend⟩ := bind_ok h
  exact append_bwOk (flush_bwOk hw hflush) happend

theorem clear_bwOk : bwOk BW.clear = true := by decide

theorem nextBit_brOk {r r' : BR} {b : Bool} (hr : brOk r = true) (h : r.nextBit = some (b, r')) :
    brOk r' = true := by
  rcases nextBit_cases hr with ⟨_, e⟩ | ⟨_, _, _, e, hk, _, _⟩ <;> rw [e] at h <;> cases h
  exact hk

theorem readBits_brOk {r r' : BR} {n : Nat} {out : List Byte} (hr : brOk r = true)
    (h : r.readBits n = .ok (out, r')) : brOk r' = true := by
  rcases readBits_spec hr n with ⟨_, e⟩ | ⟨_, _, e, _, hk, _, _⟩ <;> rw [e] at h <;> cases h
  exact hk

/-- A completed build of a good table leaves one root, whose leaves are the table's scalars (42_tree_builder.md R174). -/
theorem buildTree_root {t : List (Sym × Nat)} {b : Build} {root : Entry} {q : List Entry} (ht : tableOk t = true)
    (h : buildTree params t = .ok b) (hq : b.mq = root :: q) : q = [] ∧ scalarLeaves root.node = true := by
  have ht0 : t ≠ [] := by
    rintro rfl
    cases h
    cases hq
  obtain ⟨hsorted, hlen, hentries⟩ := (tableOk_iff t).mp ht
  obtain ⟨b', root', hbuild, hmq, hleaves, _, _, _⟩ :=
    buildTree_spec (mapSorted_nodup symRank hsorted) ht0 (by omega) (buildTree_total ht h)
  rw [h] at hbuild
  cases hbuild
  rw [hq] at hmq
  cases hmq
  exact ⟨rfl, (scalarLeaves_iff _).mpr fun e he => (hentries e (hleaves.mem_iff.mp he)).1⟩

/-! ### The units' invariants, one rule per unit that a command writes -/

/-- The units meet their invariants: what `Inv` says while no fault is recorded, but for the canonical form. -/
structure UnitsOk (s : State) : Prop where
  bw : bwOk s.bw = true
  br : brOk s.br = true
  ft : ftOk s.ft = true
  tb : tbOk s.tb = true
  pg : pgOk s.tb s.pg
  dc : dcOk s.pg s.dc = true

/-- Of the prefix tables the codec's invariant needs `PT_V` only, and only while a pass is open. -/
theorem dcOk_of_ptV {g g' : PG} {d : DC} (h : dcOk g d = true) (hv : d.encAct = true → g'.ptV = true) :
    dcOk g' d = true := by
  rw [dcOk_iff] at h ⊢
  obtain ⟨hinc, _, hrest⟩ := h
  exact ⟨hinc, hv, hrest⟩

section
variable {s : State} (h : UnitsOk s)
include h

theorem UnitsOk.respond (st : Byte) (v : Word) (d : List Byte) : UnitsOk (respond st v d s) :=
  ⟨h.bw, h.br, h.ft, h.tb, h.pg, h.dc⟩

theorem UnitsOk.answer (v : Word) (d : List Byte) : UnitsOk (answer v d s) := h.respond _ v d

theorem UnitsOk.setWriter {w : BW} (hw : bwOk w = true) : UnitsOk { s with bw := w } :=
  ⟨hw, h.br, h.ft, h.tb, h.pg, h.dc⟩

theorem UnitsOk.setReader {r : BR} (hr : brOk r = true) : UnitsOk { s with br := r } :=
  ⟨h.bw, hr, h.ft, h.tb, h.pg, h.dc⟩

theorem UnitsOk.setFrequency (f : FT) (hf : ftOk f = true) : UnitsOk { s with ft := f } :=
  ⟨h.bw, h.br, hf, h.tb, h.pg, h.dc⟩

theorem UnitsOk.setCodec (d : DC) (hd : dcOk s.pg d = true) : UnitsOk { s with dc := d } :=
  ⟨h.bw, h.br, h.ft, h.tb, h.pg, hd⟩

theorem UnitsOk.setTables (g : PG) (hg : pgOk s.tb g) (hv : s.dc.encAct = true → g.ptV = true) :
    UnitsOk { s with pg := g } :=
  ⟨h.bw, h.br, h.ft, h.tb, hg, dcOk_of_ptV h.dc hv⟩

/-- A new tree makes the tables of the old one invalid; no encode pass may be open (60_exceptions.md R288). -/
theorem UnitsOk.setTree (t : TB) (ht : tbOk t = true) (he : s.dc.encAct = false) :
    UnitsOk { s with tb := t, pg := { s.pg with ptV := false, iptV := false } } :=
  ⟨h.bw, h.br, h.ft, ht, ⟨nofun, nofun⟩, dcOk_of_ptV h.dc (by simp [he])⟩

end

/-- The tree unit's invariant for a tree that is there, the merge queue empty. -/
theorem tbOk_of_tree {t : TB} {n : Node} (htree : t.tree = some n) (hv : t.treeV = true) (hmq : t.mq = [])
    (hn : scalarLeaves n = true) : tbOk t = true := by
  rw [tbOk_iff, htree]
  exact ⟨hv, hmq, fun _ e => by cases e; exact hn⟩

/-- A command in sequence that completes keeps every unit's invariant. -/
theorem ownPart_unitsOk {i : Instr} {s t : State} (hi : isCommand i = true) (hwf : i.wf = true)
    (hp : precondition s i = true) (h : UnitsOk s) (ho : ownPart s i = .ok t) : UnitsOk t := by
  obtain ⟨hinc, hopen, hclosed, hcode, hlen⟩ := (dcOk_iff _ _).mp h.dc
  cases i with
  | node | leaf | codeword | ctrl | container | response | ftCount | cxEncode | cxDecode => cases hi
  | sysReset | sysStat => cases ho; exact h
  | bwPos | bwRdbuf | brPos | ftRd => cases ho; exact h.answer _ _
  | pgRd v => cases ho; obtain ⟨_, _, _, e⟩ := pgRd_eq v s; rw [e]; exact h.respond _ _ _
  | bwClr => cases ho; exact (h.setWriter clear_bwOk).answer _ _
  | bwWbit v =>
    obtain ⟨w, hw, rfl⟩ := withWriter_ok ho
    obtain ⟨_, _, hw⟩ := bind_ok hw
    exact (h.setWriter (writeBit_bwOk h.bw hw)).answer _ _
  | bwWbits n v =>
    obtain ⟨w, hw, rfl⟩ := withWriter_ok ho
    obtain ⟨_, _, hw⟩ := bind_ok hw
    exact (h.setWriter (writeAll_bwOk h.bw hw)).answer _ _
  | bwFlush =>
    obtain ⟨w, hw, rfl⟩ := withWriter_ok ho
    exact (h.setWriter (flush_bwOk h.bw hw)).answer _ _
  | brLoad d => cases ho; exact (h.setReader (load_brOk d (of_decide_eq_true hwf))).answer _ _
  | brNext =>
    cases ho
    obtain ⟨st, v, r, e, hr⟩ := brNext_eq s
    rw [e]
    refine (h.setReader ?_).respond _ _ _
    rcases hr with rfl | ⟨b, hn⟩
    · exact h.br
    · exact nextBit_brOk h.br hn
  | brRbits n =>
    obtain ⟨out, r, hr, rfl⟩ := brRbits_ok ho
    exact (h.setReader (readBits_brOk h.br hr)).answer _ _
  | ftClr => cases ho; exact (h.setFrequency ⟨[], [], false⟩ (by decide)).answer _ _
  | ftUpd d =>
    obtain ⟨table, rest, hfeed, rfl⟩ := ftUpd_ok ho
    obtain ⟨text, hscalar, _, hrest, hcount⟩ := feed_ok _ hfeed
    obtain ⟨htable, _, _⟩ := (ftOk_iff _).mp h.ft
    have hdone : s.ft.done = false := by simpa [precondition] using hp
    exact (h.setFrequency { s.ft with table := table, inc := rest }
      ((ftOk_iff _).mpr ⟨countText_keeps htable hscalar hcount, hrest, by simp [hdone]⟩)).answer _ _
  | ftEnd =>
    obtain ⟨hempty, rfl⟩ := ftEnd_ok ho
    obtain ⟨htable, hhead, _⟩ := (ftOk_iff _).mp h.ft
    exact (h.setFrequency { s.ft with done := true }
      ((ftOk_iff _).mpr ⟨htable, hhead, fun _ => hempty⟩)).answer _ _
  | tbBuild =>
    obtain ⟨b, root, q, hbuild, hq, rfl⟩ := tbBuild_ok ho
    obtain ⟨rfl, hroot⟩ := buildTree_root ((ftOk_iff _).mp h.ft).1 hbuild hq
    obtain ⟨_, he⟩ : s.ft.done = true ∧ s.dc.encAct = false := by simpa [precondition] using hp
    exact (h.setTree ⟨some root.node, true, [], b.seq⟩ (tbOk_of_tree rfl rfl rfl hroot) he).answer _ _
  | pgGen =>
    obtain ⟨n, m, htree, hgen, rfl⟩ := pgGen_ok ho
    exact (h.setTables { s.pg with pt := m, ptV := true, iptV := false }
      ⟨fun _ => ⟨n, htree, hgen⟩, nofun⟩ fun _ => rfl).answer _ _
  | pgInv =>
    obtain ⟨inv, hinv, rfl⟩ := pgInv_ok ho
    obtain ⟨hgen, _⟩ := h.pg
    exact (h.setTables { s.pg with ipt := inv, iptV := true } ⟨hgen, fun _ => ⟨hp, hinv⟩⟩ fun _ => hp).answer _ _
  | hcSer =>
    obtain ⟨n, w, _, hw, rfl⟩ := hcSer_ok ho
    obtain ⟨w1, hwrite, hflush⟩ := bind_ok hw
    exact (h.setWriter (flush_bwOk (writeAll_bwOk clear_bwOk hwrite) hflush)).answer _ _
  | hcDes d =>
    obtain ⟨n, r, hdes, rfl⟩ := hcDes_ok ho
    obtain ⟨_, hscalar, _, hr, _⟩ := desHeader_ok (of_decide_eq_true hwf) hdes
    obtain ⟨_, hmq, _⟩ := (tbOk_iff _).mp h.tb
    have he : s.dc.encAct = false := by simpa [precondition] using hp
    exact ((h.setReader hr).setTree { s.tb with tree := some n, treeV := true }
      (tbOk_of_tree rfl rfl hmq hscalar) he).answer _ _
  | dcEbeg =>
    cases ho
    obtain ⟨hv, _⟩ : s.pg.ptV = true ∧ s.dc.encAct = false := by simpa [precondition] using hp
    exact ((h.setWriter clear_bwOk).setCodec { s.dc with inc := [], encAct := true }
      ((dcOk_iff _ _).mpr ⟨rfl, fun _ => hv, nofun, hcode, hlen⟩)).answer _ _
  | dcEupd d =>
    obtain ⟨w, rest, hfeed, rfl⟩ := dcEupd_ok ho
    obtain ⟨hrest, bits, hw⟩ := feed_encodeSym_ok hfeed
    have hact : s.dc.encAct = true := hp
    exact ((h.setWriter (writeAll_bwOk h.bw hw)).setCodec { s.dc with inc := rest }
      ((dcOk_iff _ _).mpr ⟨hrest, hopen, by simp [hact], hcode, hlen⟩)).answer _ _
  | dcEend =>
    obtain ⟨w, hempty, hw, rfl⟩ := dcEend_ok ho
    exact ((h.setWriter (closePayload_bwOk h.bw hw)).setCodec { s.dc with encAct := false }
      ((dcOk_iff _ _).mpr ⟨hinc, nofun, fun _ => hempty, hcode, hlen⟩)).answer _ _
  | dcDec d =>
    obtain ⟨out, r, hdec, rfl⟩ := dcDec_ok ho
    obtain ⟨hr, _⟩ := decodePayload_reader (of_decide_eq_true hwf) hdec
    exact ((h.setReader hr).setCodec { s.dc with daccCode := 0, daccLen := 0 }
      ((dcOk_iff _ _).mpr ⟨hinc, hopen, hclosed, rfl, rfl⟩)).answer _ _

/-! ### The invariant under the shared operations -/

theorem unitsOk_reset : UnitsOk State.reset :=
  ⟨by decide, by decide, by decide, by decide, ⟨nofun, nofun⟩, by decide⟩

/-- The reset values meet the invariant, whatever waits on the command stream and whether or not the input is
asserted (10_state.md R39, 70_reset_and_hazards.md R320). -/
theorem inv_reset (s : State) (bytes : List Byte) (asserted : Bool) :
    Inv { resetBlock s with cmdIn := bytes, resetIn := asserted } where
  flt := (by decide : fltLegal State.reset.flt = true)
  held _ := atReset_resetBlock s
  mem _ := wf_reset
  bw _ := unitsOk_reset.bw
  br _ := unitsOk_reset.br
  ft _ := unitsOk_reset.ft
  tb _ := unitsOk_reset.tb
  pg _ := unitsOk_reset.pg
  dc _ := unitsOk_reset.dc

/-- The invariant is about the block: the interface streams are no part of it (10_state.md R38). -/
theorem inv_setStreams {s : State} (h : Inv s) (bytes : List Byte) (resps : List Response) :
    Inv { s with cmdIn := bytes, resps := resps } :=
  ⟨h.flt, h.held, h.mem, h.bw, h.br, h.ft, h.tb, h.pg, h.dc⟩

theorem fltLegal_of_cause {c : Cause} (hc : c ∈ blockCauses) : fltLegal c.flt = true := by
  simp only [fltLegal, Bool.or_eq_true, List.any_eq_true, decide_eq_true_eq]
  exact .inr ⟨c, hc, rfl⟩

/-- With a fault recorded the invariant asks for a legal FLT only (10_state.md R40). -/
theorem inv_of_faulted {s : State} (hf : s.faulted = true) (hr : s.resetIn = false) (hflt : fltLegal s.flt = true) :
    Inv s := by
  have unclaimed : ∀ {P : Prop}, s.faulted = false → P := fun e => by rw [hf] at e; cases e
  exact ⟨hflt, by simp [hr], unclaimed, unclaimed, unclaimed, unclaimed, unclaimed, unclaimed, unclaimed⟩

theorem inv_raise {s : State} {c : Cause} (hr : s.resetIn = false) (hc : c ∈ blockCauses) : Inv (raise c s) :=
  inv_of_faulted (raise_faulted c s) hr (fltLegal_of_cause hc)

theorem unitsOk_of_inv {s : State} (h : Inv s) (hf : s.faulted = false) : UnitsOk s :=
  ⟨h.bw hf, h.br hf, h.ft hf, h.tb hf, h.pg hf, h.dc hf⟩

theorem inv_of_units {s : State} (hr : s.resetIn = false) (hflt : fltLegal s.flt = true) (hwf : Memory.wf s = true)
    (h : UnitsOk s) : Inv s :=
  ⟨hflt, by simp [hr], fun _ => hwf, fun _ => h.bw, fun _ => h.br, fun _ => h.ft, fun _ => h.tb, fun _ => h.pg,
    fun _ => h.dc⟩

/-- A well-formed command keeps the invariant, whether it is refused, faults or completes. -/
theorem exec_keeps_inv {i : Instr} {s t : State} (hi : isCommand i = true) (hwf : i.wf = true)
    (hr : s.resetIn = false) (h : Inv s) (he : exec i s = .next t) : Inv t := by
  by_cases h1 : i = .sysReset
  · subst h1; cases he; exact inv_setStreams (inv_reset s s.cmdIn s.resetIn) _ _
  by_cases h2 : i = .sysStat
  · subst h2; cases he; exact inv_setStreams h _ _
  rw [exec_command hi h1 h2] at he
  cases he
  rcases command_cases (precondition s i) (ownPart s i) s with
    ⟨_, e⟩ | ⟨_, _, e⟩ | ⟨c, _, _, ho, e⟩ | ⟨t, hf, hp, ho, e⟩ <;> rw [e]
  · exact inv_setStreams h _ _
  · exact inv_raise hr (by decide)
  · exact inv_raise hr (ownPart_error ho).1
  · obtain ⟨r, hdone, _⟩ := ownPart_completed hi h1 h2 ho
    exact inv_of_units (hdone.resetIn.trans hr) (hdone.flt ▸ h.flt) (ownPart_wf hi hwf (h.mem hf) ho)
      (ownPart_unitsOk hi hwf hp (unitsOk_of_inv h hf) ho)

/-- Settles O3: by cases on what a step can do (`step_cases`), every command by `exec_keeps_inv`. -/
theorem stepKeepsInv : Obligations.StepKeepsInv := by
  intro s t h hst
  rcases step_cases s with ⟨_, e⟩ | e | ⟨w, d, rest, hr, htake, hcases⟩
  · rw [e] at hst; cases hst; exact inv_reset s s.cmdIn s.resetIn
  · rw [e] at hst; cases hst; exact h
  have htook : Inv (s.took rest) := inv_setStreams h rest s.resps
  have hrtook : (s.took rest).resetIn = false := hr
  rcases hcases with ⟨i, hi, hd, _, e⟩ | ⟨_, _, e⟩ | ⟨_, _, e⟩ | ⟨_, e⟩ | ⟨_, e⟩ | ⟨_, e⟩ <;> rw [e] at hst
  · exact exec_keeps_inv hi (decodeWord_wf htake hd) hrtook htook hst
  · exact exec_keeps_inv rfl rfl hrtook htook hst
  · exact exec_keeps_inv rfl rfl hrtook htook hst
  · cases hst; exact inv_setStreams htook _ _
  · cases hst; exact inv_raise hr (by decide)
  · cases hst; exact inv_raise hr (by decide)

/-! ### The flag table (10_state.md R25) and the frames (10_state.md R42) -/

/-- Settles O14: each command's completed part writes the flags its column of the table names and no other. -/
theorem flagTable : Obligations.FlagTable := by
  intro i s t hi hf he ht
  by_cases h1 : i = .sysReset
  · subst h1; cases he; exact ⟨rfl, rfl, rfl, rfl, rfl⟩
  by_cases h2 : i = .sysStat
  · subst h2; cases he; exact ⟨rfl, rfl, rfl, rfl, rfl⟩
  obtain ⟨_, _, ho⟩ := exec_completed hi h1 h2 he ht
  cases i with
  | sysReset => exact absurd rfl h1
  | sysStat => exact absurd rfl h2
  | node | leaf | codeword | ctrl | container | response | ftCount | cxEncode | cxDecode => cases hi
  | bwClr | bwPos | bwRdbuf | brLoad | brPos | ftClr | ftRd | dcEbeg => cases ho; exact ⟨rfl, rfl, rfl, rfl, rfl⟩
  | bwWbit | bwWbits | bwFlush => obtain ⟨_, _, rfl⟩ := withWriter_ok ho; exact ⟨rfl, rfl, rfl, rfl, rfl⟩
  | brNext => cases ho; obtain ⟨_, _, _, e, _⟩ := brNext_eq s; rw [e]; exact ⟨rfl, rfl, rfl, rfl, rfl⟩
  | pgRd v => cases ho; obtain ⟨_, _, _, e⟩ := pgRd_eq v s; rw [e]; exact ⟨rfl, rfl, rfl, rfl, rfl⟩
  | brRbits => obtain ⟨_, _, _, rfl⟩ := brRbits_ok ho; exact ⟨rfl, rfl, rfl, rfl, rfl⟩
  | ftUpd => obtain ⟨_, _, _, rfl⟩ := ftUpd_ok ho; exact ⟨rfl, rfl, rfl, rfl, rfl⟩
  | ftEnd => obtain ⟨_, rfl⟩ := ftEnd_ok ho; exact ⟨rfl, rfl, rfl, rfl, rfl⟩
  | tbBuild => obtain ⟨_, _, _, _, _, rfl⟩ := tbBuild_ok ho; exact ⟨rfl, rfl, rfl, rfl, rfl⟩
  | pgGen => obtain ⟨_, _, _, _, rfl⟩ := pgGen_ok ho; exact ⟨rfl, rfl, rfl, rfl, rfl⟩
  | pgInv => obtain ⟨_, _, rfl⟩ := pgInv_ok ho; exact ⟨rfl, rfl, rfl, rfl, rfl⟩
  | hcSer => obtain ⟨_, _, _, _, rfl⟩ := hcSer_ok ho; exact ⟨rfl, rfl, rfl, rfl, rfl⟩
  | hcDes => obtain ⟨_, _, _, rfl⟩ := hcDes_ok ho; exact ⟨rfl, rfl, rfl, rfl, rfl⟩
  | dcEupd => obtain ⟨_, _, _, rfl⟩ := dcEupd_ok ho; exact ⟨rfl, rfl, rfl, rfl, rfl⟩
  | dcEend => obtain ⟨_, _, _, rfl⟩ := dcEend_ok ho; exact ⟨rfl, rfl, rfl, rfl, rfl⟩
  | dcDec => obtain ⟨_, _, _, rfl⟩ := dcDec_ok ho; exact ⟨rfl, rfl, rfl, rfl, rfl⟩

/-- The state after a command that completes is its own part's. -/
theorem ownPart_of_exec {i : Instr} {s t : State} (he : exec i s = .next t) (ht : t.faulted = false)
    (hi : isCommand i = true := by rfl) (h1 : i ≠ .sysReset := by nofun) (h2 : i ≠ .sysStat := by nofun) :
    ownPart s i = .ok t := by
  obtain ⟨_, _, ho⟩ := exec_completed hi h1 h2 he ht
  exact ho

/-- Settles O16: the completed writer commands, and that writes and the flush only append. -/
theorem frameWriter : Obligations.FrameWriter := by
  intro s t n v i hi he ht
  simp only [List.mem_cons, List.not_mem_nil, or_false] at hi
  rcases hi with rfl | rfl | rfl | rfl <;> have ho := ownPart_of_exec he ht
  · cases ho; exact ⟨rfl, fun h => absurd rfl h⟩
  · obtain ⟨w, hw, rfl⟩ := withWriter_ok ho
    obtain ⟨_, _, hw⟩ := bind_ok hw
    exact ⟨rfl, fun _ => writeBit_prefix hw⟩
  · obtain ⟨w, hw, rfl⟩ := withWriter_ok ho
    obtain ⟨_, _, hw⟩ := bind_ok hw
    exact ⟨rfl, fun _ => writeAll_prefix hw⟩
  · obtain ⟨w, hw, rfl⟩ := withWriter_ok ho
    exact ⟨rfl, fun _ => flush_prefix hw⟩

/-- Settles O18: the completed frequency commands. -/
theorem frameFrequency : Obligations.FrameFrequency := by
  intro s t d i hi he ht
  simp only [List.mem_cons, List.not_mem_nil, or_false] at hi
  rcases hi with rfl | rfl | rfl <;> have ho := ownPart_of_exec he ht
  · cases ho; exact ⟨rfl, nofun, nofun⟩
  · obtain ⟨_, _, _, rfl⟩ := ftUpd_ok ho
    exact ⟨rfl, fun _ => rfl, nofun⟩
  · obtain ⟨_, rfl⟩ := ftEnd_ok ho
    exact ⟨rfl, nofun, fun _ => ⟨rfl, rfl⟩⟩

/-- Settles O19: the completed parts of TB.BUILD, PG.GEN and PG.INV, one inversion lemma each. -/
theorem frameTree : Obligations.FrameTree := by
  intro s t ht
  refine ⟨fun he => ?_, fun he => ?_, fun he => ?_⟩ <;> have ho := ownPart_of_exec he ht
  · obtain ⟨_, _, _, _, _, rfl⟩ := tbBuild_ok ho; rfl
  · obtain ⟨_, _, _, _, rfl⟩ := pgGen_ok ho; rfl
  · obtain ⟨_, _, rfl⟩ := pgInv_ok ho; rfl

/-- Settles O20: the completed codec commands; what DC.EUPD and DC.EEND write is appended to WBUF. -/
theorem frameCodecs : Obligations.FrameCodecs := by
  intro s t d ht
  refine ⟨fun he => ?_, fun he => ?_, fun he => ?_, fun he => ?_, fun he => ?_, fun he => ?_⟩ <;>
    have ho := ownPart_of_exec he ht
  · obtain ⟨_, _, _, _, rfl⟩ := hcSer_ok ho; rfl
  · obtain ⟨_, _, _, rfl⟩ := hcDes_ok ho; rfl
  · cases ho; rfl
  · obtain ⟨w, rest, hfeed, rfl⟩ := dcEupd_ok ho
    obtain ⟨_, bits, hw⟩ := feed_encodeSym_ok hfeed
    exact ⟨rfl, writeAll_prefix hw⟩
  · obtain ⟨w, _, hw, rfl⟩ := dcEend_ok ho
    exact ⟨rfl, closePayload_prefix hw⟩
  · obtain ⟨_, _, _, rfl⟩ := dcDec_ok ho; rfl

/-- A command that leaves the faulted condition as it was has been refused or has completed. -/
theorem exec_same_faulted {i : Instr} {s t : State} (hi : isCommand i = true) (h1 : i ≠ .sysReset) (h2 : i ≠ .sysStat)
    (he : exec i s = .next t) (ht : t.faulted = s.faulted) : t = refuse s ∨ ownPart s i = .ok t := by
  rw [exec_command hi h1 h2] at he
  cases he
  cases hf : s.faulted with
  | true => exact .inl (command_of_faulted hf)
  | false =>
    obtain ⟨_, _, ho⟩ := command_completed (ht.trans hf)
    exact .inr ho

/-- Settles O15: refused, these commands only answer, and so do their own parts. -/
theorem frameReadOnly : Obligations.FrameReadOnly := by
  intro s t v i hi he ht
  simp only [List.mem_cons, List.not_mem_nil, or_false] at hi
  by_cases h2 : i = .sysStat
  · subst h2; cases he; rfl
  obtain ⟨hcommand, h1⟩ : isCommand i = true ∧ i ≠ .sysReset := by
    rcases hi with rfl | rfl | rfl | rfl | rfl | rfl <;> exact ⟨rfl, nofun⟩
  rcases exec_same_faulted hcommand h1 h2 he ht with rfl | ho
  · rfl
  rcases hi with rfl | rfl | rfl | rfl | rfl | rfl
  · exact absurd rfl h2
  · cases ho; rfl
  · cases ho; rfl
  · cases ho; rfl
  · cases ho; rfl
  · cases ho; obtain ⟨_, _, _, e⟩ := pgRd_eq v s; rw [e]; rfl

/-- Settles O17: the completed reader commands; reading keeps the buffer and its length. -/
theorem frameReader : Obligations.FrameReader := by
  intro s t n d i hi he ht
  simp only [List.mem_cons, List.not_mem_nil, or_false] at hi
  rcases hi with rfl | rfl | rfl <;> have ho := ownPart_of_exec he ht
  · cases ho; exact ⟨rfl, fun h => absurd rfl h⟩
  · cases ho
    obtain ⟨_, _, r, e, hr⟩ := brNext_eq s
    rw [e]
    refine ⟨rfl, fun _ => ?_⟩
    rcases hr with rfl | ⟨_, hn⟩
    · exact ⟨rfl, rfl⟩
    · exact nextBit_keeps hn
  · obtain ⟨_, _, hr, rfl⟩ := brRbits_ok ho
    exact ⟨rfl, fun _ => readBits_keeps hr⟩

/-! ### Reset and STATUS -/

/-- Settles O1: every way into reset goes through `resetBlock`. -/
theorem resetValues : Obligations.ResetValues :=
  ⟨atReset_resetBlock State.reset, fun s => ⟨_, rfl, atReset_resetBlock s, rfl⟩,
    fun s => ⟨atReset_hardReset s, rfl, rfl⟩,
    fun s h => ⟨_, step_reset h, atReset_resetBlock s, h, rfl⟩,
    fun s => ⟨atReset_resetBlock s, rfl, rfl⟩⟩

/-- Settles O2: the reset input leaves the reset values (`inv_reset`), the rest touches the interface streams only. -/
theorem resetMeetsInv : Obligations.ResetMeetsInv := by
  refine ⟨inv_reset State.reset [] false, fun s h => ⟨inv_reset s _ true, inv_reset s s.cmdIn false,
    fun bytes => inv_setStreams h (s.cmdIn ++ bytes) s.resps, fun r t ht => ?_⟩⟩
  unfold State.takeResponse at ht
  cases hq : s.resps with
  | nil => rw [hq] at ht; cases ht
  | cons r' rest => rw [hq] at ht; cases ht; exact inv_setStreams h s.cmdIn rest

/-- The word of SYS.STAT is taken whatever its fields are: no data is attached to it. -/
theorem takeCommand_sysStat (n a b c d : Byte) (rest : List Byte) :
    takeCommand (0x02#8 :: n :: a :: b :: c :: d :: rest) = some (⟨0x02#8, n, word32 a b c d⟩, [], rest) := by
  have hlen : CmdWord.dataLength ⟨0x02#8, n, word32 a b c d⟩ = 0 := by
    rw [dataLength_of_ofByte (Op.ofByte_code .sysStat)]; rfl
  simp [takeCommand, takeWord_cons, hlen]

/-- The flag bits of STATUS, 0 to 5 (10_state.md R26). -/
theorem statusWord_flagBits (s : State) :
    (statusWord s).getLsbD 0 = s.ft.done ∧ (statusWord s).getLsbD 1 = s.tb.treeV ∧
      (statusWord s).getLsbD 2 = s.pg.ptV ∧ (statusWord s).getLsbD 3 = s.pg.iptV ∧
      (statusWord s).getLsbD 4 = s.dc.encAct ∧ (statusWord s).getLsbD 5 = s.faulted := by
  unfold statusWord
  simp only [BitVec.getLsbD_append, BitVec.getLsbD_ofBool]
  simp

/-- STATUS is kind, cause and six flag bits, with nothing above bit 19 or in bits 7:6 (10_state.md R26). -/
theorem statusWord_parts (s : State) :
    ∃ flags < 64, (statusWord s).toNat = s.flt.kind.toNat * 65536 + s.flt.cause.toNat * 256 + flags := by
  have hbit : ∀ b : Bool, b.toNat ≤ 1 := Bool.toNat_le
  have := hbit s.faulted
  have := hbit s.dc.encAct
  have := hbit s.pg.iptV
  have := hbit s.pg.ptV
  have := hbit s.tb.treeV
  have := hbit s.ft.done
  rw [statusWord_toNat]
  exact ⟨s.faulted.toNat * 32 + s.dc.encAct.toNat * 16 + s.pg.iptV.toNat * 8 + s.pg.ptV.toNat * 4 +
    s.tb.treeV.toNat * 2 + s.ft.done.toNat, by omega, by omega⟩

/-- The fields of STATUS above the flag bits (10_state.md R26). -/
theorem statusWord_fields (s : State) :
    (statusWord s).extractLsb' 6 2 = 0 ∧ (statusWord s).extractLsb' 8 8 = s.flt.cause ∧
      (statusWord s).extractLsb' 16 4 = s.flt.kind ∧ (statusWord s).extractLsb' 20 12 = 0 := by
  obtain ⟨flags, hflags, hparts⟩ := statusWord_parts s
  have hkind := s.flt.kind.isLt
  have hcause := s.flt.cause.isLt
  refine ⟨?_, ?_, ?_, ?_⟩ <;> apply BitVec.eq_of_toNat_eq <;> rw [toNat_extract, hparts]
  · show _ = 0; omega
  · omega
  · omega
  · show _ = 0; omega

/-- Settles O12: SYS.STAT skips the shared checks, and its answer is `statusWord`, whose fields stand above. -/
theorem statusRegister : Obligations.StatusRegister := by
  refine ⟨fun s => rfl, fun s => ?_, by decide, fun s n a b c d rest hr hf hc => ?_⟩
  · obtain ⟨hdone, htreeV, hptV, hiptV, hencAct, hfaulted⟩ := statusWord_flagBits s
    exact ⟨fun _ => ⟨hdone, htreeV, hptV, hiptV, hencAct⟩, hfaulted, statusWord_fields s⟩
  · rw [step_take hr (hc ▸ takeCommand_sysStat n a b c d rest)]
    rcases admission_faulted ⟨0x02#8, n, word32 a b c d⟩ [] (s := s.took rest) hf with ⟨h, _⟩ | ⟨_, e⟩ | ⟨_, h, _⟩
    · exact absurd h (by simp)
    · rw [e]; rfl
    · exact absurd rfl h

end Sys2Proof.Proofs
end

section
/-! PROOF. The family of 20_memory.md: the bit stream between a writer and a reader, and the command stream. -/

namespace Sys2Proof.Proofs

open Sys2Proof Sys2Proof.Machine Sys2Proof.Config Sys2Proof.Safety

/-! ### From a writer to a reader -/

/-- The padding of a flush is what is missing to `ceil(n / 8)` whole bytes (20_memory.md R67). -/
theorem padding_eq_byteCount (n : Nat) : padding n = List.replicate (8 * byteCount n - n) false := by
  unfold padding byteCount
  congr 1
  omega

/-- A mix of writes to a clear writer and a flush: WBUF spells the bits and the padding, and keeps its bound. -/
theorem writeMix_flush {ws : List Write} {w w' : BW} (hwrite : writeMix params BW.clear ws = .ok w)
    (hflush : w.flush params = .ok w') :
    bitsOfBytes w'.buf = ws.flatMap Write.bits ++ padding (ws.flatMap Write.bits).length ∧
      w'.buf.length ≤ params.maxBuf := by
  rw [writeMix_eq] at hwrite
  have hcontent : w.content = ws.flatMap Write.bits := by simpa using writeAll_content hwrite
  have hok := flush_bwOk (writeAll_bwOk clear_bwOk hwrite) hflush
  exact ⟨hcontent ▸ flush_bits hflush, ((bwOk_iff w').mp hok).2⟩

/-- Whole bytes that spell some bits and their padding are `ceil(n / 8)` many. -/
theorem length_of_padded {bytes : List Byte} {bits : List Bool}
    (h : bitsOfBytes bytes = bits ++ padding bits.length) : bytes.length = byteCount bits.length := by
  have hlen := congrArg List.length h
  simp only [bitsOfBytes_length, List.length_append, padding, List.length_replicate] at hlen
  unfold byteCount
  omega

/-- As many reads as a prefix of the unread bits is long give that prefix and leave the rest. -/
theorem nextBits_prefix {r : BR} (hr : brOk r = true) {front rest : List Bool} (h : r.unread = front ++ rest) :
    ∃ r', BR.nextBits front.length r = some (front, r') ∧ r'.unread = rest ∧ brOk r' = true := by
  obtain ⟨r', hread, hunread, hr', _, _⟩ := nextBits_spec hr front.length (by simp [h])
  rw [h, List.take_left] at hread
  rw [h, List.drop_left] at hunread
  exact ⟨r', hread, hunread, hr'⟩

/-- With no bits unread the next read is the end of the stream (40_bitstream.md R131). -/
theorem nextBit_at_end {r : BR} (hr : brOk r = true) (h : r.unread = []) : r.nextBit = none := by
  rcases nextBit_cases hr with ⟨_, hnone⟩ | ⟨b, r', hcons, _⟩
  · exact hnone
  · rw [h] at hcons; cases hcons

/-- Settles O26: the loaded reader has the written bits and the padding unread, and reads one part after the other. -/
theorem writerReaderSymmetry : Obligations.WriterReaderSymmetry := by
  intro ws w w' hwrite hflush
  obtain ⟨hbits, hmax⟩ := writeMix_flush hwrite hflush
  obtain ⟨r, hread, hunread, hr⟩ := nextBits_prefix (load_brOk w'.buf hmax) ((load_unread w'.buf).trans hbits)
  rw [padding_eq_byteCount] at hunread
  obtain ⟨r', hpad, hend, hr'⟩ := nextBits_prefix hr (hunread.trans (List.append_nil _).symm)
  rw [List.length_replicate] at hpad
  exact ⟨length_of_padded hbits, r, r', hread, hpad, nextBit_at_end hr' hend⟩

/-! ### The command stream -/

/-- Bytes that decode hold a whole command, whose word gives the instruction. -/
theorem decode_ok {bs rest : List Byte} {i : Instr} (h : decode bs = .ok (i, rest)) :
    ∃ w d, takeCommand bs = some (w, d, rest) ∧ decodeWord w d = .ok i := by
  cases ht : takeCommand bs with
  | none => simp [decode, ht] at h
  | some o =>
    obtain ⟨w, d, rest'⟩ := o
    rw [decode_of_take ht] at h
    cases hw : decodeWord w d with
    | error e => rw [hw] at h; cases h
    | ok j => rw [hw] at h; cases h; exact ⟨w, d, rfl, hw⟩

/-- Bytes decode to `incomplete` only while no whole command has arrived (46_system_and_macros.md R273). -/
theorem takeCommand_of_incomplete {bs : List Byte} (h : decode bs = .error .incomplete) : takeCommand bs = none := by
  cases ht : takeCommand bs with
  | none => rfl
  | some o =>
    obtain ⟨w, d, rest⟩ := o
    rw [decode_of_take ht] at h
    cases hw : decodeWord w d with
    | ok i => rw [hw] at h; cases h
    | error e => rw [hw] at h; rcases decodeWord_error hw with rfl | rfl <;> cases h

/-- With a fault recorded every command but the two of the system is refused (60_exceptions.md R298). -/
theorem exec_of_faulted {i : Instr} {s : State} (hi : isCommand i = true) (h1 : i ≠ .sysReset) (h2 : i ≠ .sysStat)
    (hf : s.faulted = true) : exec i s = .next (refuse s) := by
  rw [exec_command hi h1 h2, command_of_faulted hf]

/-- A word that decodes is acted on as the meaning of its instruction, also with a fault recorded: the admission and
the meaning refuse the same commands. -/
theorem perform_admission {s : State} {w : CmdWord} {d : List Byte} {i : Instr} (h : decodeWord w d = .ok i) :
    perform s (admission s w d) = exec i s := by
  obtain ⟨hcommand, hreset, hstat⟩ := decodeWord_ok h
  cases hf : s.faulted with
  | false => rw [admission_run hf h]; rfl
  | true =>
    rcases admission_faulted w d hf with ⟨hop, hadm⟩ | ⟨hop, hadm⟩ | ⟨hop1, hop2, hadm⟩ <;> rw [hadm]
    · rw [hreset.mpr hop]; rfl
    · rw [hstat.mpr hop]; rfl
    · exact (exec_of_faulted hcommand (hop1 ∘ hreset.mp) (hop2 ∘ hstat.mp) hf).symm

theorem step_of_decode {s : State} {i : Instr} {rest : List Byte} (hr : s.resetIn = false)
    (h : decode s.cmdIn = .ok (i, rest)) : step s = exec i (s.took rest) := by
  obtain ⟨w, d, htake, hword⟩ := decode_ok h
  rw [step_take hr htake, perform_admission hword]

/-- Settles O4: `step_of_decode`, `step_wait`, and `streamAfterReset_spec` for what the reset input leaves waiting. -/
theorem stepRunsDecodedCommand : Obligations.StepRunsDecodedCommand := by
  refine ⟨fun s i rest hr h => step_of_decode hr h,
    fun s hr h => step_wait hr (takeCommand_of_incomplete h),
    fun s cs part hr hcs hpart hin => ⟨atReset_hardReset s, rfl, rfl, ?_⟩,
    fun s hr => ⟨?_, rfl, resetBlock s, step_reset hr, atReset_resetBlock s, rfl, rfl, hr, rfl⟩⟩
  · rw [State.assertReset, hardReset_cmdIn, hr, hin]
    exact streamAfterReset_spec hcs hpart
  · rw [State.assertReset, hardReset_cmdIn, if_pos hr]

end Sys2Proof.Proofs
end

section
/-! PROOF. The family of 30_encoding.md: decoder and encoder, the two word faults, responses, and the data formats. -/

namespace Sys2Proof.Proofs

open Sys2Proof Sys2Proof.Machine Sys2Proof.Config Sys2Proof.Safety

/-! ### From an instruction to its bytes and back -/

/-- A command without data is decoded from its word (30_encoding.md R82). -/
theorem decode_encodeOp {o : Op} {n : Byte} {v : Word} {i : Instr} (hdata : o.carriesData = false)
    (hword : decodeWord ⟨o.code, n, v⟩ [] = .ok i) (rest : List Byte) :
    decode (encodeOp o n v ++ rest) = .ok (i, rest) := by
  rw [decode_of_take (takeCommand_encodeOp hdata n v rest), hword]

/-- A data-carrying command is decoded from its word and its data (30_encoding.md R83). -/
theorem decode_encodeData {o : Op} {d : List Byte} {i : Instr} (hdata : o.carriesData = true)
    (hfits : fitsLength d = true) (hword : decodeWord ⟨o.code, 0, BitVec.ofNat 32 d.length⟩ d = .ok i)
    (rest : List Byte) : decode (encodeData o d ++ rest) = .ok (i, rest) := by
  rw [decode_of_take (takeCommand_encodeData hdata hfits rest), hword]

/-- Settles O57: a command's encoding is a word, or a word and its data, and both are decoded by one rule each. -/
theorem decodeEncode : Obligations.DecodeEncode := by
  intro i rest hi hwf
  cases i with
  | node | leaf | codeword | ctrl | container | response | ftCount | cxEncode | cxDecode => cases hi
  | brLoad | ftUpd | hcDes | dcEupd | dcDec => exact decode_encodeData rfl hwf rfl rest
  | sysReset | sysStat | bwClr | bwWbit | bwWbits | bwFlush | bwPos | bwRdbuf | brNext | brRbits | brPos | ftClr
  | ftEnd | ftRd | tbBuild | pgGen | pgInv | pgRd | hcSer | dcEbeg | dcEend => exact decode_encodeOp rfl rfl rest

/-! The bytes of a taken command are the encoding of what its word decodes to: one rule per reserved-field check. -/

theorem noOperand_eq_ok {w : CmdWord} {i j : Instr} : noOperand w j = .ok i ↔ (w.n = 0 ∧ w.v = 0) ∧ j = i := by
  unfold noOperand; split <;> simp_all

theorem valueOperand_eq_ok {w : CmdWord} {i j : Instr} : valueOperand w j = .ok i ↔ w.n = 0 ∧ j = i := by
  unfold valueOperand; split <;> simp_all

theorem countOnly_eq_ok {w : CmdWord} {i j : Instr} : countOnly w j = .ok i ↔ w.v = 0 ∧ j = i := by
  unfold countOnly; split <;> simp_all

section
variable {w : CmdWord} {d : List Byte} {o : Op} {i j : Instr}
variable (hop : Op.ofByte w.op = some o) (hlen : d.length = w.dataLength)
include hop hlen

/-- No data is attached to the word of a command that carries none (30_encoding.md R83). -/
theorem encodeOp_of_word (hdata : o.carriesData = false) : encodeOp o w.n w.v = w.bytes ++ d := by
  rw [dataLength_of_ofByte hop, hdata, if_neg (by simp), List.length_eq_zero_iff] at hlen
  rw [hlen, List.append_nil, encodeOp, Op.ofByte_eq_some.mp hop]

/-- The word of a command that carries data announces the length of the data (30_encoding.md R83). -/
theorem encodeData_of_word (hdata : o.carriesData = true) (hn : w.n = 0) : encodeData o d = w.bytes ++ d := by
  rw [dataLength_of_ofByte hop, hdata, if_pos rfl] at hlen
  rw [encodeData, encodeOp, Op.ofByte_eq_some.mp hop, hlen, BitVec.ofNat_toNat, BitVec.setWidth_eq, ← hn]

theorem encode_of_noOperand (hword : noOperand w j = .ok i) (hdata : o.carriesData = false)
    (henc : encode j = encodeOp o 0 0) : encode i = w.bytes ++ d := by
  obtain ⟨⟨hn, hv⟩, rfl⟩ := noOperand_eq_ok.mp hword
  rw [henc, ← encodeOp_of_word hop hlen hdata, hn, hv]

theorem encode_of_valueOperand (hword : valueOperand w j = .ok i) (hdata : o.carriesData = false)
    (henc : encode j = encodeOp o 0 w.v) : encode i = w.bytes ++ d := by
  obtain ⟨hn, rfl⟩ := valueOperand_eq_ok.mp hword
  rw [henc, ← encodeOp_of_word hop hlen hdata, hn]

theorem encode_of_dataOperand (hword : valueOperand w j = .ok i) (hdata : o.carriesData = true)
    (henc : encode j = encodeData o d) : encode i = w.bytes ++ d := by
  obtain ⟨hn, rfl⟩ := valueOperand_eq_ok.mp hword
  rw [henc, encodeData_of_word hop hlen hdata hn]

theorem encode_of_countOnly (hword : countOnly w j = .ok i) (hdata : o.carriesData = false)
    (henc : encode j = encodeOp o w.n 0) : encode i = w.bytes ++ d := by
  obtain ⟨hv, rfl⟩ := countOnly_eq_ok.mp hword
  rw [henc, ← encodeOp_of_word hop hlen hdata, hv]

end

/-- A taken command's word and data are the encoding of the instruction they decode to (30_encoding.md R80 to R85). -/
theorem encode_of_decodeWord {w : CmdWord} {d : List Byte} {i : Instr} (hlen : d.length = w.dataLength)
    (h : decodeWord w d = .ok i) : encode i = w.bytes ++ d := by
  unfold decodeWord at h
  cases hop : Op.ofByte w.op with
  | none => rw [hop] at h; cases h
  | some o =>
    rw [hop] at h
    cases o with
    | sysReset | sysStat | bwClr | bwFlush | bwPos | bwRdbuf | brNext | brPos | ftClr | ftEnd | tbBuild | pgGen
    | pgInv | hcSer | dcEbeg | dcEend => exact encode_of_noOperand hop hlen h rfl rfl
    | bwWbit | ftRd | pgRd => exact encode_of_valueOperand hop hlen h rfl rfl
    | brLoad | ftUpd | hcDes | dcEupd | dcDec => exact encode_of_dataOperand hop hlen h rfl rfl
    | brRbits => exact encode_of_countOnly hop hlen h rfl rfl
    | bwWbits => cases h; exact encodeOp_of_word hop hlen rfl

/-- Settles O58: the taken bytes are a word and its data (`takeCommand_eq_some`), and these are the encoding. -/
theorem encodeDecode : Obligations.EncodeDecode := by
  intro bs rest i h
  obtain ⟨w, d, htake, hword⟩ := decode_ok h
  obtain ⟨hbytes, hlen⟩ := takeCommand_eq_some.mp htake
  refine ⟨(decodeWord_ok hword).1, decodeWord_wf htake hword, ?_⟩
  rw [hbytes, encode_of_decodeWord hlen hword, List.append_assoc]

/-- Settles O60: the words are written out, so the decoder is run on them. -/
theorem writtenWords : Obligations.WrittenWords := by
  unfold Obligations.WrittenWords
  decide

/-! ### The two faults of a command word -/

/-- No data is attached to a word of an illegal opcode (30_encoding.md R83, R86). -/
theorem takeCommand_illegal {op : Byte} (h : Op.ofByte op = none) (n a b c d : Byte) (rest : List Byte) :
    takeCommand (op :: n :: a :: b :: c :: d :: rest) = some (⟨op, n, word32 a b c d⟩, [], rest) := by
  have hlen : CmdWord.dataLength ⟨op, n, word32 a b c d⟩ = 0 := by simp [CmdWord.dataLength, h]
  simp [takeCommand, takeWord_cons, hlen]

/-- The values of `op` that are in the opcode map are its 26 codes (30_encoding.md R84). -/
theorem legalOpcodes_perm :
    ((List.range 256).filter fun k => !decide (Op.ofByte (BitVec.ofNat 8 k) = none)).Perm
      (Op.all.map fun o => o.code.toNat) := by
  refine (List.perm_ext_iff_of_nodup (List.nodup_range.filter _) (by decide)).mpr fun k => ?_
  simp only [List.mem_filter, List.mem_range, List.mem_map, Bool.not_eq_true', decide_eq_false_iff_not]
  constructor
  · rintro ⟨hk, hlegal⟩
    obtain ⟨o, ho⟩ := Option.ne_none_iff_exists'.mp hlegal
    refine ⟨o, by cases o <;> decide, ?_⟩
    rw [Op.ofByte_eq_some.mp ho, BitVec.toNat_ofNat, Nat.mod_eq_of_lt hk]
  · rintro ⟨o, _, rfl⟩
    exact ⟨o.code.isLt, by simp⟩

/-- The other 230 of the 256 values of `op` are illegal (30_encoding.md R86). -/
theorem illegalOpcodes_length :
    ((List.range 256).filter fun k => decide (Op.ofByte (BitVec.ofNat 8 k) = none)).length = 230 := by
  have hsplit := List.length_eq_length_filter_add (l := List.range 256)
    fun k => decide (Op.ofByte (BitVec.ofNat 8 k) = none)
  rw [legalOpcodes_perm.length_eq, List.length_range, List.length_map] at hsplit
  have hcodes : Op.all.length = 26 := rfl
  omega

/-- Settles O5: the six bytes are taken without data, and check 2 of the admission fails. -/
theorem illegalOpcode : Obligations.IllegalOpcode := by
  refine ⟨fun s op n a b c d rest hr hf hin hop => ⟨?_, rfl, rfl⟩, illegalOpcodes_length⟩
  rw [step_take hr (hin ▸ takeCommand_illegal hop n a b c d rest), admission_illegal (s := s.took rest) hf hop]
  rfl

/-- What BW.WBITS writes depends on the `n` low bits of its operand only (30_encoding.md R85). -/
theorem countOperand_bind_writeBits {n : Byte} {v v' : Word} (h : msbBits v n.toNat = msbBits v' n.toNat) (w : BW) :
    (countOperand n).bind (w.writeBits params v) = (countOperand n).bind (w.writeBits params v') := by
  unfold countOperand
  split
  · rfl
  · exact congrArg (w.writeAll params) h

/-- Settles O6: a legal word decodes exactly when its reserved fields are zero (`decodeWord_reserved`). -/
theorem reservedField : Obligations.ReservedField := by
  refine ⟨fun s w d rest o hr hf htake hop => ?_, fun s n v v' h => ?_⟩
  · rw [step_take hr htake]
    rcases decodeWord_reserved hop d with ⟨hclear, i, hi, hword⟩ | ⟨hclear, hword⟩
    · exact ⟨fun h => absurd (hclear.symm.trans h) nofun,
        fun _ => ⟨i, hi, by rw [admission_run (s := s.took rest) hf hword]; rfl⟩⟩
    · exact ⟨fun _ => ⟨by rw [admission_reserved (s := s.took rest) hf hword]; rfl, rfl, rfl⟩,
        fun h => absurd (h.symm.trans hclear) nofun⟩
  · rw [exec, execBwWbits, countOperand_bind_writeBits h]
    rfl

/-! ### Responses -/

theorem faulted_of_completed {s t : State} {r : Response} (h : Completed s t r) : t.faulted = s.faulted := by
  rw [State.faulted, State.faulted, h.flt]

/-- Settles O13: by cases on what a guarded command can do (`command_cases`, `ownPart_completed`). -/
theorem oneResponsePerCommand : Obligations.OneResponsePerCommand := by
  intro i s t hi he
  by_cases h1 : i = .sysReset
  · subst h1; cases he; exact ⟨_, rfl, .inl ⟨rfl, .inl rfl⟩⟩
  by_cases h2 : i = .sysStat
  · subst h2; cases he; exact ⟨_, rfl, .inl ⟨rfl, .inr rfl⟩⟩
  rw [exec_command hi h1 h2] at he
  cases he
  rcases command_cases (precondition s i) (ownPart s i) s with
    ⟨hf, e⟩ | ⟨_, _, e⟩ | ⟨c, _, _, _, e⟩ | ⟨t, hf, _, ho, e⟩ <;> rw [e]
  · exact ⟨_, refuse_resps s, .inr (.inr (.inr ⟨rfl, hf, rfl, rfl⟩))⟩
  · exact ⟨_, raise_resps s _, .inr (.inr (.inr ⟨rfl, raise_faulted _ s, rfl, rfl⟩))⟩
  · exact ⟨_, raise_resps s c, .inr (.inr (.inr ⟨rfl, raise_faulted c s, rfl, rfl⟩))⟩
  · obtain ⟨r, hdone, hok | heos | habsent⟩ := ownPart_completed hi h1 h2 ho
    · exact ⟨r, hdone.resps, .inl ⟨hok, .inl ((faulted_of_completed hdone).trans hf)⟩⟩
    · exact ⟨r, hdone.resps, .inr (.inl heos)⟩
    · exact ⟨r, hdone.resps, .inr (.inr (.inl habsent))⟩

/-! ### Data items emitted on their own -/

/-- The token NODE is the bit 0 (30_encoding.md R94). -/
theorem writeNode_eq_writeAll (p : Params) (w : BW) : writeNode p w = w.writeAll p (itemBits .node) := by
  show w.writeBit p false = w.writeAll p [false]
  unfold BW.writeAll
  cases w.writeBit p false <;> rfl

/-- The token LEAF is the header of a tree that is one leaf (30_encoding.md R95). -/
theorem writeLeaf_eq_writeAll (p : Params) (w : BW) (x : Sym) : writeLeaf p w x = w.writeAll p (itemBits (.leaf x)) :=
  ser_eq_writeAll p (.leaf x 0) w

/-- A control byte in its range is appended, 0 as 8 (30_encoding.md R102, R103). -/
theorem ctrlOperand_bind_writeCtrl {k : Byte} (hk : k.toNat ≤ 8) (p : Params) (w : BW) :
    (ctrlOperand k).bind (writeCtrl p w) = w.append p (if k = 0 then 8 else k) := by
  unfold ctrlOperand
  by_cases h0 : k = 0
  · rw [if_pos h0, if_pos h0]; rfl
  · rw [if_neg h0, if_neg h0, if_neg (by omega)]
    exact congrArg (w.append p) (by simp)

theorem emit_of_error {own : Except Cause State} {s : State} {c : Cause} (h : s.faulted = false)
    (ho : own = .error c) : emit own s = raise c s := by simp [emit, settle, h, ho]

section
variable {s : State} (hr : s.resetIn = false) (hf : s.faulted = false)
include hr hf

theorem emitItem_of_ok {own : Except Cause BW} {w : BW} (h : own = .ok w) :
    emitItem own s = .next { s with bw := w } := by
  rw [h, emitItem, unlessReset_released hr]
  exact congrArg _ (emit_of_ok hf rfl)

theorem emitItem_of_error {own : Except Cause BW} {c : Cause} (h : own = .error c) :
    emitItem own s = .next (raise c s) := by
  rw [h, emitItem, unlessReset_released hr]
  exact congrArg _ (emit_of_error hf rfl)

/-- An item that writes bits completes while WBUF has room, and its bits follow the content (40_bitstream.md R120). -/
theorem emitItem_of_bits {own : Except Cause BW} {bits : List Bool} (h : own = s.bw.writeAll params bits)
    (hroom : (s.bw.content.length + bits.length) / 8 ≤ params.maxBuf) :
    ∃ w, emitItem own s = .next { s with bw := w } ∧ w.content = s.bw.content ++ bits := by
  obtain ⟨w, hw⟩ := writeAll_ok bits hroom
  exact ⟨w, emitItem_of_ok hr hf (h.trans hw), writeAll_content hw⟩

theorem exec_node (hroom : (s.bw.content.length + 1) / 8 ≤ params.maxBuf) :
    ∃ w, exec .node s = .next { s with bw := w } ∧ w.content = s.bw.content ++ [false] :=
  emitItem_of_bits hr hf (writeNode_eq_writeAll params s.bw) hroom

theorem exec_leaf {x : Sym} (hx : isScalar x = true) (hroom : (s.bw.content.length + 33) / 8 ≤ params.maxBuf) :
    ∃ w, exec (.leaf x) s = .next { s with bw := w } ∧ w.content = s.bw.content ++ true :: msbBits x 32 := by
  refine emitItem_of_bits hr hf ?_ (by simpa using hroom)
  rw [scalarOperand, if_pos hx]
  exact writeLeaf_eq_writeAll params s.bw x

theorem exec_leaf_invalid {x : Sym} (hx : isScalar x = false) : exec (.leaf x) s = .next (raise .invalidScalar s) :=
  emitItem_of_error hr hf (by rw [scalarOperand, if_neg (by simp [hx])]; rfl)

theorem exec_codeword {l : Byte} (hl : l.toNat ≤ 32) (c : Word)
    (hroom : (s.bw.content.length + l.toNat) / 8 ≤ params.maxBuf) :
    ∃ w, exec (.codeword c l) s = .next { s with bw := w } ∧ w.content = s.bw.content ++ msbBits c l.toNat := by
  refine emitItem_of_bits hr hf ?_ (by rwa [msbBits_length])
  rw [countOperand, if_neg (by omega)]
  rfl

theorem exec_codeword_badCount {l : Byte} (hl : 32 < l.toNat) (c : Word) :
    exec (.codeword c l) s = .next (raise .badCount s) :=
  emitItem_of_error hr hf (by rw [countOperand, if_pos hl]; rfl)

theorem exec_ctrl {k : Byte} (hk : k.toNat ≤ 8) (hroom : s.bw.buf.length < params.maxBuf) :
    exec (.ctrl k) s = .next { s with bw := { s.bw with buf := s.bw.buf ++ [if k = 0 then 8 else k] } } := by
  refine emitItem_of_ok hr hf ?_
  rw [ctrlOperand_bind_writeCtrl hk, BW.append, if_neg (by omega)]

theorem exec_ctrl_badControl {k : Byte} (hk : 8 < k.toNat) : exec (.ctrl k) s = .next (raise .badControl s) :=
  have h0 : k ≠ 0 := by rintro rfl; simp at hk
  emitItem_of_error hr hf (by rw [ctrlOperand, if_neg h0, if_pos hk]; rfl)

end

/-- While the reset input is asserted a bit-stream item waits, the state at its reset values (log 6). -/
theorem emitItem_held {s : State} (hr : s.resetIn = true) (own : Except Cause BW) :
    ∃ t, emitItem own s = .next t ∧ atReset t ∧ t.resps = s.resps ∧ t.hostOut = s.hostOut :=
  ⟨resetBlock s, unlessReset_held hr, atReset_resetBlock s, rfl, rfl⟩

/-- Settles O51: the held items wait, and each released item has a rule for its completion and one for its fault. -/
theorem bitStreamItems : Obligations.BitStreamItems := by
  refine ⟨fun s x c l k i hr hi => ?_, fun s hr hf => ⟨exec_node hr hf,
    fun x => ⟨exec_leaf hr hf, exec_leaf_invalid hr hf⟩,
    fun c l => ⟨fun hl => exec_codeword hr hf hl c, fun hl => exec_codeword_badCount hr hf hl c⟩,
    fun k => ⟨exec_ctrl hr hf, exec_ctrl_badControl hr hf⟩⟩⟩
  simp only [List.mem_cons, List.not_mem_nil, or_false] at hi
  rcases hi with rfl | rfl | rfl | rfl <;> exact emitItem_held hr _

/-- Settles O52: the container is packed and unpacked (`unpack_pack`), the record is put on the stream as it is. -/
theorem recordItems : Obligations.RecordItems := by
  refine ⟨fun s h p x hh hp => ⟨pack h p, ?_, by simp [pack], unpack_pack h p x hh hp⟩,
    fun s st v d => ⟨fun hr => unlessReset_released hr,
      fun hr => ⟨resetBlock s, unlessReset_held hr, atReset_resetBlock s, rfl⟩⟩⟩
  rw [exec, execContainer, if_neg (by omega)]
  rfl

/-! ### Data formats read back -/

theorem decodeToken_leaf {x : Sym} (hx : isScalar x = true) (bits : List Bool) :
    decodeToken (itemBits (.leaf x) ++ bits) = .ok (.leaf x, bits) := by
  have htake : (msbBits x 32 ++ bits).take 32 = msbBits x 32 := List.take_left' (msbBits_length x 32)
  have hdrop : (msbBits x 32 ++ bits).drop 32 = bits := List.drop_left' (msbBits_length x 32)
  simp [itemBits, decodeToken, htake, hdrop, hx]

/-- A word below `2^n` is read back from its `n` low bits (45_data_codec.md R241). -/
theorem shiftBits_msbBits {c : Word} {n : Nat} (hn : n ≤ 32) (hc : c.toNat < 2 ^ n) :
    shiftBits 0 (msbBits c n) = c := by
  have hlen : (msbBits c n).length = n := msbBits_length c n
  have hbits := codeBits_codeOf (path := msbBits c n) (by omega)
  have hlt := codeOf_lt (msbBits c n)
  simp only [codeBits, codeOf, hlen] at hbits hlt
  apply BitVec.eq_of_getLsbD_eq
  intro k _
  by_cases hk : k < n
  · exact (msbBits_eq_iff _ _ n).mp hbits k hk
  · have high : ∀ x : Word, x.toNat < 2 ^ n → x.getLsbD k = false := fun x hx =>
      Nat.testBit_lt_two_pow (lt_of_lt_of_le hx (Nat.pow_le_pow_right (by omega) (by omega)))
    rw [high _ hlt, high _ hc]

theorem decodeCodeword_itemBits {c : Word} {l : Byte} (h : (Instr.codeword c l).wf = true) (bits : List Bool) :
    decodeCodeword l (itemBits (.codeword c l) ++ bits) = .ok (.codeword c l, bits) := by
  obtain ⟨⟨h1, h32⟩, hc⟩ : (1 ≤ l.toNat ∧ l.toNat ≤ 32) ∧ c.toNat < 2 ^ l.toNat := by
    simpa [Instr.wf] using h
  have hlen : (msbBits c l.toNat).length = l.toNat := msbBits_length c l.toNat
  rw [decodeCodeword, itemBits, if_neg (by rw [List.length_append]; omega), List.take_left' hlen,
    List.drop_left' hlen, shiftBits_msbBits h32 hc]

theorem decodeCtrl_of_wf {k : Byte} (h : (Instr.ctrl k).wf = true) : decodeCtrl k = .ok (.ctrl k) := by
  obtain ⟨h1, h8⟩ : 1 ≤ k.toNat ∧ k.toNat ≤ 8 := by simpa [Instr.wf] using h
  have h0 : k ≠ 0 := by rintro rfl; simp at h1
  rw [decodeCtrl, if_neg h0, if_neg (by omega)]

/-- The record's layout is read back whatever the status: nine bytes, then the data (30_encoding.md R88). -/
theorem decodeResponse_responseBytes {st : Byte} {d : List Byte} (hwf : responseWf st d = true)
    (hfits : fitsLength d = true) (v : Word) (rest : List Byte) :
    decodeResponse (responseBytes st v d ++ rest) = .ok (.response st v d, rest) := by
  simp [responseBytes, be32, decodeResponse, word32_be32, fitsLength_toNat hfits, hwf]

theorem fitsLength_of_responseWf {st : Byte} {d : List Byte} (h : responseWf st d = true) : fitsLength d = true := by
  simp only [responseWf, Bool.or_eq_true, Bool.and_eq_true, List.isEmpty_iff] at h
  rcases h with ⟨_, hfits⟩ | ⟨_, rfl⟩
  · exact hfits
  · rfl

/-- Settles O59: one format per part, each by the rule above for its layout. -/
theorem formatRoundTrip : Obligations.FormatRoundTrip := by
  refine ⟨fun bits => rfl, fun x bits hx => decodeToken_leaf hx bits,
    fun c l bits h => decodeCodeword_itemBits h bits, fun k b h hb => ?_, fun h p x hwf => ?_,
    fun st v d rest h => decodeResponse_responseBytes h (fitsLength_of_responseWf h) v rest⟩
  · cases hb
    exact decodeCtrl_of_wf h
  · obtain ⟨hh, hp⟩ : fitsLength h = true ∧ fitsLength p = true := by simpa [Instr.wf] using hwf
    rw [encode, decodeContainer, unpack_pack h p x (of_decide_eq_true hh) (of_decide_eq_true hp)]

end Sys2Proof.Proofs
end

section
/-! PROOF. The family of 40_bitstream.md: the commands of the BitWriter and the BitReader, and the clearing commands. -/

namespace Sys2Proof.Proofs

open Sys2Proof Sys2Proof.Machine Sys2Proof.Config Sys2Proof.Safety

/-! ### Facts of the writer and of the operands -/

theorem writeBit_eq_writeAll (p : Params) (w : BW) (b : Bool) : w.writeBit p b = w.writeAll p [b] := by
  unfold BW.writeAll
  cases w.writeBit p b <;> rfl

/-- The pending bits are what the content has beyond whole bytes (40_bitstream.md R120). -/
theorem cnt_eq_content_mod (w : BW) : w.cnt.val = w.content.length % 8 := by
  rw [content_length, Nat.mul_add_mod, Nat.mod_eq_of_lt w.cnt.isLt]

theorem writeAll_cnt {p : Params} {w w' : BW} {bits : List Bool} (h : w.writeAll p bits = .ok w') :
    w'.cnt.val = (w.cnt.val + bits.length) % 8 := by
  rw [cnt_eq_content_mod w', writeAll_content h, List.length_append, cnt_eq_content_mod w, Nat.mod_add_mod]

/-- A flush has room when no bit is pending or WBUF takes one more byte (40_bitstream.md R124, R125). -/
theorem flush_ok_of_room {p : Params} {w : BW} (h : w.cnt.val = 0 ∨ w.buf.length < p.maxBuf) :
    ∃ w', w.flush p = .ok w' := by
  rcases flush_cases p w with ⟨_, e⟩ | ⟨_, _, e⟩ | ⟨h0, hfull, _⟩
  · exact ⟨_, e⟩
  · exact ⟨_, e⟩
  · omega

theorem flush_overflow {p : Params} {w : BW} (h0 : w.cnt.val ≠ 0) (hfull : p.maxBuf ≤ w.buf.length) :
    w.flush p = .error .sizeOverflow := by
  rcases flush_cases p w with ⟨h, _⟩ | ⟨_, hroom, _⟩ | ⟨_, _, e⟩
  · exact absurd h h0
  · omega
  · exact e

theorem flush_of_cnt_zero {p : Params} {w : BW} (h0 : w.cnt.val = 0) : w.flush p = .ok w := if_pos h0

/-- The bit that BW.WBIT writes for an operand in range (40_bitstream.md R122). -/
theorem bitOperand_of_le {v : Word} (hv : v.toNat ≤ 1) : bitOperand v = .ok (decide (v = 1)) := by
  rw [bitOperand, if_neg (by omega)]
  rcases Nat.le_one_iff_eq_zero_or_eq_one.mp hv with h | h
  · obtain rfl : v = 0 := BitVec.eq_of_toNat_eq h
    rfl
  · obtain rfl : v = 1 := BitVec.eq_of_toNat_eq h
    rfl

/-- What BW.WBIT does to the writer, its operand in range: it writes a group of one bit. -/
theorem bitOperand_bind_writeBit {v : Word} (hv : v.toNat ≤ 1) (w : BW) :
    (bitOperand v).bind (w.writeBit params) = w.writeAll params [decide (v = 1)] := by
  rw [bitOperand_of_le hv]
  exact writeBit_eq_writeAll params w _

/-- What BW.WBITS does to the writer, its count in range. -/
theorem countOperand_bind_of_le {n : Byte} (hn : n.toNat ≤ 32) (v : Word) (w : BW) :
    (countOperand n).bind (w.writeBits params v) = w.writeAll params (msbBits v n.toNat) := by
  rw [countOperand, if_neg (by omega)]
  rfl

/-! ### One rule per way a writer command ends, with no fault recorded and the writer free -/

section
variable {s : State} (hf : s.faulted = false) (he : s.dc.encAct = false) {o : Except Cause BW}
include hf he

theorem writerCommand_of_ok {w : BW} (ho : o = .ok w) :
    command s.writerFree (withWriter s o) s = answer 0 [] { s with bw := w } :=
  command_of_ok hf (by simp [State.writerFree, he]) (by rw [ho]; rfl)

theorem writerCommand_of_error {c : Cause} (ho : o = .error c) :
    command s.writerFree (withWriter s o) s = raise c s :=
  command_of_error hf (by simp [State.writerFree, he]) (by rw [ho]; rfl)

/-- A command that writes bits completes while their bytes fit; the bits follow the content (40_bitstream.md R120). -/
theorem writerCommand_of_bits {bits : List Bool} (ho : o = s.bw.writeAll params bits)
    (hroom : (s.bw.content.length + bits.length) / 8 ≤ params.maxBuf) :
    ∃ w, command s.writerFree (withWriter s o) s = answer 0 [] { s with bw := w } ∧
      w.content = s.bw.content ++ bits ∧ w.cnt.val = (s.bw.cnt.val + bits.length) % 8 := by
  obtain ⟨w, hw⟩ := writeAll_ok bits hroom
  exact ⟨w, writerCommand_of_ok hf he (ho.trans hw), writeAll_content hw, writeAll_cnt hw⟩

/-- It raises SizeOverflow when they do not fit (40_bitstream.md R124). -/
theorem writerCommand_overflow {bits : List Bool} (ho : o = s.bw.writeAll params bits)
    (hbuf : s.bw.buf.length ≤ params.maxBuf) (hover : params.maxBuf < (s.bw.content.length + bits.length) / 8) :
    command s.writerFree (withWriter s o) s = raise .sizeOverflow s :=
  writerCommand_of_error hf he (ho.trans (writeAll_overflow hbuf hover))

end

/-! ### The writer's obligations -/

/-- Settles O8: the operand checks fault first, then the bits that do not fit, then the flush without room. -/
theorem writerFaults : Obligations.WriterFaults := by
  refine fun s hf he => ⟨fun v hv => ?badBit, fun n v hn => ?badCount, fun hbuf n v hn hover => ?group,
    fun hfull => ⟨fun v hv h7 => ?bit, fun h0 => ?flush⟩⟩
  all_goals apply congrArg Host.Outcome.next
  case badBit => exact writerCommand_of_error hf he (by rw [bitOperand, if_pos hv]; rfl)
  case badCount => exact writerCommand_of_error hf he (by rw [countOperand, if_pos hn]; rfl)
  case group =>
    exact writerCommand_overflow hf he (countOperand_bind_of_le hn v s.bw) hbuf (by rwa [msbBits_length])
  case bit =>
    refine writerCommand_overflow hf he (bitOperand_bind_writeBit hv s.bw) hfull.le ?_
    rw [content_length, h7, hfull, List.length_singleton]
    omega
  case flush => exact writerCommand_of_error hf he (flush_overflow h0 hfull.ge)

/-- Settles O22: BW.WBIT writes a group of one bit. -/
theorem writeBit : Obligations.WriteBit := by
  intro s v hf he hv hroom
  obtain ⟨w, hexec, hcontent, hcnt⟩ := writerCommand_of_bits hf he (bitOperand_bind_writeBit hv s.bw) hroom
  exact ⟨w, congrArg Host.Outcome.next hexec, hcontent, hcnt⟩

/-- BW.WBITS with its count in range and room completes (40_bitstream.md R123). -/
theorem exec_bwWbits {s : State} {n : Byte} (v : Word) (hf : s.faulted = false) (he : s.dc.encAct = false)
    (hn : n.toNat ≤ 32) (hroom : (s.bw.content.length + n.toNat) / 8 ≤ params.maxBuf) :
    ∃ w, exec (.bwWbits n v) s = .next (answer 0 [] { s with bw := w }) ∧
      w.content = s.bw.content ++ msbBits v n.toNat ∧ w.cnt.val = (s.bw.cnt.val + n.toNat) % 8 := by
  obtain ⟨w, hexec, hcontent, hcnt⟩ :=
    writerCommand_of_bits hf he (countOperand_bind_of_le hn v s.bw) (by rwa [msbBits_length])
  exact ⟨w, congrArg Host.Outcome.next hexec, hcontent, by rwa [msbBits_length] at hcnt⟩

/-- A group write is the write of its high bits and then of its low bits (40_bitstream.md R128 (c)). -/
theorem writeBits_split (p : Params) (w : BW) (v : Word) {n j : Nat} (hj : j ≤ n) :
    w.writeBits p v n = (w.writeBits p (v >>> j) (n - j)).bind fun w' => w'.writeBits p v j := by
  have hbits : msbBits v n = msbBits (v >>> j) (n - j) ++ msbBits v j := by
    rw [← msbBits_split, Nat.sub_add_cancel hj]
  rw [BW.writeBits, hbits, writeAll_append]
  rfl

/-- `m` bits written to a clear writer are `m div 8` bytes and `m mod 8` pending bits (40_bitstream.md R128 (a)). -/
theorem writeMix_counts {ws : List Write} {w : BW} (h : writeMix params BW.clear ws = .ok w) :
    w.buf.length = (ws.flatMap Write.bits).length / 8 ∧ w.cnt.val = (ws.flatMap Write.bits).length % 8 := by
  rw [writeMix_eq] at h
  have hlen := congrArg List.length (writeAll_content h)
  rw [content_clear, List.nil_append, content_length] at hlen
  omega

/-- Settles O23: the command's bits by index (`range_msbBits`), and the two laws of the writer above. -/
theorem writeBits : Obligations.WriteBits := by
  refine ⟨fun s n v hf he hn hroom => ?_, fun w v n j hj => writeBits_split params w v hj,
    fun ws w h => writeMix_counts h⟩
  rw [range_msbBits]
  exact exec_bwWbits v hf he hn hroom

/-- A completed flush spells the content and as many zeros as are missing to a whole byte (40_bitstream.md R125). -/
theorem flush_zeros {p : Params} {w w' : BW} (h : w.flush p = .ok w') :
    bitsOfBytes w'.buf = w.content ++ List.replicate ((8 - w.cnt.val) % 8) false := by
  rw [flush_bits h, padding, cnt_eq_content_mod w]

theorem exec_bwFlush {s : State} {w : BW} (hf : s.faulted = false) (he : s.dc.encAct = false)
    (hw : s.bw.flush params = .ok w) : exec .bwFlush s = .next (answer 0 [] { s with bw := w }) :=
  congrArg Host.Outcome.next (writerCommand_of_ok hf he hw)

/-- Settles O24: what the flush leaves is a fixed point of the flush (`flush_flush`). -/
theorem flush : Obligations.Flush := by
  intro s hf he hroom
  obtain ⟨w, hw⟩ := flush_ok_of_room hroom
  refine ⟨w, exec_bwFlush hf he hw, flush_zeros hw, Fin.ext (flush_content hw).2, fun h0 => ?_,
    fun t ht hft het => ?_⟩
  · rw [flush_of_cnt_zero h0] at hw
    exact (Except.ok.inj hw).symm
  · subst ht
    exact exec_bwFlush hft het (flush_flush hw)

/-! ### The reader's obligations -/

/-- BR.NEXT, with no fault recorded, is its own part. -/
theorem exec_brNext {s : State} (hf : s.faulted = false) : exec .brNext s = .next (brNext s) :=
  congrArg Host.Outcome.next (command_of_ok hf rfl rfl)

theorem brNext_of_some {s : State} {b : Bool} {r : BR} (h : s.br.nextBit = some (b, r)) :
    brNext s = answer (if b then 1 else 0) [] { s with br := r } := by
  rw [brNext, h]
  cases b <;> rfl

theorem brNext_of_none {s : State} (h : s.br.nextBit = none) : brNext s = respond 0x01#8 0 [] s := by
  rw [brNext, h]

/-- Settles O27: the first unread bit is read (`nextBit_of_cons`), and with none unread the stream is at its end. -/
theorem readBit : Obligations.ReadBit := by
  refine fun s hf hbr => ⟨fun b bs hcons => ?_, fun hnil => ?_⟩
  · obtain ⟨r, hread, hunread, hr, hbuf, hlen⟩ := nextBit_of_cons hbr hcons
    exact ⟨r, by rw [exec_brNext hf, brNext_of_some hread], hunread, hr, hbuf, hlen⟩
  · rw [exec_brNext hf, brNext_of_none (nextBit_at_end hbr hnil)]

section
variable {s : State} {n : Byte} (hf : s.faulted = false)
include hf

theorem exec_brRbits_of_ok {out : List Byte} {r : BR} (h : s.br.readBits n.toNat = .ok (out, r)) :
    exec (.brRbits n) s = .next (answer 0 out { s with br := r }) :=
  congrArg Host.Outcome.next (command_of_ok hf rfl (by rw [brRbits, h]))

theorem exec_brRbits_of_error {c : Cause} (h : s.br.readBits n.toNat = .error c) :
    exec (.brRbits n) s = .next (raise c s) :=
  congrArg Host.Outcome.next (command_of_error hf rfl (by rw [brRbits, h]))

end

/-- Settles O28: by the two outcomes of ReadBits (`readBits_spec`); the packed bits are padded to whole bytes. -/
theorem readBits : Obligations.ReadBits := by
  intro s n hf hbr
  rcases readBits_spec hbr n.toNat with ⟨hpast, hread⟩ | ⟨hleft, r, hread, hunread, hr, hbuf, hlen⟩
  · exact ⟨fun hleft => by omega, fun _ => exec_brRbits_of_error hf hread⟩
  · refine ⟨fun _ => ⟨r, _, exec_brRbits_of_ok hf hread, ?_, hunread, hr, hbuf, hlen⟩, fun hpast => by omega⟩
    rw [bitsOfBytes_packBits, List.length_take_of_le hleft, padding]

/-! ### The clearing commands and the read-backs -/

/-- Settles O21: each command's own part is its start values; BW.CLR and DC.EBEG need the writer free. -/
theorem clearAndLoad : Obligations.ClearAndLoad := by
  refine fun s hf => ⟨fun he => ?bwClr, fun d => ?brLoad, ?ftClr, fun hv he => ?dcEbeg⟩
  all_goals apply congrArg Host.Outcome.next
  case bwClr => exact writerCommand_of_ok hf he rfl
  case brLoad => exact command_of_ok hf rfl rfl
  case ftClr => exact command_of_ok hf rfl rfl
  case dcEbeg => exact command_of_ok hf (by simp [State.mayBeginEncode, hv, he]) rfl

/-- Settles O25: the own parts are answers, and these commands have no precondition. -/
theorem readBacks : Obligations.ReadBacks := by
  intro s hf
  refine ⟨?_, ?_, ?_⟩ <;> exact congrArg Host.Outcome.next (command_of_ok hf rfl rfl)

end Sys2Proof.Proofs
end

section
/-! PROOF. The family of 41_frequency.md: the counting pass, the faults of a text, and the reads of the tables. -/

namespace Sys2Proof.Proofs

open Sys2Proof Sys2Proof.Machine Sys2Proof.Config Sys2Proof.Safety

/-! ### The assembler behind a text: the first fault in text order (60_exceptions.md R292) -/

section
variable {σ : Type} {f : σ → Sym → Except Cause σ} {t : List Sym} {x : List Byte} {st st' : σ}
  (ht : ∀ y ∈ t, isScalar y = true) (hfold : t.foldlM f st = .ok st')
include ht hfold

theorem feed_invalid_after_text (hx : head x = .invalid) :
    feed f (textBytes t ++ x).length (textBytes t ++ x) st = .error .invalidUtf8 := by
  rw [feed_textBytes f ht x hfold, feed_step, hx]

theorem feed_error_after_text {y : Sym} {k : Nat} {c : Cause} (hx : head x = .complete y k) (hy : f st' y = .error c) :
    feed f (textBytes t ++ x).length (textBytes t ++ x) st = .error c := by
  rw [feed_textBytes f ht x hfold, feed_step, hx]
  simp only [hy]

end

/-! ### One rule per way a text command ends, in terms of the bytes it feeds: those kept, then its chunk -/

section
variable {s : State} {d bytes : List Byte} (hf : s.faulted = false)
include hf

theorem exec_ftUpd_of_ok {table : List (Sym × Nat)} {rest : List Byte} (hopen : s.ft.done = false)
    (hbytes : s.ft.inc ++ d = bytes)
    (hfeed : feed (countSym params) bytes.length bytes s.ft.table = .ok (table, rest)) :
    exec (.ftUpd d) s = .next (answer (BitVec.ofNat 32 rest.length) [] { s with ft := ⟨table, rest, false⟩ }) :=
  congrArg Host.Outcome.next
    (command_of_ok hf (by simp [State.countOpen, hopen]) (by rw [ftUpd, hbytes, hfeed, ← hopen]))

theorem exec_ftUpd_of_error {c : Cause} (hopen : s.ft.done = false) (hbytes : s.ft.inc ++ d = bytes)
    (hfeed : feed (countSym params) bytes.length bytes s.ft.table = .error c) :
    exec (.ftUpd d) s = .next (raise c s) :=
  congrArg Host.Outcome.next
    (command_of_error hf (by simp [State.countOpen, hopen]) (by rw [ftUpd, hbytes, hfeed]))

theorem exec_dcEupd_of_error {c : Cause} (henc : s.dc.encAct = true) (hbytes : s.dc.inc ++ d = bytes)
    (hfeed : feed (encodeSym params s.pg.pt) bytes.length bytes s.bw = .error c) :
    exec (.dcEupd d) s = .next (raise c s) :=
  congrArg Host.Outcome.next (command_of_error hf henc (by rw [dcEupd, hbytes, hfeed]))

end

/-! ### The counting pass -/

/-- Settles O29: the assembler hands over the text and keeps the rest (`feed_text`), and Count adds up (`countText`). -/
theorem countChunk : Obligations.CountChunk := by
  intro s d t rest hf hopen hok ht hrest hbytes hbound
  obtain ⟨table, hfold, htable, hcount⟩ := countText hok ht hbound
  have hfeed := feed_text (countSym params) ht hrest s.ft.table
  rw [hfold] at hfeed
  exact ⟨table, exec_ftUpd_of_ok hf hopen hbytes hfeed, htable, hcount⟩

/-- Settles O31: FT.END's own part looks at nothing but the kept bytes. -/
theorem endCount : Obligations.EndCount := by
  refine fun s hf hopen => ⟨fun hinc => ?ends, fun hinc => ?tail⟩
  all_goals
    have hseq : s.countOpen = true := by simp [State.countOpen, hopen]
    apply congrArg Host.Outcome.next
  case ends => exact command_of_ok hf hseq (if_pos hinc)
  case tail => exact command_of_error hf hseq (if_neg hinc)

/-- In an open pass the chunks one by one and all their bytes at once end alike: each is what the assembler makes of
the kept bytes and the chunks (`countChunks_spec`). -/
theorem countChunks_flatten (chunks : List (List Byte)) {s : State} (hf : s.faulted = false)
    (hopen : s.ft.done = false) (hinc : head s.ft.inc = .incomplete) :
    ∃ t t', runCommands (chunks.map execFtUpd ++ [execFtEnd]) s = .next t ∧
      runCommands [execFtUpd chunks.flatten, execFtEnd] s = .next t' ∧
      t.flt = t'.flt ∧ (t.faulted = false → t.ft = t'.ft) := by
  obtain ⟨t, hrun, hend⟩ := countChunks_spec chunks s hf hopen hinc
  obtain ⟨t', hrun', hend'⟩ := countChunks_spec [chunks.flatten] s hf hopen hinc
  refine ⟨t, t', hrun, hrun', ?_⟩
  have same_fault : ∀ c : Cause, t.flt = c.flt → t'.flt = c.flt →
      t.flt = t'.flt ∧ (t.faulted = false → t.ft = t'.ft) := fun c h h' =>
    ⟨h.trans h'.symm, fun hok => by rw [faulted_of_flt h] at hok; cases hok⟩
  rw [List.flatten_singleton] at hend'
  generalize feed (countSym params) (s.ft.inc ++ chunks.flatten).length (s.ft.inc ++ chunks.flatten) s.ft.table = o
    at hend hend'
  match o with
  | .error c => exact same_fault c hend hend'
  | .ok (table, rest) =>
    by_cases hrest : rest = []
    · simp only [if_pos hrest] at hend hend'
      rw [hend, hend']
      exact ⟨rfl, fun _ => rfl⟩
    · simp only [if_neg hrest] at hend hend'
      exact same_fault _ hend hend'

/-- Settles O33: FT.CLR is refused in both sequences, or opens the pass for both (`countChunks_flatten`). -/
theorem countChunkIndependence : Obligations.CountChunkIndependence := by
  intro s chunks
  cases hf : s.faulted with
  | true =>
    have hclr : execFtClr s = .next (refuse s) := congrArg Host.Outcome.next (command_of_faulted hf)
    exact ⟨refuse s, refuse s, runCommands_fault hclr hf, runCommands_fault hclr hf, rfl, fun _ => rfl⟩
  | false =>
    have hclr : execFtClr s = .next (answer 0 [] { s with ft := ⟨[], [], false⟩ }) :=
      congrArg Host.Outcome.next (command_of_ok hf rfl rfl)
    rw [runCommands_next hclr hf, runCommands_next hclr hf]
    exact countChunks_flatten chunks hf rfl rfl

/-! ### The faults of a text -/

/-- A scalar whose count is the greatest is not counted (41_frequency.md R156). -/
theorem countSym_overflow {t : List (Sym × Nat)} {y : Sym} (ht : tableOk t = true) (hy : isScalar y = true)
    (hc : countIn t y = 2 ^ params.weightW - 1) : countSym params t y = .error .weightOverflow := by
  rcases countSym_cases ht hy with ⟨hlt, _⟩ | ⟨_, h⟩
  · omega
  · exact h

theorem encodeSym_unknown {pt : List (Sym × Code)} {y : Sym} (p : Params) (w : BW) (hy : mapGet y pt = none) :
    encodeSym p pt w y = .error .symbolNotInTable := by
  rw [encodeSym, hy]

/-- A codeword that takes the content past MAX_BUF bytes is not written (40_bitstream.md R124). -/
theorem encodeSym_overflow {pt : List (Sym × Code)} {w : BW} {y : Sym} {c : Code} (hy : mapGet y pt = some c)
    (hfits : w.content.length / 8 ≤ params.maxBuf) (hover : params.maxBuf < (w.content.length + c.length) / 8) :
    encodeSym params pt w y = .error .sizeOverflow := by
  have hbuf : w.buf.length ≤ params.maxBuf := by rw [content_length] at hfits; omega
  rw [encodeSym, hy]
  exact writeAll_overflow hbuf (by rwa [msbBits_length])

/-- A text whose symbols all have entries and whose codewords fit is encoded (45_data_codec.md R233, R234). -/
theorem encodeText_ok {pt : List (Sym × Code)} {t : List Sym} {w : BW}
    (hknown : ∀ y ∈ t, (mapGet y pt).isSome = true)
    (hroom : (w.content.length + (encodedBits pt t).length) / 8 ≤ params.maxBuf) :
    ∃ w', t.foldlM (encodeSym params pt) w = .ok w' ∧
      w'.content.length = w.content.length + (encodedBits pt t).length := by
  obtain ⟨w', hw⟩ := writeAll_ok (encodedBits pt t) hroom
  exact ⟨w', (encodeText params w hknown).trans hw, by rw [writeAll_content hw, List.length_append]⟩

/-- Settles O30: the text is taken whole (`countText`, `encodeText_ok`); what stands behind it raises the fault. -/
theorem textFaults : Obligations.TextFaults := by
  refine fun s d t x hf ht => ⟨fun hopen hok hbytes hbound => ?_, fun henc hbytes hknown hroom => ?_⟩
  · obtain ⟨table, hfold, htable, hcount⟩ := countText hok ht hbound
    refine ⟨fun hx => exec_ftUpd_of_error hf hopen hbytes (feed_invalid_after_text ht hfold hx),
      fun y k hx hmax => exec_ftUpd_of_error hf hopen hbytes (feed_error_after_text ht hfold hx ?_)⟩
    exact countSym_overflow htable (head_complete hx).1 ((hcount y).trans hmax)
  · obtain ⟨w, hfold, hlen⟩ := encodeText_ok hknown hroom
    refine ⟨fun hx => exec_dcEupd_of_error hf henc hbytes (feed_invalid_after_text ht hfold hx),
      fun y k hx hy => exec_dcEupd_of_error hf henc hbytes (feed_error_after_text ht hfold hx ?absent),
      fun y k c hx hy hover => exec_dcEupd_of_error hf henc hbytes (feed_error_after_text ht hfold hx ?long)⟩
    case absent => exact encodeSym_unknown params w hy
    case long => exact encodeSym_overflow hy (by rwa [hlen]) (by rwa [hlen])

/-! ### The reads of the tables -/

/-- The big-endian bytes read on from a number `a`: they move it up and fill in the low digits (00_scope.md R8). -/
theorem foldl_beBytes (k n a : Nat) :
    (beBytes k n).foldl (fun a b => a * 256 + b.toNat) a = a * 256 ^ k + n % 256 ^ k := by
  induction k generalizing a with
  | zero => simp [beBytes, Nat.mod_one]
  | succ k ih =>
    rw [beBytes, List.foldl_cons, ih, BitVec.toNat_ofNat, Nat.mod_pow_succ (b := 256)]
    ring

theorem bigEndian_beBytes {k n : Nat} (h : n < 256 ^ k) : bigEndian (beBytes k n) = n := by
  rw [bigEndian, foldl_beBytes, Nat.zero_mul, Nat.zero_add, Nat.mod_eq_of_lt h]

/-- PG.RD, with no fault recorded and a prefix table, is its own part. -/
theorem exec_pgRd {s : State} (hf : s.faulted = false) (hv : s.pg.ptV = true) (v : Word) :
    exec (.pgRd v) s = .next (pgRd v s) :=
  congrArg Host.Outcome.next (command_of_ok hf hv rfl)

/-- Settles O32: eight big-endian bytes hold every count below 2^64, and PG.RD's own part looks the symbol up. -/
theorem tableReads : Obligations.TableReads := by
  refine fun s v hf => ⟨⟨beBytes 8 (countIn s.ft.table v), congrArg Host.Outcome.next (command_of_ok hf rfl rfl),
    beBytes_length _ _, fun hlt => bigEndian_beBytes hlt⟩, fun hv => ⟨fun c hc => ?_, fun hnone => ?_⟩⟩
  · rw [exec_pgRd hf hv, pgRd, hc]
  · rw [exec_pgRd hf hv, pgRd, hnone]

end Sys2Proof.Proofs
end

section
/-! PROOF. The family of 42_tree_builder.md: the key order, the merge step, and what TB.BUILD makes of a table. -/

namespace Sys2Proof.Proofs

open Sys2Proof Sys2Proof.Machine Sys2Proof.Config Sys2Proof.Safety

/-! ### The merge step -/

/-- The parent's key is new: the internal nodes in the queue were created before it (42_tree_builder.md R172). -/
theorem key_ne_internalKey {q : List Entry} {n : Nat} (h : ∀ e ∈ q, e.key.kind = 1 → e.key.tie < n) (w : Nat) :
    ∀ e ∈ q, e.key ≠ internalKey w n := by
  intro e he hk
  have htie := h e he (by rw [hk]; rfl)
  rw [hk] at htie
  exact lt_irrefl _ htie

theorem mergeStep_overflow {b : Build} {x y : Entry} {q : List Entry} (h : b.mq = x :: y :: q)
    (hover : 2 ^ params.weightW ≤ nodeWeight x.node + nodeWeight y.node) :
    mergeStep params b = .error .weightOverflow := by
  rw [mergeStep_eq h, if_pos hover]

/-- A merge step whose sum fits puts the parent of the first two entries back in key order (42_tree_builder.md R176). -/
theorem mergeStep_of_fits {b : Build} {x y : Entry} {q : List Entry} (h : b.mq = x :: y :: q)
    (hq : mqSorted q) (hnew : ∀ e ∈ q, e.key.kind = 1 → e.key.tie < b.seq.toNat)
    (hfits : nodeWeight x.node + nodeWeight y.node < 2 ^ params.weightW) :
    ∃ b', mergeStep params b = .ok b' ∧ mqSorted b'.mq ∧ b'.seq = b.seq + 1 ∧
      b'.mq.Perm (⟨.internal (nodeWeight x.node + nodeWeight y.node) x.node y.node,
        internalKey (nodeWeight x.node + nodeWeight y.node) b.seq.toNat⟩ :: q) :=
  ⟨_, by rw [mergeStep_eq h, if_neg hfits.not_ge], mqInsert_sorted hq (key_ne_internalKey hnew _), rfl,
    mqInsert_perm _ _⟩

/-- Settles O35: a sorted queue is its own witness, the two least entries in front. -/
theorem mergeTakesTwoLeast : Obligations.MergeTakesTwoLeast := by
  refine ⟨Key.lt_iff, fun b hsorted hlen hnew => ?_⟩
  match hmq : b.mq, hlen with
  | x :: y :: rest, _ =>
    rw [hmq] at hsorted hnew
    obtain ⟨hx, hsorted⟩ := List.pairwise_cons.mp hsorted
    obtain ⟨hy, hrest⟩ := List.pairwise_cons.mp hsorted
    have hnew' : ∀ e ∈ rest, e.key.kind = 1 → e.key.tie < b.seq.toNat := fun e he =>
      hnew e (List.mem_cons_of_mem _ (List.mem_cons_of_mem _ he))
    exact ⟨x, y, rest, List.Perm.refl _, hx, hy, mergeStep_overflow hmq, mergeStep_of_fits hmq hrest hnew'⟩

/-! ### The build -/

theorem tableOk_nodup {t : List (Sym × Nat)} (ht : tableOk t = true) : (t.map Prod.fst).Nodup :=
  mapSorted_nodup symRank ((tableOk_iff t).mp ht).1

/-- A completed build is the sorted queue of the leaves after one merge step fewer than there are symbols
(42_tree_builder.md R174, R175, R178). -/
theorem buildTree_mergeSteps {t : List (Sym × Nat)} {b : Build} (hn : (t.map Prod.fst).Nodup)
    (hb : buildTree params t = .ok b) :
    ∃ start, start.mq.Perm (leafQueue t) ∧ mqSorted start.mq ∧ start.seq = 0 ∧
      mergeSteps params (t.length - 1) start = .ok b := by
  obtain ⟨start, hload, hperm, hseq, hsorted⟩ := loadLeaves_spec t ⟨[], 0, 0⟩ hn List.Pairwise.nil nofun
  rw [List.append_nil] at hperm
  rw [buildTree, hload] at hb
  have hlen : start.mq.length = t.length := by rw [hperm.length_eq, List.length_map]
  exact ⟨start, hperm, hsorted, hseq, hlen ▸ mergeAll_steps hb (Nat.le_succ _)⟩

/-- Counts whose sum does not fit are not built (42_tree_builder.md R176). -/
theorem buildTree_overflow {t : List (Sym × Nat)} (ht : tableOk t = true)
    (hover : 2 ^ params.weightW ≤ totalCount t) : buildTree params t = .error .weightOverflow := by
  cases hb : buildTree params t with
  | ok b => exact absurd (buildTree_total ht hb) hover.not_gt
  | error c => rw [buildTree_error hb]

/-! ### TB.BUILD with no fault recorded, the table closed and no encode pass open -/

section
variable {s : State} (hf : s.faulted = false) (hd : s.ft.done = true) (he : s.dc.encAct = false)
include hf hd he

theorem exec_tbBuild_of_root {b : Build} {root : Entry} (h0 : s.ft.table ≠ [])
    (hb : buildTree params s.ft.table = .ok b) (hmq : b.mq = [root]) :
    exec .tbBuild s = .next (answer (BitVec.ofNat 32 s.ft.table.length) []
      { s with tb := ⟨some root.node, true, [], b.seq⟩, pg := { s.pg with ptV := false, iptV := false } }) :=
  congrArg Host.Outcome.next
    (command_of_ok hf (by simp [State.mayBuild, hd, he]) (by simp only [tbBuild, if_neg h0, hb, hmq, mqExtract]))

theorem exec_tbBuild_of_error {c : Cause} (ho : tbBuild params s = .error c) :
    exec .tbBuild s = .next (raise c s) :=
  congrArg Host.Outcome.next (command_of_error hf (by simp [State.mayBuild, hd, he]) ho)

end

/-- Settles O34: the build's laws (`buildTree_spec`) and its merge steps (`buildTree_mergeSteps`). -/
theorem buildTree : Obligations.BuildTree := by
  intro s hf hd he hok h0 htotal
  have hnodup := tableOk_nodup hok
  obtain ⟨-, hlen, -⟩ := (tableOk_iff _).mp hok
  obtain ⟨b, ⟨root, key⟩, hb, hmq, hleaves, hadds, hlighter, hseq⟩ := buildTree_spec hnodup h0 (by omega) htotal
  have hweight : nodeWeight root = totalCount s.ft.table :=
    (nodeWeight_eq hadds).trans (hleaves.map Prod.snd).sum_eq
  obtain ⟨start, hstart, hsorted, hzero, hsteps⟩ := buildTree_mergeSteps hnodup hb
  exact ⟨root, b.seq, exec_tbBuild_of_root hf hd he h0 hb hmq, hleaves, hadds, hlighter, hweight, hseq,
    start, b, key, hstart, hsorted, hzero, hsteps, hmq, rfl⟩

/-- Settles O36: the empty table is looked for first; a table whose total does not fit is not empty. -/
theorem buildFaults : Obligations.BuildFaults := by
  refine fun s hf hd he => ⟨fun hempty => ?empty, fun hok hover => ?overflow⟩
  all_goals apply exec_tbBuild_of_error hf hd he
  case empty => exact if_pos hempty
  case overflow =>
    have h0 : s.ft.table ≠ [] := by
      intro hempty
      rw [hempty] at hover
      exact absurd hover (Nat.two_pow_pos _).not_ge
    simp only [tbBuild, if_neg h0, buildTree_overflow hok hover]

end Sys2Proof.Proofs
end

section
/-! PROOF. The family of 43_prefix_table.md: the table of a tree, its faults, its laws and its inverse. -/

namespace Sys2Proof.Proofs

open Sys2Proof Sys2Proof.Machine Sys2Proof.Config Sys2Proof.Safety

/-! ### PG.GEN with no fault recorded, a tree and no encode pass open -/

section
variable {s : State} {n : Node} (hf : s.faulted = false) (hv : s.tb.treeV = true) (he : s.dc.encAct = false)
variable (hn : s.tb.tree = some n)
include hf hv he hn

theorem exec_pgGen_of_ok {table : List (Sym × Code)} (hg : genTable n = .ok table) :
    exec .pgGen s = .next (answer (BitVec.ofNat 32 table.length) []
      { s with pg := { s.pg with pt := table, ptV := true, iptV := false } }) :=
  congrArg Host.Outcome.next
    (command_of_ok hf (by simp [State.mayWalk, hv, he]) (by simp only [pgGen, hn, hg]))

theorem exec_pgGen_of_error {c : Cause} (hg : genTable n = .error c) : exec .pgGen s = .next (raise c s) :=
  congrArg Host.Outcome.next
    (command_of_error hf (by simp [State.mayWalk, hv, he]) (by simp only [pgGen, hn, hg]))

end

/-- The table has one entry per leaf (43_prefix_table.md R191). -/
theorem genTable_length {n : Node} {table : List (Sym × Code)} (h : genTable n = .ok table) :
    table.length = (leaves n).length := by
  have hsymbols : (codewords n).length = (leaves n).length := by
    simpa [symbols] using congrArg List.length (codewords_symbols n)
  rw [(genTable_ok h).2.length_eq, List.length_map, hsymbols]

/-- Settles O37: a shallow tree of distinct symbols has a table (`genTable_spec`), read by `genTable_get`. -/
theorem generateTable : Obligations.GenerateTable := by
  intro s n hf hv he hn hdepth hnodup
  obtain ⟨table, hg, hsorted, _⟩ := genTable_spec hnodup hdepth
  exact ⟨table, genTable_length hg ▸ exec_pgGen_of_ok hf hv he hn hg, hsorted, genTable_get hg⟩

/-! ### The faults of the walk, for a root that may be a leaf -/

theorem genTable_too_deep {n : Node} (hdepth : 32 < depth n) (hnodup : (symbols n).Nodup) :
    genTable n = .error .codeTooLong := by
  cases hg : genTable n with
  | ok table => exact absurd (genTable_inv hg).2 hdepth.not_ge
  | error c =>
    cases n with
    | leaf s w => cases hg
    | internal w l r => rw [walk_error_of_nodup hg hnodup (fun _ _ => rfl) (by omega)]

theorem genTable_repeated_symbol {n : Node} (hdepth : depth n ≤ 32) (hrepeat : ¬ (symbols n).Nodup) :
    genTable n = .error .duplicateSymbol := by
  cases hg : genTable n with
  | ok table => exact absurd (genTable_inv hg).1 hrepeat
  | error c =>
    cases n with
    | leaf s w => cases hg
    | internal w l r => rw [walk_error_of_depth hg (by omega)]

/-- The first bad visit in pre-order decides the fault (60_exceptions.md R292). A root that is a leaf has one visit,
and it is not bad. -/
theorem genTable_stops {n : Node} {before after : List Visit} {v : Visit} (hv : visits n 0 = before ++ v :: after)
    (hb : visitsClean before) :
    (∀ k, v = .node k → 32 ≤ k → genTable n = .error .codeTooLong) ∧
    (∀ x, v = .leaf x → .leaf x ∈ before → genTable n = .error .duplicateSymbol) := by
  cases n with
  | leaf s w =>
    obtain ⟨rfl, hcons⟩ := (List.append_eq_singleton_iff.mp hv.symm).resolve_right (by simp)
    cases hcons
    exact ⟨nofun, fun x _ hx => absurd hx List.not_mem_nil⟩
  | internal w l r =>
    obtain ⟨hdeep, hrepeat⟩ := walk_stops (c := 0) (m := []) (Nat.zero_le 32) hv hb fun _ _ => rfl
    exact ⟨hdeep, fun x hx hmem => hrepeat x hx (.inl (List.mem_filterMap.mpr ⟨_, hmem, rfl⟩))⟩

/-- Settles O38: PG.GEN raises what the walk ends with. -/
theorem generateFaults : Obligations.GenerateFaults := by
  intro s n hf hv he hn
  have hraise : ∀ {c : Cause}, genTable n = .error c → exec .pgGen s = .next (raise c s) :=
    exec_pgGen_of_error hf hv he hn
  refine ⟨fun hdepth hnodup => hraise (genTable_too_deep hdepth hnodup),
    fun hdepth hrepeat => hraise (genTable_repeated_symbol hdepth hrepeat), fun before v after hvisits hclean => ?_⟩
  obtain ⟨hdeep, hrepeat⟩ := genTable_stops hvisits hclean
  exact ⟨fun k hk h32 => hraise (hdeep k hk h32), fun x hx hmem => hraise (hrepeat x hx hmem)⟩

/-! ### The laws of a generated table -/

/-- The codewords of a tree fill the code space, but a root that is a leaf fills half (43_prefix_table.md R198 (c)). -/
theorem codewords_kraft {n : Node} (hd : depth n ≤ 32) :
    ((codewords n).map fun e => 2 ^ (32 - e.2.length)).sum = if (leaves n).length = 1 then 2 ^ 31 else 2 ^ 32 := by
  cases n with
  | leaf s w => simp [codewords, leaves]
  | internal w l r =>
    have hleaves : (leaves (.internal w l r)).length ≠ 1 := by
      have := leaves_length_pos l
      have := leaves_length_pos r
      rw [leaves, List.length_append]
      omega
    rw [if_neg hleaves]
    exact paths_kraft _ 32 hd

/-- A codeword is as long as its leaf is deep, and at least 1 (43_prefix_table.md R198 (d)). -/
theorem codewords_path {n : Node} {x : Sym} {word : List Bool} (h : (x, word) ∈ codewords n) :
    ∃ path, (x, path) ∈ paths n ∧ word.length = max path.length 1 := by
  cases n with
  | leaf s w =>
    cases List.mem_singleton.mp h
    exact ⟨[], List.mem_singleton.mpr rfl, rfl⟩
  | internal w l r =>
    have hlong : 1 ≤ word.length := by
      simp only [codewords, paths, List.mem_append, List.mem_map, Prod.mk.injEq] at h
      rcases h with ⟨_, _, _, rfl⟩ | ⟨_, _, _, rfl⟩ <;> simp
    exact ⟨word, h, (max_eq_left hlong).symm⟩

/-- The table does not depend on the weights (43_prefix_table.md R198 (e)). -/
theorem genTable_forgetWeights (n : Node) : genTable (forgetWeights n) = genTable n := by
  cases n with
  | leaf s w => rfl
  | internal w l r => exact walk_forgetWeights (.internal w l r) 0 0 []

section
variable {n : Node} {table : List (Sym × Code)} (h : genTable n = .ok table)
include h

theorem genTable_prefixFree {a b : Sym} {ca cb : Code} (hab : a ≠ b) (ha : mapGet a table = some ca)
    (hb : mapGet b table = some cb) : ¬ codeBits ca <+: codeBits cb := by
  obtain ⟨p, hp, rfl⟩ := (genTable_get h a ca).mp ha
  obtain ⟨q, hq, rfl⟩ := (genTable_get h b cb).mp hb
  have hd := (genTable_inv h).2
  rw [codeBits_codeOf (codewords_length hd hp).2, codeBits_codeOf (codewords_length hd hq).2]
  exact (codewords_apart_of_ne hp hq fun e => hab (congrArg Prod.fst e)).1

theorem genTable_code_bounds {a : Sym} {c : Code} (ha : mapGet a table = some c) :
    1 ≤ c.length ∧ c.length ≤ 32 ∧ c.code.toNat < 2 ^ c.length := by
  obtain ⟨p, hp, rfl⟩ := (genTable_get h a c).mp ha
  obtain ⟨h1, h32⟩ := codewords_length (genTable_inv h).2 hp
  exact ⟨h1, h32, codeOf_lt p⟩

theorem genTable_kraft :
    (table.map fun e => 2 ^ (32 - e.2.length)).sum = if (leaves n).length = 1 then 2 ^ 31 else 2 ^ 32 := by
  rw [((genTable_ok h).2.map _).sum_eq, List.map_map]
  exact codewords_kraft (genTable_inv h).2

theorem genTable_codeLength_eq_depth {a : Sym} {c : Code} (ha : mapGet a table = some c) :
    ∃ path, (a, path) ∈ paths n ∧ c.length = max path.length 1 := by
  obtain ⟨p, hp, rfl⟩ := (genTable_get h a c).mp ha
  exact codewords_path hp

end

/-- Settles O39: each law is that law of the tree's codewords, which the table lists (`genTable_get`). -/
theorem tableLaws : Obligations.TableLaws := fun n _ h =>
  ⟨fun _ _ _ _ => genTable_prefixFree h, fun _ _ => genTable_code_bounds h, genTable_kraft h,
    fun _ _ => genTable_codeLength_eq_depth h, (genTable_forgetWeights n).trans h⟩

/-! ### PG.INV with no fault recorded and a prefix table -/

/-- A table that gives two symbols one code is not inverted (43_prefix_table.md R195). -/
theorem invertTable_of_repeated_code {table : List (Sym × Code)} {x y : Sym} {c : Code} (hxy : x ≠ y)
    (hx : mapGet x table = some c) (hy : mapGet y table = some c) :
    invertTable table [] = .error .duplicateCode := by
  cases hi : invertTable table [] with
  | ok inv =>
    have hsame : (x, c) = (y, c) :=
      List.inj_on_of_nodup_map (invertTable_nodup hi).1 (mem_of_mapGet hx) (mem_of_mapGet hy) rfl
    exact absurd (congrArg Prod.fst hsame) hxy
  | error e => rw [invertTable_error hi]

/-- Settles O40: a generated table is inverted (`invert_genTable`); a repeated code stops the inversion. -/
theorem invertTable : Obligations.InvertTable := by
  refine fun s hf hv => ⟨fun hpg => ?generated, fun _ ⟨x, y, c, hxy, hx, hy⟩ => ?repeated⟩
  case generated =>
    obtain ⟨n, _, hg⟩ := hpg.1 hv
    obtain ⟨inv, hi, hsorted, hget⟩ := invert_genTable hg
    exact ⟨inv, congrArg Host.Outcome.next (command_of_ok hf hv (by simp only [pgInv, hi])), hsorted, hget⟩
  case repeated =>
    have hi := invertTable_of_repeated_code hxy hx hy
    exact congrArg Host.Outcome.next (command_of_error hf hv (by simp only [pgInv, hi]))

end Sys2Proof.Proofs
end

section
/-! PROOF. The family of 44_tree_header.md: a tree's header, the tree of a header, and the round trip. -/

namespace Sys2Proof.Proofs

open Sys2Proof Sys2Proof.Machine Sys2Proof.Config Sys2Proof.Safety

/-! ### Bits written to a clear writer and flushed -/

/-- A good writer with no pending bits is its buffer: the accumulator is 0 too (40_bitstream.md R128 (d)). -/
theorem eq_of_no_pending {w : BW} (hw : bwOk w = true) (h0 : w.cnt.val = 0) : w = ⟨0, 0, w.buf⟩ := by
  obtain ⟨acc, cnt, buf⟩ := w
  obtain rfl : cnt = 0 := Fin.ext h0
  have hacc : acc.toNat < 1 := ((bwOk_iff _).mp hw).1
  obtain rfl : acc = 0 := BitVec.eq_of_toNat_eq (Nat.lt_one_iff.mp hacc)
  rfl

/-- When bits written to a clear writer and flushed complete, WBUF is the bits packed, within MAX_BUF, and nothing is
pending. -/
theorem writeAll_flush_packs {bits : List Bool} {w : BW}
    (h : (BW.clear.writeAll params bits).bind (BW.flush params) = .ok w) :
    w = ⟨0, 0, packBits bits⟩ ∧ (packBits bits).length ≤ params.maxBuf := by
  obtain ⟨w1, hwrite, hflush⟩ := bind_ok h
  have hok : bwOk w = true := flush_bwOk (writeAll_bwOk clear_bwOk hwrite) hflush
  have hcontent : w1.content = bits := by simpa using writeAll_content hwrite
  have hbuf : w.buf = packBits bits := by
    apply bitsOfBytes_injective
    rw [flush_bits hflush, hcontent, padding, bitsOfBytes_packBits]
  exact hbuf ▸ ⟨eq_of_no_pending hok (flush_content hflush).2, ((bwOk_iff w).mp hok).2⟩

theorem writeAll_flush_error {bits : List Bool} {c : Cause}
    (h : (BW.clear.writeAll params bits).bind (BW.flush params) = .error c) : c = .sizeOverflow := by
  rcases bind_error h with hwrite | ⟨w1, _, hflush⟩
  · exact writeAll_error hwrite
  · exact flush_error hflush

theorem writeAll_flush_of_fits {bits : List Bool} (hfits : bits.length ≤ 8 * params.maxBuf) :
    (BW.clear.writeAll params bits).bind (BW.flush params) = .ok ⟨0, 0, packBits bits⟩ := by
  have hbytes : (BW.clear.content.length + bits.length) / 8 ≤ params.maxBuf := by
    rw [content_clear, List.length_nil]
    omega
  obtain ⟨w1, hwrite⟩ := writeAll_ok bits hbytes
  have hcontent : w1.content = bits := by simpa using writeAll_content hwrite
  obtain ⟨w, hflush⟩ := flush_ok (hcontent.symm ▸ hfits)
  have hbind : (BW.clear.writeAll params bits).bind (BW.flush params) = .ok w := by rw [hwrite]; exact hflush
  rw [hbind, (writeAll_flush_packs hbind).1]

/-- Bits that are more than MAX_BUF bytes overflow, whether the writes or the flush pass the limit. -/
theorem writeAll_flush_overflow {bits : List Bool} (hover : 8 * params.maxBuf < bits.length) :
    (BW.clear.writeAll params bits).bind (BW.flush params) = .error .sizeOverflow := by
  cases h : (BW.clear.writeAll params bits).bind (BW.flush params) with
  | error c => rw [writeAll_flush_error h]
  | ok w =>
    have hmax := (writeAll_flush_packs h).2
    rw [packBits_length, byteCount] at hmax
    omega

/-! ### HC.SER with no fault recorded, a tree and no encode pass open -/

/-- The size of a header in bytes: `ceil((34 A - 1) / 8)` for A leaves (44_tree_header.md R214). -/
theorem packBits_tokens_length (n : Node) : (packBits (tokens n)).length = (34 * (leaves n).length - 1 + 7) / 8 := by
  rw [packBits_length, byteCount, ← tokens_length n, Nat.add_sub_cancel]

section
variable {s : State} {n : Node} (hf : s.faulted = false) (hv : s.tb.treeV = true) (he : s.dc.encAct = false)
variable (hn : s.tb.tree = some n)
include hf hv he hn

theorem exec_hcSer_of_fits (hfits : (tokens n).length ≤ 8 * params.maxBuf) :
    exec .hcSer s = .next (answer (BitVec.ofNat 32 (packBits (tokens n)).length) (packBits (tokens n))
      { s with bw := ⟨0, 0, packBits (tokens n)⟩ }) :=
  congrArg Host.Outcome.next (command_of_ok hf (by simp [State.mayWalk, hv, he])
    (by simp only [hcSer, hn, serialise_eq, writeAll_flush_of_fits hfits]))

theorem exec_hcSer_overflow (hover : 8 * params.maxBuf < (tokens n).length) :
    exec .hcSer s = .next (raise .sizeOverflow s) :=
  congrArg Host.Outcome.next (command_of_error hf (by simp [State.mayWalk, hv, he])
    (by simp only [hcSer, hn, serialise_eq, writeAll_flush_overflow hover]))

end

/-- Settles O41: the header is the tokens packed; the limit is met exactly when they are `8 * MAX_BUF` bits or fewer. -/
theorem serialiseHeader : Obligations.SerialiseHeader := fun _ n hf hv he hn =>
  ⟨fun hfits => ⟨packBits (tokens n), exec_hcSer_of_fits hf hv he hn hfits, bitsOfBytes_packBits (tokens n),
    packBits_tokens_length n⟩, exec_hcSer_overflow hf hv he hn⟩

/-! ### HC.DES with no fault recorded and no encode pass open -/

section
variable {s : State} {d : List Byte} (hf : s.faulted = false) (he : s.dc.encAct = false)
include hf he

theorem exec_hcDes_of_ok {n : Node} {r : BR} (hd : desHeader params d = .ok (n, r)) :
    exec (.hcDes d) s = .next (answer 0 []
      { s with
        br := r
        tb := { s.tb with tree := some n, treeV := true }
        pg := { s.pg with ptV := false, iptV := false } }) :=
  congrArg Host.Outcome.next (command_of_ok hf (by simp [State.writerFree, he]) (by simp only [hcDes, hd]))

theorem exec_hcDes_of_error {c : Cause} (hd : desHeader params d = .error c) :
    exec (.hcDes d) s = .next (raise c s) :=
  congrArg Host.Outcome.next (command_of_error hf (by simp [State.writerFree, he]) (by simp only [hcDes, hd]))

/-- A fault that HC.DES records is one of the rebuild's two (44_tree_header.md R219, R220). -/
theorem hcDes_fault {t : State} (hlen : d.length ≤ params.maxBuf) (hexec : exec (.hcDes d) s = .next t)
    (ht : t.faulted = true) : t.flt = Cause.headerTruncated.flt ∨ t.flt = Cause.invalidScalar.flt := by
  cases hd : desHeader params d with
  | ok o =>
    rw [exec_hcDes_of_ok hf he hd] at hexec
    cases hexec
    exact absurd (ht.symm.trans hf) (by decide)
  | error c =>
    rw [exec_hcDes_of_error hf he hd] at hexec
    cases hexec
    exact (desHeader_error hlen hd).imp (congrArg Cause.flt) (congrArg Cause.flt)

end

/-- Settles O42: the rebuild reads back the tokens and stops after them (`desHeader_tokens`). -/
theorem deserialiseHeader : Obligations.DeserialiseHeader := by
  intro s d n rest hf he hlen hscalar hbits
  obtain ⟨r, hd, hunread, hr, hbuf⟩ := desHeader_tokens hlen hscalar hbits
  exact ⟨r, exec_hcDes_of_ok hf he hd, hr, hbuf, hunread⟩

/-- Settles O43: the first token that stops the rebuild decides its fault (`desHeader_stops`). -/
theorem headerFaults : Obligations.HeaderFaults := by
  refine fun s d hf he hlen => ⟨fun n before tok after part htokens hscalar hpart hne hbits => ?truncated,
    fun n before x after rest htokens hscalar hx hbits => ?invalid, fun t => hcDes_fault hf he hlen⟩
  all_goals apply exec_hcDes_of_error hf he
  case truncated => exact desHeader_stops hlen htokens hscalar hbits (.inl ⟨hpart, hne, rfl⟩)
  case invalid => exact desHeader_stops hlen htokens hscalar hbits (.inr ⟨x, rest, rfl, hx, rfl, rfl⟩)

/-! ### The round trip (44_tree_header.md R224) -/

/-- The bits before the cursor of an accepted header are the tokens of its tree (44_tree_header.md R222). -/
theorem desHeader_consumed {d : List Byte} {n : Node} {r : BR} (hlen : d.length ≤ params.maxBuf)
    (h : desHeader params d = .ok (n, r)) :
    (bitsOfBytes d).take (8 * r.byte.toNat + r.bit.val) = tokens n := by
  obtain ⟨hbits, _, _, _, rfl⟩ := desHeader_ok hlen h
  exact List.append_cancel_right ((List.take_append_drop _ _).trans hbits)

/-- The tokens of an accepted header are no longer than the header, so they fit in WBUF. -/
theorem desHeader_fits {d : List Byte} {n : Node} {r : BR} (hlen : d.length ≤ params.maxBuf)
    (h : desHeader params d = .ok (n, r)) : (tokens n).length ≤ 8 * params.maxBuf :=
  calc (tokens n).length
    _ ≤ (bitsOfBytes d).length := by rw [← desHeader_consumed hlen h]; exact List.length_take_le' _ _
    _ = 8 * d.length := bitsOfBytes_length d
    _ ≤ 8 * params.maxBuf := Nat.mul_le_mul_left 8 hlen

/-- HC.DES of what HC.SER answered gives the tree back, its weights 0. -/
theorem hcDes_of_hcSer {s t : State} {n : Node} (hn : s.tb.tree = some n) (hscalar : scalarLeaves n = true)
    (hser : exec .hcSer s = .next t) (ht : t.faulted = false) :
    ∃ u, exec (.hcDes (lastResponse t).data) t = .next u ∧ u.faulted = false ∧
      u.tb.tree = some (forgetWeights n) := by
  obtain ⟨_, hpre, hown⟩ := exec_completed (i := .hcSer) rfl nofun nofun hser ht
  have he : s.dc.encAct = false := by simpa using (Bool.and_eq_true_iff.mp hpre).2
  obtain ⟨m, w, hm, hw, rfl⟩ := hcSer_ok hown
  obtain rfl : n = m := Option.some.inj (hn.symm.trans hm)
  obtain ⟨rfl, hmax⟩ := writeAll_flush_packs hw
  obtain ⟨r, hd, _⟩ := desHeader_tokens hmax hscalar (bitsOfBytes_packBits (tokens n))
  rw [lastResponse_answer]
  exact ⟨_, exec_hcDes_of_ok ht he hd, ht, rfl⟩

/-- HC.SER of the tree that HC.DES made of a header answers the bits that HC.DES consumed, packed. -/
theorem hcSer_of_hcDes {s t : State} {d : List Byte} (hlen : d.length ≤ params.maxBuf)
    (hdes : exec (.hcDes d) s = .next t) (ht : t.faulted = false) :
    ∃ u, exec .hcSer t = .next u ∧ u.faulted = false ∧
      (lastResponse u).data = packBits ((bitsOfBytes d).take (8 * t.br.byte.toNat + t.br.bit.val)) := by
  obtain ⟨_, hpre, hown⟩ := exec_completed (i := .hcDes d) rfl nofun nofun hdes ht
  have he : s.dc.encAct = false := by simpa [precondition] using hpre
  obtain ⟨n, r, hd, rfl⟩ := hcDes_ok hown
  refine ⟨_, exec_hcSer_of_fits ht rfl he rfl (desHeader_fits hlen hd), ht, ?_⟩
  rw [lastResponse_answer]
  exact congrArg packBits (desHeader_consumed hlen hd).symm

/-- Settles O44: HC.SER answers the tokens packed, and HC.DES stops where the tokens of its tree end. -/
theorem headerRoundTrip : Obligations.HeaderRoundTrip :=
  ⟨fun _ _ _ _ hn hscalar => hcDes_of_hcSer hn hscalar, fun _ _ _ _ hlen => hcSer_of_hcDes hlen⟩

end Sys2Proof.Proofs
end

section
/-! PROOF. The family of 45_data_codec.md: the encode pass, the decode of a payload and its faults, and the round trip. -/

namespace Sys2Proof.Proofs

open Sys2Proof Sys2Proof.Machine Sys2Proof.Config Sys2Proof.Safety

/-! ### The encode pass with no fault recorded -/

section
variable {s : State} (hf : s.faulted = false) (henc : s.dc.encAct = true)
include hf henc

theorem exec_dcEupd_of_ok {d bytes rest : List Byte} {w : BW} (hbytes : s.dc.inc ++ d = bytes)
    (hfeed : feed (encodeSym params s.pg.pt) bytes.length bytes s.bw = .ok (w, rest)) :
    exec (.dcEupd d) s =
      .next (answer (BitVec.ofNat 32 rest.length) [] { s with bw := w, dc := { s.dc with inc := rest } }) :=
  congrArg Host.Outcome.next (command_of_ok hf henc (by rw [dcEupd, hbytes, hfeed]))

theorem exec_dcEend_of_ok {w : BW} (hinc : s.dc.inc = []) (hclose : closePayload params s.bw = .ok w) :
    exec .dcEend s =
      .next (answer (BitVec.ofNat 32 w.buf.length) w.buf { s with bw := w, dc := { s.dc with encAct := false } }) :=
  congrArg Host.Outcome.next (command_of_ok hf henc (by rw [dcEend, if_pos hinc, hclose]))

theorem exec_dcEend_of_error {c : Cause} (hinc : s.dc.inc = []) (hclose : closePayload params s.bw = .error c) :
    exec .dcEend s = .next (raise c s) :=
  congrArg Host.Outcome.next (command_of_error hf henc (by rw [dcEend, if_pos hinc, hclose]))

theorem exec_dcEend_of_tail (hinc : s.dc.inc ≠ []) : exec .dcEend s = .next (raise .incompleteTail s) :=
  congrArg Host.Outcome.next (command_of_error hf henc (if_neg hinc))

end

/-- Settles O45: the assembler hands over the text (`feed_text`), which is written codeword by codeword (`encodeText`). -/
theorem encodeChunk : Obligations.EncodeChunk := by
  intro s d t rest hf henc hscalar hrest hbytes hknown hroom
  obtain ⟨w, hw⟩ := writeAll_ok (encodedBits s.pg.pt t) hroom
  have hfeed := feed_text (encodeSym params s.pg.pt) hscalar hrest s.bw
  rw [encodeText params s.bw hknown, hw] at hfeed
  exact ⟨w, exec_dcEupd_of_ok hf henc hbytes hfeed, writeAll_content hw⟩

/-- A payload that fits is closed as 45_data_codec.md R238 lays it out. -/
theorem closePayload_isPayload {w : BW} (hfits : w.content.length + 8 ≤ 8 * params.maxBuf) :
    ∃ w', closePayload params w = .ok w' ∧ isPayload w.content w'.buf ∧ w'.cnt = 0 := by
  obtain ⟨w', body, hclose, hbuf, hbits, hcnt⟩ := closePayload_spec hfits
  exact ⟨w', hclose, ⟨body, cnt_eq_content_mod w ▸ hbuf, hbits⟩, hcnt⟩

/-- Settles O46: the close fits or overflows (`closePayload_isPayload`, `closePayload_overflow`); kept bytes come first. -/
theorem endEncode : Obligations.EndEncode := by
  refine fun s hf henc => ⟨fun hinc hfits => ?_, fun hinc hover => ?_, exec_dcEend_of_tail hf henc⟩
  · obtain ⟨w, hclose, hpayload, hcnt⟩ := closePayload_isPayload hfits
    exact ⟨w, exec_dcEend_of_ok hf henc hinc hclose, hpayload, hcnt⟩
  · exact exec_dcEend_of_error hf henc hinc (closePayload_overflow hover)

/-! ### The control byte and the bits it admits (45_data_codec.md R241, R243) -/

theorem ctrlOperand_of_le {k : Byte} (hk : k.toNat ≤ 8) : ctrlOperand k = .ok (if k = 0 then 8 else k.toNat) := by
  unfold ctrlOperand
  split_ifs
  · rfl
  · omega
  · rfl

theorem ctrlOperand_of_gt {k : Byte} (hk : 8 < k.toNat) : ctrlOperand k = .error .badControl := by
  have hk0 : k ≠ 0 := by rintro rfl; exact absurd hk (by decide)
  rw [ctrlOperand, if_neg hk0, if_pos hk]

/-- A legal control byte never counts more bits than the data bytes have. -/
theorem decodedBits_length {k : Byte} (hk : k.toNat ≤ 8) (body : List Byte) :
    (decodedBits body k).length = meaningfulBits (body.length + 1) (if k = 0 then 8 else k.toNat) := by
  apply List.length_take_of_le
  rw [bitsOfBytes_length]
  unfold meaningfulBits
  split_ifs <;> omega

/-- The data bytes are the decoded bits and what stands behind them. -/
theorem bitsOfBytes_eq_decodedBits_append (body : List Byte) (k : Byte) :
    bitsOfBytes body = decodedBits body k ++ (bitsOfBytes body).drop (decodedBits body k).length :=
  List.prefix_append_drop (List.take_prefix _ _)

/-- The control byte of a payload is legal (45_data_codec.md R238). -/
theorem controlByte_le (c : Fin 8) : (BitVec.ofNat 8 (controlValue c.val)).toNat ≤ 8 := by
  revert c
  decide

/-! ### DC.DEC's own part on data bytes and a control byte -/

/-- The end of a decode: an accumulator that is not empty is a symbol cut short (45_data_codec.md R246). -/
def endDecode (o : BR × Code × List Byte) : Except Cause (List Byte × BR) :=
  if o.2.1.length = 0 then .ok (o.2.2, o.1) else .error .exhaustedMidSymbol

theorem endDecode_of_empty (r : BR) (out : List Byte) : endDecode (r, codeOf [], out) = .ok (out, r) := rfl

theorem endDecode_of_left {left : List Bool} (h : left ≠ []) (r : BR) (out : List Byte) :
    endDecode (r, codeOf left, out) = .error .exhaustedMidSymbol :=
  if_neg (mt List.eq_nil_of_length_eq_zero h)

theorem endDecode_ok {left : List Bool} {r r' : BR} {out out' : List Byte}
    (h : endDecode (r, codeOf left, out) = .ok (out', r')) : left = [] ∧ out' = out := by
  by_cases hleft : left = []
  · subst hleft
    cases h
    exact ⟨rfl, rfl⟩
  · rw [endDecode_of_left hleft] at h
    cases h

theorem decodePayload_nil (ipt : List (Code × Sym)) : decodePayload params ipt [] = .error .payloadTooShort := rfl

theorem decodePayload_badControl (ipt : List (Code × Sym)) (body : List Byte) {k : Byte} (hk : 8 < k.toNat) :
    decodePayload params ipt (body ++ [k]) = .error .badControl := by
  simp only [decodePayload, List.getLast?_concat, ctrlOperand_of_gt hk]

/-- A legal control byte: the matching loop over the decoded bits, then the check of the accumulator. -/
theorem decodePayload_eq_bind (ipt : List (Code × Sym)) (body : List Byte) {k : Byte} (hk : k.toNat ≤ 8) :
    decodePayload params ipt (body ++ [k]) =
      (decodeBits params ipt (decodedBits body k).length (BR.load body) (codeOf []) []).bind endDecode := by
  simp only [decodePayload, List.getLast?_concat, ctrlOperand_of_le hk, List.length_append, List.length_singleton,
    List.dropLast_concat, decodedBits_length hk]
  rw [show (⟨0, 0⟩ : Code) = codeOf [] from rfl]
  cases decodeBits params ipt (meaningfulBits (body.length + 1) (if k = 0 then 8 else k.toNat)) (BR.load body)
      (codeOf []) [] <;> rfl

section
variable {s : State} {d : List Byte} (hf : s.faulted = false) (hv : s.pg.iptV = true)
include hf hv

theorem exec_dcDec_of_ok {out : List Byte} {r : BR} (h : decodePayload params s.pg.ipt d = .ok (out, r)) :
    exec (.dcDec d) s = .next (answer 0 out { s with br := r, dc := { s.dc with daccCode := 0, daccLen := 0 } }) :=
  congrArg Host.Outcome.next (command_of_ok hf hv (by rw [dcDec, h]))

theorem exec_dcDec_of_error {c : Cause} (h : decodePayload params s.pg.ipt d = .error c) :
    exec (.dcDec d) s = .next (raise c s) :=
  congrArg Host.Outcome.next (command_of_error hf hv (by rw [dcDec, h]))

end

/-- Under a single-symbol table bits that begin with a `1` match nothing, however many are looked at
(45_data_codec.md R245). -/
theorem inverse_single_take {x : Sym} {w : Nat} {ipt : List (Code × Sym)} (hi : inverseOf (.leaf x w) ipt)
    {bits : List Bool} (hlen : bits.length < 32) (j : Nat) (hj : 1 ≤ j) :
    mapGet (codeOf ([] ++ (true :: bits).take j)) ipt = none := by
  obtain ⟨i, rfl⟩ : ∃ i, j = i + 1 := ⟨j - 1, by omega⟩
  exact inverse_single hi ((List.length_take_le' _ _).trans_lt hlen)

/-! ### Decoding a payload whose bits begin with a text's codewords -/

section
variable {n : Node} {g : PG} {t : List Sym} {body : List Byte} {k : Byte} {more : List Bool}
  (htables : tablesOf n g) (hbody : body.length < params.maxBuf) (hk : k.toNat ≤ 8)
  (hknown : ∀ x ∈ t, (mapGet x g.pt).isSome = true) (htext : (textBytes t).length ≤ params.maxBuf)
  (hbits : decodedBits body k = encodedBits g.pt t ++ more)
include htables hbody hk hknown htext hbits

/-- The matching loop turns the codewords into the text and goes on with what follows them. -/
theorem decodePayload_after_text :
    ∃ r, r.unread = more ++ (bitsOfBytes body).drop (decodedBits body k).length ∧ brOk r = true ∧ r.buf = body ∧
      decodePayload params g.ipt (body ++ [k]) =
        (decodeBits params g.ipt more.length r (codeOf []) (textBytes t)).bind endDecode := by
  obtain ⟨hgen, hinv⟩ := htables
  obtain ⟨l, hl, hsyms, hwords⟩ := encodedBits_codewords hgen hknown
  have hload : (BR.load body).unread =
      l.flatMap Prod.snd ++ (more ++ (bitsOfBytes body).drop (decodedBits body k).length) := by
    rw [load_unread, hwords, ← List.append_assoc, ← hbits]
    exact bitsOfBytes_eq_decodedBits_append body k
  obtain ⟨r, hunread, hr, hbuf, hdec⟩ := decodeBits_text (inverse_of_tables hgen hinv) (genTable_inv hgen).2 l hl
    (load_brOk body hbody.le) hload more.length [] (by simpa [hsyms] using htext)
  refine ⟨r, hunread, hr, hbuf, ?_⟩
  have hlen : (decodedBits body k).length = (l.flatMap Prod.snd).length + more.length := by
    rw [hbits, List.length_append, hwords]
  rw [decodePayload_eq_bind g.ipt body hk, hlen, show codeOf [] = (⟨0, 0⟩ : Code) from rfl, hdec, hsyms,
    List.nil_append]

/-- Bits that end inside a codeword (45_data_codec.md R246). -/
theorem decodePayload_midSymbol {x : Sym} {q : List Bool} (hx : (x, more ++ q) ∈ codewords n) (hq : q ≠ [])
    (hmore : more ≠ []) : decodePayload params g.ipt (body ++ [k]) = .error .exhaustedMidSymbol := by
  obtain ⟨r, hunread, hr, _, hdec⟩ := decodePayload_after_text htables hbody hk hknown htext hbits
  obtain ⟨r', hpart⟩ := decodeBits_partial (p := []) (inverse_of_tables htables.1 htables.2)
    (genTable_inv htables.1).2 hx hq hr hunread (textBytes t)
  rw [hdec, hpart]
  exact endDecode_of_left hmore r' _

/-- A codeword whose symbol takes the text over MAX_BUF (45_data_codec.md R241). -/
theorem decodePayload_overflow {x : Sym} {c : Code} {bits : List Bool} (hx : mapGet x g.pt = some c)
    (hmore : more = codeBits c ++ bits) (hover : params.maxBuf < (textBytes t).length + (utf8Enc x).length) :
    decodePayload params g.ipt (body ++ [k]) = .error .sizeOverflow := by
  obtain ⟨r, hunread, hr, _, hdec⟩ := decodePayload_after_text htables hbody hk hknown htext hbits
  obtain ⟨hgen, hinv⟩ := htables
  have hd := (genTable_inv hgen).2
  obtain ⟨word, hword, rfl⟩ := (genTable_get hgen x c).mp hx
  rw [codeBits_codeOf (codewords_length hd hword).2] at hmore
  rw [hmore, List.append_assoc] at hunread
  have hloop := decodeBits_overflow (inverse_of_tables hgen hinv) hd hword hr hunread bits.length (textBytes t) hover
  rw [hdec, hmore, List.length_append, show codeOf [] = (⟨0, 0⟩ : Code) from rfl, hloop]
  rfl

section
variable {x : Sym} {w : Nat} {bits : List Bool} (hn : n = .leaf x w) (hmore : more = true :: bits)
include hn hmore

/-- Under a single-symbol table a `1` and 31 bits after it fill the accumulator without a match (45_data_codec.md R245). -/
theorem decodePayload_single_noMatch (hlong : 31 ≤ bits.length) :
    decodePayload params g.ipt (body ++ [k]) = .error .noMatch := by
  obtain ⟨r, hunread, hr, _, hdec⟩ := decodePayload_after_text htables hbody hk hknown htext hbits
  subst hn hmore
  have hfirst : (bits.take 31).length = 31 := List.length_take_of_le hlong
  have hsplit : true :: bits = (true :: bits.take 31) ++ bits.drop 31 := by simp
  rw [hsplit, List.append_assoc] at hunread
  have hloop := decodeBits_noMatch (done := []) (out := textBytes t) (k := (true :: bits).length)
    (fun j hj _ => inverse_single_take (inverse_of_tables htables.1 htables.2) (by omega) j hj) hr hunread
    (by simp [hfirst]) (List.cons_ne_nil _ _) (by simp [hfirst, hlong])
  rw [hdec, hloop]
  rfl

/-- With fewer than 31 bits after the `1` they stay in the accumulator (30_encoding.md R103, 45_data_codec.md R246). -/
theorem decodePayload_single_midSymbol (hshort : bits.length < 31) :
    decodePayload params g.ipt (body ++ [k]) = .error .exhaustedMidSymbol := by
  obtain ⟨r, hunread, hr, _, hdec⟩ := decodePayload_after_text htables hbody hk hknown htext hbits
  subst hn hmore
  obtain ⟨r', _, _, _, hloop⟩ := decodeBits_unmatched (done := [])
    (fun j hj _ => inverse_single_take (inverse_of_tables htables.1 htables.2) (by omega) j hj) hr hunread
    (by simp; omega) 0 (textBytes t)
  rw [Nat.add_zero] at hloop
  rw [hdec, hloop]
  exact endDecode_of_left (List.cons_ne_nil _ _) r' _

end

end

/-- Settles O47: the text's codewords are all the decoded bits, so the loop ends with the accumulator empty. -/
theorem decodePayload : Obligations.DecodePayload := by
  intro s n t body k hf hv htables hbody hk hknown hbits htext
  obtain ⟨r, hunread, hr, hbuf, hdec⟩ := decodePayload_after_text htables hbody hk hknown htext (more := [])
    (by rw [hbits, List.append_nil])
  exact ⟨r, exec_dcDec_of_ok hf hv hdec, hr, hbuf, by rw [hunread, hbits, List.nil_append]⟩

/-- Settles O48: what stands behind the text's codewords decides the fault, the control byte and the length before it. -/
theorem decodeFaults : Obligations.DecodeFaults := by
  intro s hf hv
  refine ⟨exec_dcDec_of_error hf hv (decodePayload_nil _),
    fun body k hk => exec_dcDec_of_error hf hv (decodePayload_badControl _ body hk),
    fun n t body k more htables hbody hk hknown htext hbits => ⟨fun x p q hx hq hp hmore => ?cut,
      fun x w bits hn hmore => ⟨fun hlong => ?noMatch, fun hshort => ?single⟩, fun x c bits hx hmore hover => ?long⟩⟩
  all_goals apply exec_dcDec_of_error hf hv
  case cut =>
    subst hmore
    exact decodePayload_midSymbol htables hbody hk hknown htext hbits hx hq hp
  case noMatch => exact decodePayload_single_noMatch htables hbody hk hknown htext hbits hn hmore hlong
  case single => exact decodePayload_single_midSymbol htables hbody hk hknown htext hbits hn hmore hshort
  case long => exact decodePayload_overflow htables hbody hk hknown htext hbits hx hmore hover

/-! ### What DC.DEC accepts -/

/-- A payload that decodes is data bytes and a legal control byte, its decoded bits entries of the inverse table, and
what is returned their symbols (45_data_codec.md R241, R246). -/
theorem decodePayload_ok {ipt : List (Code × Sym)} {d out : List Byte} {r : BR} (hd : d.length ≤ params.maxBuf)
    (h : Machine.decodePayload params ipt d = .ok (out, r)) :
    ∃ body k, d = body ++ [k] ∧ k.toNat ≤ 8 ∧ ∃ l : List (Sym × List Bool),
      (∀ e ∈ l, mapGet (codeOf e.2) ipt = some e.1 ∧ e.2.length ≤ 32) ∧
      decodedBits body k = l.flatMap Prod.snd ∧ out = textBytes (l.map Prod.fst) := by
  rcases List.eq_nil_or_concat d with rfl | ⟨body, k, hd'⟩
  · cases h
  rw [List.concat_eq_append] at hd'
  subst hd'
  rcases Nat.lt_or_ge 8 k.toNat with hk | hk
  · rw [decodePayload_badControl ipt body hk] at h
    cases h
  rw [decodePayload_eq_bind ipt body hk] at h
  obtain ⟨⟨r', acc, out'⟩, hloop, hend⟩ := bind_ok h
  have hr : brOk (BR.load body) = true := load_brOk body (by rw [List.length_append] at hd; omega)
  obtain ⟨l, left, rfl, _, hl, rfl, hbits, _⟩ := decodeBits_ok hr (by simp) hloop
  obtain ⟨rfl, rfl⟩ := endDecode_ok hend
  refine ⟨body, k, rfl, hk, l, fun e he => ⟨(hl e he).1, (hl e he).2.2⟩, ?_, List.nil_append _⟩
  have hfront : (bitsOfBytes body).take (decodedBits body k).length = decodedBits body k :=
    (List.prefix_iff_eq_take.mp (List.take_prefix _ _)).symm
  simpa [hfront] using hbits

/-- The codewords of symbols are their entries' bits (45_data_codec.md R233). -/
theorem encodedBits_map_fst {pt : List (Sym × Code)} {l : List (Sym × List Bool)}
    (h : ∀ e ∈ l, mapGet e.1 pt = some (codeOf e.2) ∧ e.2.length ≤ 32) :
    encodedBits pt (l.map Prod.fst) = l.flatMap Prod.snd := by
  induction l with
  | nil => rfl
  | cons e l ih =>
    obtain ⟨hget, hlen⟩ := h e (by simp)
    have hrest := ih fun e he => h e (by simp [he])
    simp only [encodedBits, List.map_cons, List.flatMap_cons] at hrest ⊢
    rw [hrest, hget, Option.map_some, Option.getD_some, codeBits_codeOf hlen]

/-- Settles O49: the inverse table's entries are the prefix table's (`invert_genTable`). -/
theorem decodeOnlyCodewords : Obligations.DecodeOnlyCodewords := by
  intro s t n d hf htables hd hexec ht
  obtain ⟨_, _, hown⟩ := exec_completed (i := .dcDec d) rfl nofun nofun hexec ht
  obtain ⟨out, r, hdec, rfl⟩ := dcDec_ok hown
  obtain ⟨body, k, hpayload, hk, l, hl, hbits, hout⟩ := decodePayload_ok hd hdec
  obtain ⟨hgen, hinv⟩ := htables
  obtain ⟨inv, hinv', _, hget⟩ := invert_genTable hgen
  obtain rfl : s.pg.ipt = inv := Except.ok.inj (hinv.symm.trans hinv')
  have hentries : ∀ e ∈ l, mapGet e.1 s.pg.pt = some (codeOf e.2) ∧ e.2.length ≤ 32 := fun e he =>
    ⟨(hget _ _).mp (hl e he).1, (hl e he).2⟩
  refine ⟨l.map Prod.fst, body, k, hpayload, hk, fun x hx => ?_, hbits.trans (encodedBits_map_fst hentries).symm, ?_⟩
  · obtain ⟨e, he, rfl⟩ := List.mem_map.mp hx
    rw [(hentries e he).1]
    rfl
  · rw [lastResponse_answer, hout]

/-! ### The encode pass as a whole (45_data_codec.md R235, R247) -/

/-- In an open pass the chunks one by one and all their bytes at once end alike: each is what the assembler and the
close make of the kept bytes and the chunks (`encodeChunks_spec`). -/
theorem encodeChunks_flatten (chunks : List (List Byte)) {s : State} (hf : s.faulted = false)
    (henc : s.dc.encAct = true) (hinc : head s.dc.inc = .incomplete) :
    ∃ t t', runCommands (chunks.map execDcEupd ++ [execDcEend]) s = .next t ∧
      runCommands [execDcEupd chunks.flatten, execDcEend] s = .next t' ∧
      t.flt = t'.flt ∧ (t.faulted = false → lastResponse t = lastResponse t' ∧ t = { t' with resps := t.resps }) := by
  obtain ⟨t, hrun, hend⟩ := encodeChunks_spec chunks s hf henc hinc
  obtain ⟨t', hrun', hend'⟩ := encodeChunks_spec [chunks.flatten] s hf henc hinc
  refine ⟨t, t', hrun, hrun', ?_⟩
  have same_fault : ∀ c : Cause, t.flt = c.flt → t'.flt = c.flt → t.flt = t'.flt ∧
      (t.faulted = false → lastResponse t = lastResponse t' ∧ t = { t' with resps := t.resps }) := fun c h h' =>
    ⟨h.trans h'.symm, fun hok => by rw [faulted_of_flt h] at hok; cases hok⟩
  rw [List.flatten_singleton] at hend'
  generalize feed (encodeSym params s.pg.pt) (s.dc.inc ++ chunks.flatten).length (s.dc.inc ++ chunks.flatten) s.bw = o
    at hend hend'
  match o with
  | .error c => exact same_fault c hend hend'
  | .ok (w, rest) =>
    by_cases hrest : rest = []
    · simp only [if_pos hrest] at hend hend'
      generalize closePayload params w = closed at hend hend'
      match closed with
      | .error c => exact same_fault c hend hend'
      | .ok w' =>
        obtain ⟨hlast, hstate⟩ := hend
        obtain ⟨hlast', hstate'⟩ := hend'
        refine ⟨by rw [hstate, hstate'], fun _ => ⟨hlast.trans hlast'.symm, ?_⟩⟩
        rw [hstate']
        exact hstate
    · simp only [if_neg hrest] at hend hend'
      exact same_fault _ hend hend'

section
variable {s : State} (hf : s.faulted = false) (fs : List (State → Result))
include hf

/-- DC.EBEG in sequence opens the pass for the commands behind it (45_data_codec.md R232). -/
theorem runCommands_dcEbeg (hpre : s.mayBeginEncode = true) :
    runCommands (execDcEbeg :: fs) s = runCommands fs (dcEbeg s) :=
  runCommands_next (congrArg Host.Outcome.next (command_of_ok hf hpre rfl)) hf

theorem runCommands_dcEbeg_sequence (hpre : s.mayBeginEncode = false) :
    runCommands (execDcEbeg :: fs) s = .next (raise .sequenceError s) :=
  runCommands_fault (congrArg Host.Outcome.next (command_of_sequence hf hpre)) (raise_faulted _ s)

end

/-- An encode pass in any cutting ends as over the bytes uncut (45_data_codec.md R235). -/
theorem encodePass_flatten (s : State) (chunks : List (List Byte)) :
    ∃ t t', runCommands (execDcEbeg :: (chunks.map execDcEupd ++ [execDcEend])) s = .next t ∧
      runCommands [execDcEbeg, execDcEupd chunks.flatten, execDcEend] s = .next t' ∧
      t.flt = t'.flt ∧ (t.faulted = false → lastResponse t = lastResponse t' ∧ t = { t' with resps := t.resps }) := by
  cases hf : s.faulted with
  | true =>
    have hbeg : execDcEbeg s = .next (refuse s) := congrArg Host.Outcome.next (command_of_faulted hf)
    exact ⟨refuse s, refuse s, runCommands_fault hbeg hf, runCommands_fault hbeg hf, rfl, fun _ => ⟨rfl, rfl⟩⟩
  | false =>
    cases hpre : s.mayBeginEncode with
    | true =>
      rw [runCommands_dcEbeg hf _ hpre, runCommands_dcEbeg hf _ hpre]
      exact encodeChunks_flatten chunks hf rfl rfl
    | false =>
      exact ⟨_, _, runCommands_dcEbeg_sequence hf _ hpre, runCommands_dcEbeg_sequence hf _ hpre, rfl,
        fun _ => ⟨rfl, rfl⟩⟩

/-- A closed payload is data bytes and a legal control byte whose decoded bits are the content
(45_data_codec.md R238, R243). -/
theorem closePayload_decodedBits {w w' : BW} (h : closePayload params w = .ok w') :
    ∃ body k, w'.buf = body ++ [k] ∧ body.length < params.maxBuf ∧ k.toNat ≤ 8 ∧ decodedBits body k = w.content := by
  have hfits : w.content.length + 8 ≤ 8 * params.maxBuf := by
    by_contra hover
    rw [closePayload_overflow (Nat.lt_of_not_le hover)] at h
    cases h
  obtain ⟨w1, body, hclose, hbuf, hbits, _⟩ := closePayload_spec hfits
  obtain rfl : w' = w1 := Except.ok.inj (h.symm.trans hclose)
  have hk := controlByte_le w.cnt
  have hcount := Except.ok.inj ((ctrlOperand_of_le hk).symm.trans (ctrlOperand_controlValue w.cnt))
  obtain ⟨_, _, happend⟩ := bind_ok h
  have hlen := append_length happend
  rw [hbuf, List.length_append, List.length_singleton] at hlen
  refine ⟨body, _, hbuf, hlen, hk, ?_⟩
  rw [decodedBits, hcount, meaningfulBits_close hbits, hbits, List.take_left]

/-- An encode pass over a text that completes has written the text's codewords to the open writer and closed it; what it
answers last is the payload. -/
theorem encodeChunks_payload {s t : State} {text : List Sym} {chunks : List (List Byte)} (hf : s.faulted = false)
    (henc : s.dc.encAct = true) (hinc : s.dc.inc = []) (hscalar : ∀ x ∈ text, isScalar x = true)
    (hknown : ∀ x ∈ text, (mapGet x s.pg.pt).isSome = true) (hflat : chunks.flatten = textBytes text)
    (hrun : runCommands (chunks.map execDcEupd ++ [execDcEend]) s = .next t) (ht : t.faulted = false) :
    ∃ w w', s.bw.writeAll params (encodedBits s.pg.pt text) = .ok w ∧ closePayload params w = .ok w' ∧
      (lastResponse t).data = w'.buf ∧ t.pg = s.pg := by
  obtain ⟨t', hrun', hend⟩ := encodeChunks_spec chunks s hf henc (by rw [hinc]; rfl)
  obtain rfl : t = t' := Host.Outcome.next.inj (hrun.symm.trans hrun')
  have hfeed := feed_text (encodeSym params s.pg.pt) hscalar (rest := []) rfl s.bw
  rw [List.append_nil, encodeText params s.bw hknown] at hfeed
  rw [hinc, List.nil_append, hflat, hfeed] at hend
  have no_fault : ∀ c : Cause, t.flt ≠ c.flt := fun c h => by rw [faulted_of_flt h] at ht; cases ht
  cases hwrite : s.bw.writeAll params (encodedBits s.pg.pt text) with
  | error c => rw [hwrite] at hend; exact absurd hend (no_fault c)
  | ok w =>
    simp only [hwrite, Except.map, if_true] at hend
    cases hclose : closePayload params w with
    | error c => rw [hclose] at hend; exact absurd hend (no_fault c)
    | ok w' =>
      rw [hclose] at hend
      obtain ⟨hlast, hstate⟩ := hend
      exact ⟨w, w', rfl, hclose, by rw [hlast], by rw [hstate]⟩

/-- DC.DEC of the payload that a completed encode pass returned gives the text back (45_data_codec.md R247). -/
theorem dcDec_of_encodePass {s t : State} {text : List Sym} {chunks : List (List Byte)} (hf : s.faulted = false)
    (hv : s.pg.iptV = true) (hpg : pgOk s.tb s.pg) (hscalar : ∀ x ∈ text, isScalar x = true)
    (hknown : ∀ x ∈ text, (mapGet x s.pg.pt).isSome = true) (hflat : chunks.flatten = textBytes text)
    (htext : (textBytes text).length ≤ params.maxBuf)
    (hrun : runCommands (execDcEbeg :: (chunks.map execDcEupd ++ [execDcEend])) s = .next t)
    (ht : t.faulted = false) :
    ∃ u, exec (.dcDec (lastResponse t).data) t = .next u ∧ u.faulted = false ∧
      lastResponse u = ⟨0x00#8, 0, textBytes text⟩ := by
  cases hpre : s.mayBeginEncode with
  | false =>
    rw [runCommands_dcEbeg_sequence hf _ hpre] at hrun
    cases hrun
    rw [raise_faulted] at ht
    cases ht
  | true =>
    rw [runCommands_dcEbeg hf _ hpre] at hrun
    obtain ⟨w, w', hwrite, hclose, hdata, hkept⟩ :=
      encodeChunks_payload (s := dcEbeg s) hf rfl rfl hscalar hknown hflat hrun ht
    have hpgt : t.pg = s.pg := hkept
    obtain ⟨body, k, hbuf, hbody, hk, hbits⟩ := closePayload_decodedBits hclose
    have hcontent : w.content = encodedBits s.pg.pt text := writeAll_content hwrite
    obtain ⟨htree, hinverse⟩ := hpg
    obtain ⟨hptV, hinv⟩ := hinverse hv
    obtain ⟨n, _, hgen⟩ := htree hptV
    rw [← hpgt] at hv hgen hinv hknown hcontent
    obtain ⟨r, hexec, _⟩ :=
      decodePayload t n text body k ht hv ⟨hgen, hinv⟩ hbody hk hknown (hbits.trans hcontent) htext
    rw [hdata, hbuf]
    exact ⟨_, hexec, ht, lastResponse_answer _ _ _⟩

/-- Settles O50: the two halves above. -/
theorem payloadRoundTrip : Obligations.PayloadRoundTrip :=
  ⟨encodePass_flatten, fun _ _ _ _ hf hv hpg hscalar hknown hflat htext hrun ht =>
    dcDec_of_encodePass hf hv hpg hscalar hknown hflat htext hrun ht⟩

end Sys2Proof.Proofs
end

section
/-! PROOF. The family of 46_system_and_macros.md: what the pseudo-instructions FT.COUNT, CX.ENCODE and CX.DECODE do with
their commands, and the round trip. -/

namespace Sys2Proof.Proofs

open Sys2Proof Sys2Proof.Machine Sys2Proof.Config Sys2Proof.Safety

/-! ### A pseudo-instruction over its expansion (46_system_and_macros.md R265 to R267) -/

theorem thenHost_of_faulted {t : State} (ht : t.faulted = true) (k : State → Result) :
    thenHost (.next t) k = .next (report (.failed t.flt) t) := by simp [thenHost, ht]

theorem thenHost_of_ok {t : State} (ht : t.faulted = false) (k : State → Result) : thenHost (.next t) k = k t := by
  simp [thenHost, ht]

section
variable {m : Instr} {expansion : List Instr} {result : State → HostResult} {s t : State}
  (hcommands : ∀ i ∈ expansion, isCommand i = true)
  (hmacro : exec m s = thenHost (runCommands (expansion.map exec) s) fun t => .next (report (result t) t))
include hcommands

theorem runCommands_hostOut (hrun : runCommands (expansion.map exec) s = .next t) : t.hostOut = s.hostOut := by
  obtain ⟨t', hrun', _, hhost⟩ := runCommands_total hcommands s
  cases hrun.symm.trans hrun'
  exact hhost

include hmacro

theorem exec_macro_of_fault (hrun : runCommands (expansion.map exec) s = .next t) (ht : t.faulted = true) :
    exec m s = .next { t with hostOut := s.hostOut ++ [.failed t.flt] } := by
  rw [hmacro, hrun, thenHost_of_faulted ht, report, runCommands_hostOut hcommands hrun]

theorem exec_macro_of_ok (hrun : runCommands (expansion.map exec) s = .next t) (ht : t.faulted = false) :
    exec m s = .next { t with hostOut := s.hostOut ++ [result t] } := by
  rw [hmacro, hrun, thenHost_of_ok ht, report, runCommands_hostOut hcommands hrun]

/-- A pseudo-instruction that ends without a fault has completed its expansion. -/
theorem exec_macro_completed {u : State} (hexec : exec m s = .next u) (hu : u.faulted = false) :
    ∃ t, runCommands (expansion.map exec) s = .next t ∧ t.faulted = false := by
  obtain ⟨t, hrun, _⟩ := runCommands_total hcommands s
  refine ⟨t, hrun, Bool.eq_false_iff.mpr fun ht => ?_⟩
  cases hexec.symm.trans (exec_macro_of_fault hcommands hmacro hrun ht)
  exact absurd (ht.symm.trans hu) (by decide)

/-- A pseudo-instruction that runs its expansion and then reports stops at the first FAULT (`runCommands_stops`). -/
theorem stopsAtFault_of_expansion : stopsAtFault m expansion s := by
  refine ⟨?answers, fun before i after mid v hsplit hbefore hexec hv => ?stops⟩
  case answers =>
    obtain ⟨t, hrun, _⟩ := runCommands_total hcommands s
    cases ht : t.faulted with
    | true => exact ⟨_, exec_macro_of_fault hcommands hmacro hrun ht, fun _ => rfl⟩
    | false =>
      exact ⟨_, exec_macro_of_ok hcommands hmacro hrun ht, fun hu => absurd (hu.symm.trans ht) (by decide)⟩
  case stops =>
    exact exec_macro_of_fault hcommands hmacro (hsplit ▸ runCommands_stops hbefore hexec hv) hv

end

/-- A sequence that completes has completed its first command (46_system_and_macros.md R265). -/
theorem runCommands_cons_completed {f : State → Result} {fs : List (State → Result)} {s t : State}
    (h : runCommands (f :: fs) s = .next t) (ht : t.faulted = false) :
    ∃ u, f s = .next u ∧ u.faulted = false ∧ runCommands fs u = .next t := by
  cases hu : f s with
  | next u =>
    cases huf : u.faulted with
    | true =>
      cases (runCommands_fault hu huf).symm.trans h
      exact absurd (huf.symm.trans ht) (by decide)
    | false => exact ⟨u, rfl, huf, (runCommands_next hu huf).symm.trans h⟩
  | fault r => simp [runCommands, hu] at h
  | refused r => simp [runCommands, hu] at h

/-- A first part that ends in a next state completes when the whole sequence does. -/
theorem runCommands_append_completed {a b : List (State → Result)} {s t u : State} (ha : a ≠ [])
    (hrun : runCommands a s = .next u) (h : runCommands (a ++ b) s = .next t) (ht : t.faulted = false) :
    u.faulted = false ∧ runCommands b u = .next t := by
  cases hu : u.faulted with
  | true =>
    cases (runCommands_append_fault hrun hu ha).symm.trans h
    exact absurd (hu.symm.trans ht) (by decide)
  | false => exact ⟨rfl, (runCommands_append hrun hu).symm.trans h⟩

/-- The chunks of a text pass are the text (46_system_and_macros.md R265). -/
theorem passChunks_flatten (d : List Byte) : (passChunks d).flatten = d :=
  chunksOf_flatten (n := params.chunk) (by decide) le_rfl

/-! ### FT.COUNT -/

theorem countExpansion_commands (d : List Byte) : ∀ i ∈ countExpansion d, isCommand i = true := by
  simp [countExpansion, isCommand, or_imp, forall_and]

/-- While the reset input is released FT.COUNT is its expansion and one report (46_system_and_macros.md R265). -/
theorem exec_ftCount_eq {s : State} (hr : s.resetIn = false) (d : List Byte) :
    exec (.ftCount d) s =
      thenHost (runCommands ((countExpansion d).map exec) s) fun t => .next (report .counted t) := by
  rw [← countCommands_eq]
  exact unlessReset_released hr

/-- The commands of FT.COUNT over a text count its scalars from an empty table; they complete only where Count does
(41_frequency.md R155 to R157). -/
theorem countCommands_text {s : State} {text : List Sym} (hf : s.faulted = false)
    (hscalar : ∀ x ∈ text, isScalar x = true) :
    ∃ u, runCommands (countCommands params (textBytes text)) s = .next u ∧
      (∀ table, text.foldlM (countSym params) [] = .ok table →
        u = { s with ft := ⟨table, [], true⟩, resps := u.resps }) ∧
      (u.faulted = false → ∃ table, text.foldlM (countSym params) [] = .ok table) := by
  have hclr : execFtClr s = .next (answer 0 [] { s with ft := ⟨[], [], false⟩ }) :=
    congrArg Host.Outcome.next (command_of_ok hf rfl rfl)
  obtain ⟨u, hrun, hend⟩ := countChunks_spec (passChunks (textBytes text))
    (answer 0 [] { s with ft := ⟨[], [], false⟩ }) hf rfl rfl
  refine ⟨u, (runCommands_next hclr hf).trans hrun, ?_⟩
  have hfeed := feed_text (countSym params) hscalar (rest := []) rfl []
  rw [List.append_nil] at hfeed
  simp only [answer_ft, List.nil_append, passChunks_flatten, hfeed] at hend
  cases hfold : text.foldlM (countSym params) [] with
  | error c =>
    rw [hfold] at hend
    exact ⟨nofun, fun hu => by rw [faulted_of_flt hend] at hu; cases hu⟩
  | ok table =>
    rw [hfold] at hend
    exact ⟨fun _ h => by cases h; exact hend, fun _ => ⟨table, rfl⟩⟩

/-- FT.COUNT of a text whose counts fit (46_system_and_macros.md R265). -/
theorem exec_ftCount_text {s : State} {text : List Sym} (hr : s.resetIn = false) (hf : s.faulted = false)
    (hscalar : ∀ x ∈ text, isScalar x = true) (hbound : ∀ x, text.count x < 2 ^ params.weightW) :
    ∃ u, exec (.ftCount (textBytes text)) s = .next u ∧ u.ft.inc = [] ∧ u.ft.done = true ∧
      tableOk u.ft.table = true ∧ (∀ x, countIn u.ft.table x = text.count x) ∧
      u = { s with ft := u.ft, resps := u.resps, hostOut := s.hostOut ++ [.counted] } := by
  obtain ⟨table, hfold, htable, hcount⟩ := countText (t := []) (by decide) hscalar
    fun x => (Nat.zero_add _).trans_lt (hbound x)
  obtain ⟨u, hrun, hend, _⟩ := countCommands_text hf hscalar
  have hu := hend table hfold
  have huf : u.faulted = false := by rw [hu]; exact hf
  rw [countCommands_eq] at hrun
  refine ⟨_, exec_macro_of_ok (countExpansion_commands _) (exec_ftCount_eq hr _) hrun huf, ?_⟩
  rw [hu]
  exact ⟨rfl, rfl, htable, fun x => (hcount x).trans (Nat.zero_add _), rfl⟩

/-- Settles O53: the text's pass by `countCommands_text`, the first FAULT by `stopsAtFault_of_expansion`. -/
theorem countText : Obligations.CountText :=
  ⟨fun _ _ hr hf hscalar hbound => exec_ftCount_text hr hf hscalar hbound,
    fun _ d hr => stopsAtFault_of_expansion (countExpansion_commands d) (exec_ftCount_eq hr d),
    fun s _ hr => ⟨resetBlock s, unlessReset_held hr, atReset_resetBlock s, rfl, rfl⟩⟩

/-! ### CX.ENCODE -/

theorem encodeExpansion_commands (d : List Byte) : ∀ i ∈ encodeExpansion d, isCommand i = true := by
  simp [encodeExpansion, countExpansion, isCommand, or_imp, forall_and]

/-- CX.ENCODE's commands up to the header as instructions (46_system_and_macros.md R266). -/
def headerExpansion (d : List Byte) : List Instr :=
  .sysReset :: (countExpansion d ++ [.tbBuild, .pgGen, .hcSer])

theorem headerCommands_eq (d : List Byte) : headerCommands params d = (headerExpansion d).map exec := by
  simp only [headerCommands, countCommands_eq, headerExpansion, List.map_cons, List.map_append, List.map_nil]
  rfl

theorem headerExpansion_commands (d : List Byte) : ∀ i ∈ headerExpansion d, isCommand i = true := fun i hi =>
  encodeExpansion_commands d i (List.mem_append_left _ hi)

/-- While the reset input is released CX.ENCODE is its expansion and one report: the container of what the header's
commands and the payload's commands answered last (46_system_and_macros.md R266). -/
theorem exec_cxEncode_eq {s s1 : State} {d : List Byte} (hr : s.resetIn = false)
    (hheader : runCommands (headerCommands params d) s = .next s1) :
    exec (.cxEncode d) s = thenHost (runCommands ((encodeExpansion d).map exec) s) fun t =>
      .next (report (.container (segment (lastResponse s1) ++ segment (lastResponse t))) t) := by
  refine (unlessReset_released hr).trans ?_
  rw [← encodeCommands_eq, hheader]
  cases hf : s1.faulted with
  | true => rw [runCommands_append_fault hheader hf (by simp [headerCommands]), thenHost_of_faulted hf,
      thenHost_of_faulted hf]
  | false => rw [runCommands_append hheader hf, thenHost_of_ok hf]

theorem cxEncode_stopsAtFault {s : State} (hr : s.resetIn = false) (d : List Byte) :
    stopsAtFault (.cxEncode d) (encodeExpansion d) s := by
  obtain ⟨s1, hheader, _⟩ := runCommands_total (headerExpansion_commands d) s
  rw [← headerCommands_eq] at hheader
  exact stopsAtFault_of_expansion (encodeExpansion_commands d) (exec_cxEncode_eq hr hheader)

/-- Where both passes complete CX.ENCODE reports the container of their last answers (46_system_and_macros.md R266). -/
theorem exec_cxEncode_of_passes {s s1 s2 : State} {d : List Byte} (hr : s.resetIn = false)
    (hheader : runCommands (headerCommands params d) s = .next s1) (hf1 : s1.faulted = false)
    (hpayload : runCommands (payloadCommands params d) s1 = .next s2) (hf2 : s2.faulted = false) :
    exec (.cxEncode d) s = .next { s2 with
      hostOut := s.hostOut ++ [.container (segment (lastResponse s1) ++ segment (lastResponse s2))] } := by
  have hrun := (runCommands_append hheader hf1).trans hpayload
  rw [encodeCommands_eq] at hrun
  exact exec_macro_of_ok (encodeExpansion_commands d) (exec_cxEncode_eq hr hheader) hrun hf2

/-- Where CX.ENCODE completes both passes did. -/
theorem cxEncode_completed {s u : State} {d : List Byte} (hr : s.resetIn = false)
    (hexec : exec (.cxEncode d) s = .next u) (hu : u.faulted = false) :
    ∃ s1 s2, runCommands (headerCommands params d) s = .next s1 ∧ s1.faulted = false ∧
      runCommands (payloadCommands params d) s1 = .next s2 ∧ s2.faulted = false := by
  obtain ⟨s1, hheader, _⟩ := runCommands_total (headerExpansion_commands d) s
  rw [← headerCommands_eq] at hheader
  obtain ⟨s2, hrun, hf2⟩ :=
    exec_macro_completed (encodeExpansion_commands d) (exec_cxEncode_eq hr hheader) hexec hu
  rw [← encodeCommands_eq] at hrun
  obtain ⟨hf1, hpayload⟩ := runCommands_append_completed (by simp [headerCommands]) hheader hrun hf2
  exact ⟨s1, s2, hheader, hf1, hpayload, hf2⟩

/-! ### The tree of a text -/

/-- A build that leaves a root had entries to build from (42_tree_builder.md R174). -/
theorem buildTree_ne_nil {t : List (Sym × Nat)} {b : Build} {root : Entry} {q : List Entry}
    (h : Machine.buildTree params t = .ok b) (hq : b.mq = root :: q) : t ≠ [] := by
  rintro rfl
  cases h
  cases hq

/-- A completed build of a good table has the table's entries for its leaves (42_tree_builder.md R180). -/
theorem buildTree_leaves {t : List (Sym × Nat)} {b : Build} {root : Entry} {q : List Entry} (ht : tableOk t = true)
    (h : Machine.buildTree params t = .ok b) (hq : b.mq = root :: q) : (leaves root.node).Perm t := by
  obtain ⟨_, hlen, _⟩ := (tableOk_iff t).mp ht
  obtain ⟨b', root', hbuild, hmq, hleaves, _⟩ :=
    buildTree_spec (tableOk_nodup ht) (buildTree_ne_nil h hq) (by omega) (buildTree_total ht h)
  cases h.symm.trans hbuild
  cases hq.symm.trans hmq
  exact hleaves

/-- Every symbol of a generated table's tree has an entry (43_prefix_table.md R191). -/
theorem genTable_isSome {n : Node} {pt : List (Sym × Code)} (h : genTable n = .ok pt) {x : Sym}
    (hx : x ∈ symbols n) : (mapGet x pt).isSome = true := by
  rw [← codewords_symbols] at hx
  obtain ⟨⟨_, word⟩, hword, rfl⟩ := List.mem_map.mp hx
  rw [(genTable_get h _ _).mpr ⟨word, hword, rfl⟩]
  rfl

theorem textTree_of_build {text : List Sym} {table : List (Sym × Nat)} {b : Build} {root : Entry} {q : List Entry}
    (hfold : text.foldlM (countSym params) [] = .ok table) (hbuild : Machine.buildTree params table = .ok b)
    (hq : b.mq = root :: q) : textTree text = some root.node := by
  simp [textTree, hfold, hbuild, hq]

section
variable {text : List Sym} (hscalar : ∀ x ∈ text, isScalar x = true)
include hscalar

theorem textTable_tableOk {table : List (Sym × Nat)} (hfold : text.foldlM (countSym params) [] = .ok table) :
    tableOk table = true :=
  countText_keeps (t := []) (by decide) hscalar hfold

theorem textTree_scalarLeaves {n : Node} (htree : textTree text = some n) : scalarLeaves n = true := by
  obtain ⟨table, b, root, q, hfold, hbuild, hq, rfl⟩ := textTree_eq_some htree
  exact (buildTree_root (textTable_tableOk hscalar hfold) hbuild hq).2

/-- The table of a text's tree has an entry for every symbol of the text. -/
theorem textTree_known {n : Node} {pt : List (Sym × Code)} (htree : textTree text = some n)
    (hgen : genTable n = .ok pt) : ∀ x ∈ text, (mapGet x pt).isSome = true := by
  obtain ⟨table, b, root, q, hfold, hbuild, hq, rfl⟩ := textTree_eq_some htree
  intro x hx
  obtain ⟨c, hc⟩ := Option.isSome_iff_exists.mp (countText_keys hfold x (.inl hx))
  have hleaf : (x, c) ∈ leaves root.node :=
    (buildTree_leaves (textTable_tableOk hscalar hfold) hbuild hq).mem_iff.mpr (mem_of_mapGet hc)
  exact genTable_isSome hgen (List.mem_map_of_mem hleaf)

end

/-! ### The pass that makes the header (46_system_and_macros.md R266) -/

/-- What the header's commands leave behind: the table of the tree, and its tokens, packed, as the last answer. -/
structure HeaderMade (n : Node) (pt : List (Sym × Code)) (s : State) : Prop where
  faulted : s.faulted = false
  mayBegin : s.mayBeginEncode = true
  table : s.pg.pt = pt
  response : lastResponse s = ⟨0x00#8, BitVec.ofNat 32 (packBits (tokens n)).length, packBits (tokens n)⟩

/-- The header's commands behind the count, where the tree and the table exist and the tokens fit. What is
assumed of `s` holds of the states between the commands too: they differ from it in other fields. -/
theorem buildHeader_of_fits {s : State} {b : Build} {root : Entry} {q : List Entry} {pt : List (Sym × Code)}
    (hf : s.faulted = false) (hd : s.ft.done = true) (he : s.dc.encAct = false) (htable : tableOk s.ft.table = true)
    (hbuild : Machine.buildTree params s.ft.table = .ok b) (hq : b.mq = root :: q)
    (hgen : genTable root.node = .ok pt) (hfits : (tokens root.node).length ≤ 8 * params.maxBuf) :
    ∃ t, runCommands [execTbBuild, execPgGen, execHcSer] s = .next t ∧ HeaderMade root.node pt t := by
  obtain ⟨rfl, _⟩ := buildTree_root htable hbuild hq
  have htb := exec_tbBuild_of_root hf hd he (buildTree_ne_nil hbuild hq) hbuild hq
  refine ⟨_, (runCommands_next (f := execTbBuild) htb hf).trans <|
    (runCommands_next (f := execPgGen)
      (exec_pgGen_of_ok (by exact hf) rfl (by exact he) rfl hgen) (by exact hf)).trans <|
    (runCommands_next (f := execHcSer)
      (exec_hcSer_of_fits (by exact hf) rfl (by exact he) rfl hfits) (by exact hf)).trans rfl, ?_⟩
  exact ⟨hf, by simp [State.mayBeginEncode, he], rfl, lastResponse_answer _ _ _⟩

/-- The header's commands behind the count complete only so. -/
theorem buildHeader_completed {s t : State} (hrun : runCommands [execTbBuild, execPgGen, execHcSer] s = .next t)
    (ht : t.faulted = false) :
    ∃ b root q pt, Machine.buildTree params s.ft.table = .ok b ∧ b.mq = root :: q ∧ genTable root.node = .ok pt ∧
      (tokens root.node).length ≤ 8 * params.maxBuf := by
  obtain ⟨s1, htb, hf1, hrun⟩ := runCommands_cons_completed hrun ht
  obtain ⟨s2, hpg, hf2, hrun⟩ := runCommands_cons_completed hrun ht
  obtain ⟨s3, hhc, hf3, _⟩ := runCommands_cons_completed hrun ht
  obtain ⟨b, root, q, hbuild, hq, rfl⟩ := tbBuild_ok (ownPart_of_exec (i := .tbBuild) htb hf1)
  obtain ⟨n, pt, hn, hgen, rfl⟩ := pgGen_ok (ownPart_of_exec (i := .pgGen) hpg hf2)
  obtain ⟨n', w, hn', hw, rfl⟩ := hcSer_ok (ownPart_of_exec (i := .hcSer) hhc hf3)
  cases hn
  cases hn'
  refine ⟨b, root, q, pt, hbuild, hq, hgen, Nat.le_of_not_lt fun hover => ?_⟩
  rw [writeAll_flush_overflow hover] at hw
  cases hw

section
variable {s : State} {text : List Sym} (hscalar : ∀ x ∈ text, isScalar x = true)
include hscalar

/-- The header's commands over a text whose tree and table exist and whose tokens fit. -/
theorem headerCommands_text {n : Node} {pt : List (Sym × Code)} (htree : textTree text = some n)
    (hgen : genTable n = .ok pt) (hfits : (tokens n).length ≤ 8 * params.maxBuf) :
    ∃ u, runCommands (headerCommands params (textBytes text)) s = .next u ∧ HeaderMade n pt u := by
  obtain ⟨table, b, root, q, hfold, hbuild, hq, rfl⟩ := textTree_eq_some htree
  obtain ⟨c, hcount, hend, _⟩ := countCommands_text (s := answer 0 [] (resetBlock s)) rfl hscalar
  have hc := hend table hfold
  have hcf : c.faulted = false := by rw [hc]; rfl
  have htable := textTable_tableOk hscalar hfold
  have hreset : execSysReset s = .next (answer 0 [] (resetBlock s)) := rfl
  rw [headerCommands, runCommands_next hreset rfl, runCommands_append hcount hcf]
  exact buildHeader_of_fits hcf (by rw [hc]) (by rw [hc]; rfl) (by rw [hc]; exact htable) (by rw [hc]; exact hbuild)
    hq hgen hfits

/-- They complete on no other text. -/
theorem headerCommands_completed {u : State}
    (hrun : runCommands (headerCommands params (textBytes text)) s = .next u) (hu : u.faulted = false) :
    ∃ n pt, textTree text = some n ∧ genTable n = .ok pt ∧ (tokens n).length ≤ 8 * params.maxBuf := by
  obtain ⟨_, hreset, _, hrun⟩ := runCommands_cons_completed hrun hu
  cases hreset
  obtain ⟨c, hcount, hend, hcompletes⟩ := countCommands_text (s := answer 0 [] (resetBlock s)) rfl hscalar
  obtain ⟨hcf, hbuild⟩ := runCommands_append_completed (by simp [countCommands]) hcount hrun hu
  obtain ⟨table, hfold⟩ := hcompletes hcf
  obtain ⟨b, root, q, pt, hbuild, hq, hgen, hfits⟩ := buildHeader_completed hbuild hu
  rw [hend table hfold] at hbuild
  exact ⟨root.node, pt, textTree_of_build hfold hbuild hq, hgen, hfits⟩

end

/-! ### The pass that makes the payload (46_system_and_macros.md R266) -/

/-- Bits that fit are written to a clear writer and closed into their payload (45_data_codec.md R238). -/
theorem writeAll_closePayload {bits : List Bool} (hfits : bits.length + 8 ≤ 8 * params.maxBuf) :
    ∃ w w', BW.clear.writeAll params bits = .ok w ∧ closePayload params w = .ok w' ∧ isPayload bits w'.buf := by
  have hroom : (BW.clear.content.length + bits.length) / 8 ≤ params.maxBuf := by
    rw [content_clear, List.length_nil]
    omega
  obtain ⟨w, hwrite⟩ := writeAll_ok bits hroom
  obtain rfl : w.content = bits := writeAll_content hwrite
  obtain ⟨w', hclose, hpayload, _⟩ := closePayload_isPayload hfits
  exact ⟨w, w', hwrite, hclose, hpayload⟩

theorem isPayload_unique {bits : List Bool} {p p' : List Byte} (hp : isPayload bits p) (hp' : isPayload bits p') :
    p = p' := by
  obtain ⟨body, rfl, hbits⟩ := hp
  obtain ⟨body', rfl, hbits'⟩ := hp'
  rw [bitsOfBytes_injective (hbits.trans hbits'.symm)]

/-- A payload that fits is read back as the bits it was made of (45_data_codec.md R238, R243). -/
theorem isPayload_decodedBits {bits : List Bool} {p : List Byte} (hp : isPayload bits p)
    (hfits : bits.length + 8 ≤ 8 * params.maxBuf) :
    ∃ body k, p = body ++ [k] ∧ body.length < params.maxBuf ∧ k.toNat ≤ 8 ∧ decodedBits body k = bits := by
  obtain ⟨w, w', hwrite, hclose, hp'⟩ := writeAll_closePayload hfits
  obtain rfl : w.content = bits := writeAll_content hwrite
  rw [isPayload_unique hp hp']
  exact closePayload_decodedBits hclose

section
variable {s : State} {text : List Sym} (hscalar : ∀ x ∈ text, isScalar x = true)
include hscalar

section
variable (hf : s.faulted = false) (hknown : ∀ x ∈ text, (mapGet x s.pg.pt).isSome = true)
include hf hknown

/-- An open pass over a text whose codewords are written and closed answers the payload (45_data_codec.md R237). -/
theorem encodeChunks_text {chunks : List (List Byte)} {w w' : BW} (henc : s.dc.encAct = true) (hinc : s.dc.inc = [])
    (hflat : chunks.flatten = textBytes text) (hwrite : s.bw.writeAll params (encodedBits s.pg.pt text) = .ok w)
    (hclose : closePayload params w = .ok w') :
    ∃ u, runCommands (chunks.map execDcEupd ++ [execDcEend]) s = .next u ∧ u.faulted = false ∧
      lastResponse u = ⟨0x00#8, BitVec.ofNat 32 w'.buf.length, w'.buf⟩ := by
  obtain ⟨u, hrun, hend⟩ := encodeChunks_spec chunks s hf henc (by rw [hinc]; rfl)
  have hfeed := feed_text (encodeSym params s.pg.pt) hscalar (rest := []) rfl s.bw
  rw [List.append_nil, encodeText params s.bw hknown, hwrite] at hfeed
  rw [hinc, List.nil_append, hflat, hfeed] at hend
  simp only [Except.map, if_true, hclose] at hend
  obtain ⟨hlast, hstate⟩ := hend
  exact ⟨u, hrun, by rw [hstate]; exact hf, hlast⟩

variable (hpre : s.mayBeginEncode = true)
include hpre

/-- The payload's commands over a text of known symbols whose codewords fit. -/
theorem payloadCommands_text (hfits : (encodedBits s.pg.pt text).length + 8 ≤ 8 * params.maxBuf) :
    ∃ u p, runCommands (payloadCommands params (textBytes text)) s = .next u ∧ u.faulted = false ∧
      lastResponse u = ⟨0x00#8, BitVec.ofNat 32 p.length, p⟩ ∧ isPayload (encodedBits s.pg.pt text) p := by
  obtain ⟨w, w', hwrite, hclose, hpayload⟩ := writeAll_closePayload hfits
  obtain ⟨u, hrun, hu, hlast⟩ := encodeChunks_text (s := dcEbeg s) hscalar hf hknown rfl rfl
    (passChunks_flatten (textBytes text)) hwrite hclose
  exact ⟨u, w'.buf, (runCommands_dcEbeg hf _ hpre).trans hrun, hu, hlast, hpayload⟩

/-- They complete only where the codewords fit. -/
theorem payloadCommands_completed {u : State}
    (hrun : runCommands (payloadCommands params (textBytes text)) s = .next u) (hu : u.faulted = false) :
    (encodedBits s.pg.pt text).length + 8 ≤ 8 * params.maxBuf := by
  rw [payloadCommands, runCommands_dcEbeg hf _ hpre] at hrun
  obtain ⟨w, w', hwrite, hclose, _⟩ := encodeChunks_payload (s := dcEbeg s) hf rfl rfl hscalar hknown
    (passChunks_flatten (textBytes text)) hrun hu
  have hcontent : w.content = encodedBits s.pg.pt text := writeAll_content hwrite
  rw [← hcontent]
  refine Nat.le_of_not_lt fun hover => ?_
  rw [closePayload_overflow hover] at hclose
  cases hclose

end

/-! ### CX.ENCODE of a text -/

theorem exec_cxEncode_text {n : Node} {pt : List (Sym × Code)} (hr : s.resetIn = false)
    (htree : textTree text = some n) (hgen : genTable n = .ok pt) (hheader : (tokens n).length ≤ 8 * params.maxBuf)
    (hpayload : (encodedBits pt text).length + 8 ≤ 8 * params.maxBuf) :
    ∃ u p, exec (.cxEncode (textBytes text)) s = .next u ∧ u.faulted = false ∧
      u.hostOut = s.hostOut ++ [.container (pack (packBits (tokens n)) p)] ∧ isPayload (encodedBits pt text) p := by
  obtain ⟨s1, hrun1, hf1, hpre, rfl, hlast1⟩ := headerCommands_text (s := s) hscalar htree hgen hheader
  obtain ⟨s2, p, hrun2, hf2, hlast2, hp⟩ :=
    payloadCommands_text hscalar hf1 (textTree_known hscalar htree hgen) hpre hpayload
  refine ⟨_, p, exec_cxEncode_of_passes hr hrun1 hf1 hrun2 hf2, hf2, ?_, hp⟩
  rw [hlast1, hlast2]
  rfl

/-- CX.ENCODE completes only where the tree and the table exist and the header and the payload fit. -/
theorem cxEncode_text_completed {u : State} (hr : s.resetIn = false)
    (hexec : exec (.cxEncode (textBytes text)) s = .next u) (hu : u.faulted = false) :
    ∃ n pt, textTree text = some n ∧ genTable n = .ok pt ∧ (tokens n).length ≤ 8 * params.maxBuf ∧
      (encodedBits pt text).length + 8 ≤ 8 * params.maxBuf := by
  obtain ⟨s1, s2, hrun1, hf1, hrun2, hf2⟩ := cxEncode_completed hr hexec hu
  obtain ⟨n, pt, htree, hgen, hheader⟩ := headerCommands_completed hscalar hrun1 hf1
  obtain ⟨s1', hrun1', _, hpre, rfl, _⟩ := headerCommands_text (s := s) hscalar htree hgen hheader
  cases hrun1.symm.trans hrun1'
  exact ⟨n, _, htree, hgen, hheader,
    payloadCommands_completed hscalar hf1 (textTree_known hscalar htree hgen) hpre hrun2 hf2⟩

end

/-- Settles O54: the text by `exec_cxEncode_text`, the first FAULT by `cxEncode_stopsAtFault`. -/
theorem encodeText : Obligations.EncodeText := by
  refine ⟨fun s t n pt hr hscalar htree hgen hheader hpayload => ?_, fun _ d hr => cxEncode_stopsAtFault hr d,
    fun s _ hr => ⟨resetBlock s, unlessReset_held hr, atReset_resetBlock s, rfl, rfl⟩⟩
  obtain ⟨u, p, hexec, hu, hhost, hp⟩ := exec_cxEncode_text hscalar hr htree hgen hheader hpayload
  exact ⟨u, packBits (tokens n), p, hexec, hu, hhost, bitsOfBytes_packBits (tokens n), hp⟩

/-! ### CX.DECODE -/

theorem decodeExpansion_commands (h p : List Byte) : ∀ i ∈ decodeExpansion h p, isCommand i = true := by
  simp [decodeExpansion, isCommand]

/-- CX.DECODE of a container that Unpack accepts is its expansion and one report, unless the reset input is asserted
(46_system_and_macros.md R267). -/
theorem exec_cxDecode_eq {s : State} {c h p : List Byte} (hc : unpack c = .ok (h, p)) :
    exec (.cxDecode c) s = unlessReset (thenHost (runCommands ((decodeExpansion h p).map exec) s) fun t =>
      .next (report (.text (lastResponse t).data) t)) s := by
  show execCxDecode c s = _
  simp only [execCxDecode, hc]
  rfl

theorem exec_cxDecode_released {s : State} {c h p : List Byte} (hr : s.resetIn = false)
    (hc : unpack c = .ok (h, p)) :
    exec (.cxDecode c) s = thenHost (runCommands ((decodeExpansion h p).map exec) s) fun t =>
      .next (report (.text (lastResponse t).data) t) :=
  (exec_cxDecode_eq hc).trans (unlessReset_released hr)

theorem exec_cxDecode_short {s : State} {c : List Byte} {e : Cause} (hc : unpack c = .error e) :
    exec (.cxDecode c) s = .next (report (.failed e.flt) s) := by
  show execCxDecode c s = _
  simp only [execCxDecode, hc]

theorem exec_pgInv_of_ok {s : State} {inv : List (Code × Sym)} (hf : s.faulted = false) (hv : s.pg.ptV = true)
    (hi : Machine.invertTable s.pg.pt [] = .ok inv) :
    exec .pgInv s = .next (answer 0 [] { s with pg := { s.pg with ipt := inv, iptV := true } }) :=
  congrArg Host.Outcome.next (command_of_ok hf hv (by simp only [pgInv, hi]))

section
variable {h body : List Byte} {k : Byte} {n : Node} {pt : List (Sym × Code)} {text : List Sym} {rest : List Bool}
  (hlen : h.length ≤ params.maxBuf) (hbody : body.length < params.maxBuf) (hscalar : scalarLeaves n = true)
  (htokens : bitsOfBytes h = tokens n ++ rest) (hgen : genTable n = .ok pt) (hk : k.toNat ≤ 8)
  (hknown : ∀ y ∈ text, (mapGet y pt).isSome = true) (hbits : decodedBits body k = encodedBits pt text)
  (htext : (textBytes text).length ≤ params.maxBuf)
include hlen hbody hscalar htokens hgen hk hknown hbits htext

/-- The commands of CX.DECODE rebuild the tree and its tables from the header and end with the text. -/
theorem runCommands_decodeExpansion (s : State) :
    ∃ t, runCommands ((decodeExpansion h (body ++ [k])).map exec) s = .next t ∧ t.faulted = false ∧
      (lastResponse t).data = textBytes text := by
  obtain ⟨r, hdes, _⟩ := desHeader_tokens hlen hscalar htokens
  obtain ⟨inv, hinv, _⟩ := invert_genTable hgen
  have htables : tablesOf n ⟨pt, true, inv, true⟩ := ⟨hgen, hinv⟩
  obtain ⟨r', _, _, _, hdec⟩ := decodePayload_after_text htables hbody hk hknown htext (more := [])
    (by rw [hbits, List.append_nil])
  have hreset : exec .sysReset s = .next (answer 0 [] (resetBlock s)) := rfl
  refine ⟨_, (runCommands_next hreset rfl).trans <| (runCommands_next (exec_hcDes_of_ok rfl rfl hdes) rfl).trans <|
    (runCommands_next (exec_pgGen_of_ok rfl rfl rfl rfl ((genTable_forgetWeights n).trans hgen)) rfl).trans <|
    (runCommands_next (exec_pgInv_of_ok rfl rfl hinv) rfl).trans <|
    (runCommands_next (exec_dcDec_of_ok rfl rfl hdec) rfl).trans rfl, rfl, ?_⟩
  rw [lastResponse_answer]

theorem exec_cxDecode_pack {s : State} (hr : s.resetIn = false) (x : List Byte) :
    ∃ u, exec (.cxDecode (pack h (body ++ [k]) ++ x)) s = .next u ∧ u.faulted = false ∧
      u.hostOut = s.hostOut ++ [.text (textBytes text)] := by
  obtain ⟨t, hrun, ht, hdata⟩ :=
    runCommands_decodeExpansion hlen hbody hscalar htokens hgen hk hknown hbits htext s
  have hunpack := unpack_pack h (body ++ [k]) x hlen (by rw [List.length_append]; exact hbody)
  refine ⟨_, exec_macro_of_ok (decodeExpansion_commands _ _) (exec_cxDecode_released hr hunpack) hrun ht, ht, ?_⟩
  rw [hdata]

end

/-- Settles O55: the container by `exec_cxDecode_pack`, the first FAULT by `stopsAtFault_of_expansion`. -/
theorem decodeContainer : Obligations.DecodeContainer := by
  refine ⟨fun s h body x k n pt t rest hr hlen hbody hscalar htokens hgen hk hknown hbits htext => ?text,
    fun s c hc => exec_cxDecode_short hc, fun s c h p hr hc => ?fault, fun s c h p hr hc => ?held⟩
  case text => exact exec_cxDecode_pack hlen hbody hscalar htokens hgen hk hknown hbits htext hr x
  case fault => exact stopsAtFault_of_expansion (decodeExpansion_commands h p) (exec_cxDecode_released hr hc)
  case held =>
    exact ⟨resetBlock s, (exec_cxDecode_eq hc).trans (unlessReset_held hr), atReset_resetBlock s, rfl, rfl⟩

/-! ### The whole flow (46_system_and_macros.md R269) -/

/-- Settles O56: CX.ENCODE completes only on what `exec_cxEncode_text` describes, and `exec_cxDecode_pack` reads that
container back. -/
theorem wholeFlowRoundTrip : Obligations.WholeFlowRoundTrip := by
  intro s s' u t hr hr' hscalar htext hexec hu
  obtain ⟨n, pt, htree, hgen, hheader, hpayload⟩ := cxEncode_text_completed hscalar hr hexec hu
  obtain ⟨u', p, hexec', _, hhost, hp⟩ := exec_cxEncode_text hscalar hr htree hgen hheader hpayload
  cases hexec.symm.trans hexec'
  obtain ⟨body, k, rfl, hbody, hk, hbits⟩ := isPayload_decodedBits hp hpayload
  have hlen : (packBits (tokens n)).length ≤ params.maxBuf := by
    rw [packBits_length, byteCount]
    omega
  obtain ⟨v, hdecode, hv, hout⟩ := exec_cxDecode_pack hlen hbody (textTree_scalarLeaves hscalar htree)
    (bitsOfBytes_packBits (tokens n)) hgen hk (textTree_known hscalar htree hgen) hbits htext hr' []
  rw [List.append_nil] at hdecode
  exact ⟨_, v, hhost, hdecode, hv, hout⟩

end Sys2Proof.Proofs
end

section
/-! PROOF. The family of 60_exceptions.md: sequencing, fault entry, refusal while faulted, and the way out. -/

namespace Sys2Proof.Proofs

open Sys2Proof Sys2Proof.Machine Sys2Proof.Config Sys2Proof.Safety

/-! ### Entering the faulted condition -/

/-- A command that starts healthy and ends faulted is a fault entry: out of sequence, or with a cause of its own part
(60_exceptions.md R291, R296). -/
theorem exec_entersFault {i : Instr} {s t : State} (hi : isCommand i = true) (hf : s.faulted = false)
    (he : exec i s = .next t) (ht : t.faulted = true) :
    ∃ c, t = raise c s ∧
      ((precondition s i = false ∧ c = .sequenceError) ∨ (precondition s i = true ∧ ownPart s i = .error c)) := by
  by_cases h1 : i = .sysReset
  · subst h1; cases he; cases ht
  by_cases h2 : i = .sysStat
  · subst h2; cases he; rw [answer_faulted, hf] at ht; cases ht
  rw [exec_command hi h1 h2] at he
  cases he
  rcases command_cases (precondition s i) (ownPart s i) s with
    ⟨hf', _⟩ | ⟨_, hp, e⟩ | ⟨c, _, hp, ho, e⟩ | ⟨t, _, _, ho, e⟩
  · rw [hf] at hf'; cases hf'
  · exact ⟨_, e, .inl ⟨hp, rfl⟩⟩
  · exact ⟨c, e, .inr ⟨hp, ho⟩⟩
  · obtain ⟨r, hdone, _⟩ := ownPart_completed hi h1 h2 ho
    rw [e, faulted_of_completed hdone, hf] at ht; cases ht

/-- With its precondition true and `TREE_V` telling the truth, a command's own part finds the tree it needs, and so has
no SequenceError to raise (60_exceptions.md R288). -/
theorem ownPart_ne_sequenceError {i : Instr} {s : State} (hp : precondition s i = true) (htb : tbOk s.tb = true) :
    ownPart s i ≠ .error .sequenceError := by
  intro ho
  obtain ⟨_, hsequence⟩ := ownPart_error ho
  obtain ⟨htree, hi⟩ := hsequence rfl
  obtain ⟨htreeV, _⟩ := (tbOk_iff s.tb).mp htb
  rcases hi with rfl | rfl <;> simp [precondition, htreeV, htree] at hp

/-- Settles O7: a failed precondition stops the command in the shared checks; otherwise only its own part could raise
SequenceError, and it does not (`ownPart_ne_sequenceError`). -/
theorem sequencingPreconditions : Obligations.SequencingPreconditions := by
  refine fun i s hi hf => ⟨fun hp => ?fails, fun hp htb t he hflt => ?holds⟩
  case fails =>
    rw [exec_command hi (by rintro rfl; cases hp) (by rintro rfl; cases hp), command_of_sequence hf hp]
  case holds =>
    obtain ⟨c, rfl, ⟨hp', _⟩ | ⟨_, ho⟩⟩ := exec_entersFault hi hf he (faulted_of_flt hflt)
    · rw [hp] at hp'; cases hp'
    · cases cause_flt_injective hflt
      exact ownPart_ne_sequenceError hp htb ho

/-- The value of FLT is `(kind << 8) | cause` (60_exceptions.md R296). -/
theorem flt_value_toNat (f : FLT) : f.value.toNat = f.kind.toNat * 256 + f.cause.toNat := by
  rw [FLT.value, toNat_append', toNat_append', BitVec.toNat_ofNat, Nat.zero_mod, Nat.zero_mul, Nat.zero_add]
  rfl

/-- Settles O9: the fault entry is `raise` (`exec_entersFault`) with a cause of the table. -/
theorem faultEntry : Obligations.FaultEntry := by
  intro i s t hi hf he ht
  obtain ⟨c, rfl, hcause⟩ := exec_entersFault hi hf he ht
  have hc : c ∈ blockCauses := by
    rcases hcause with ⟨_, rfl⟩ | ⟨_, ho⟩
    · decide
    · exact (ownPart_error ho).1
  exact ⟨c, hc, rfl, rfl, rfl, flt_value_toNat c.flt, rfl, rfl, rfl⟩

/-! ### While a fault is recorded -/

/-- Settles O10: check 1 of the admission refuses every word but the two system commands. -/
theorem refusalWhileFaulted : Obligations.RefusalWhileFaulted := by
  intro s w d rest hr hf htake hreset hstat
  rw [step_take hr htake]
  rcases admission_faulted w d (s := s.took rest) hf with ⟨hop, _⟩ | ⟨hop, _⟩ | ⟨_, _, hadm⟩
  · exact absurd hop hreset
  · exact absurd hop hstat
  · rw [hadm]; rfl

/-! ### Leaving the faulted condition -/

/-- The word of a command without data is taken whatever its fields are (30_encoding.md R83). -/
theorem takeCommand_of_noData {o : Op} (h : o.carriesData = false) (n a b c d : Byte) (rest : List Byte) :
    takeCommand (o.code :: n :: a :: b :: c :: d :: rest) = some (⟨o.code, n, word32 a b c d⟩, [], rest) := by
  have hlen : CmdWord.dataLength ⟨o.code, n, word32 a b c d⟩ = 0 := by
    rw [dataLength_of_ofByte (Op.ofByte_code o), h]; rfl
  simp [takeCommand, takeWord_cons, hlen]

/-- A taken command begins with the six bytes of its word, `op` first (30_encoding.md R82). -/
theorem bytes_of_takeCommand {bs d rest : List Byte} {w : CmdWord} (h : takeCommand bs = some (w, d, rest)) :
    ∃ n v0 v1 v2 v3 more, bs = w.op :: n :: v0 :: v1 :: v2 :: v3 :: more :=
  ⟨_, _, _, _, _, _, (takeCommand_eq_some.mp h).1⟩

/-- With a fault recorded a word with the opcode of SYS.RESET runs it, the reserved fields unchecked
(60_exceptions.md R291, R299). -/
theorem step_sysReset_of_faulted {s : State} {w : CmdWord} {d rest : List Byte} (hr : s.resetIn = false)
    (hf : s.faulted = true) (htake : takeCommand s.cmdIn = some (w, d, rest)) (hop : w.op = 0x01#8) :
    step s = exec .sysReset (s.took rest) := by
  rw [step_take hr htake]
  rcases admission_faulted w d (s := s.took rest) hf with ⟨_, hadm⟩ | ⟨hstat, _⟩ | ⟨hreset, _, _⟩
  · rw [hadm]; rfl
  · rw [hop] at hstat; cases hstat
  · exact absurd hop hreset

/-- A step from the faulted condition keeps FLT, or reset took all state to its reset values (60_exceptions.md R299). -/
theorem step_of_faulted {s t : State} (hf : s.faulted = true) (hst : step s = .next t) :
    t.flt = s.flt ∨
    ((s.resetIn = true ∨ ∃ n a b c d rest, s.cmdIn = 0x01#8 :: n :: a :: b :: c :: d :: rest) ∧ atReset t) := by
  have healthy : ∀ {P : Prop}, s.faulted = false → P := fun e => by rw [hf] at e; cases e
  rcases step_cases s with ⟨hr, e⟩ | e | ⟨w, d, rest, _, htake, hcases⟩
  · rw [e] at hst; cases hst; exact .inr ⟨.inl hr, atReset_resetBlock s⟩
  · rw [e] at hst; cases hst; exact .inl rfl
  rcases hcases with ⟨_, _, _, h, _⟩ | ⟨_, hop, e⟩ | ⟨_, _, e⟩ | ⟨_, e⟩ | ⟨h, _⟩ | ⟨h, _⟩
  · exact healthy h
  · rw [e] at hst; cases hst; exact .inr ⟨.inr (hop ▸ bytes_of_takeCommand htake), atReset_resetBlock s⟩
  · rw [e] at hst; cases hst; exact .inl rfl
  · rw [e] at hst; cases hst; exact .inl rfl
  · exact healthy h
  · exact healthy h

/-- Settles O11: every step by `step_of_faulted`, the SYS.RESET word by `step_sysReset_of_faulted`. -/
theorem onlyResetClearsFault : Obligations.OnlyResetClearsFault := by
  refine ⟨fun s t hf hst => step_of_faulted hf hst, fun s n a b c d rest hr hf hin => ?_,
    fun s _ => atReset_hardReset s⟩
  have hstep := step_sysReset_of_faulted hr hf (hin ▸ takeCommand_of_noData (o := .sysReset) rfl n a b c d rest) rfl
  exact ⟨hstep, _, hstep, atReset_resetBlock (s.took rest), rfl, rfl⟩

end Sys2Proof.Proofs
end
